-- ==== Sys2Proof/Word.lean ====
section
/-! DEFINITION. The words of the machine (00_scope.md R9): a byte, a 32-bit word, a 64-bit double word. -/

namespace Sys2Proof

/-- A byte is 8 bits (R9). -/
abbrev Byte := BitVec 8

/-- A 32-bit word: a bank's value, the instruction pointer, a slot word (R21, R32, R72). -/
abbrev Word := BitVec 32

/-- A 64-bit product or dividend (R8, R151, R153). -/
abbrev DWord := BitVec 64

end Sys2Proof
end

