-- ==== Sys2Proof/Config.lean ====
section
/-! DEFINITION. The implementation parameters of 00_scope.md R7, as plain data.
A machine carries one `Config` for its whole life, in `State.cfg`; no step and no host call changes it (log 4).
Every statement about a state is therefore a statement about every value of every parameter. -/

namespace Sys2Proof

/-- ENDIAN: byte order of multi-byte memory accesses (R7, R57). -/
inductive Endian
  | little
  | big
  deriving DecidableEq, Repr

/-- NARROW_EXT: how a 1- or 2-byte operand is widened before the ALU (R7, R122). -/
inductive NarrowExt
  | zero
  | sign
  deriving DecidableEq, Repr

/-- FLAG_WIDTH: the width at which the ALU computes flags (R7, R121). -/
inductive FlagWidth
  | fixed32
  | operand
  deriving DecidableEq, Repr

/-- INCDEC_CF: whether INC and DEC write CF (R7, R135). -/
inductive IncDecCF
  | computed
  | preserved
  deriving DecidableEq, Repr

/-- CXZ_WIDTH: the bits of the counter register that JCXZ tests (R7, R191). -/
inductive CxzWidth
  | bits32
  | bits16
  deriving DecidableEq, Repr

/-- LEAVE_MODE: what LEAVE does to ESP (R7, R199). -/
inductive LeaveMode
  | x86
  | popOnly
  deriving DecidableEq, Repr

/-- INT1_RENDER: how the host prints the value of INT 1 (R7, R211). -/
inductive Int1Render
  | signed
  | unsigned
  deriving DecidableEq, Repr

/-- The parameters of R7. N is not here: it is the length of the loaded program. -/
structure Config where
  /-- MEM_SIZE, bytes in the memory block. -/
  memSize : Nat
  endian : Endian
  narrowExt : NarrowExt
  flagWidth : FlagWidth
  incDecCF : IncDecCF
  cxzWidth : CxzWidth
  leaveMode : LeaveMode
  int1Render : Int1Render
  /-- TICK_MS, in milliseconds: no rule depends on it (R272). -/
  tickMs : Nat
  deriving DecidableEq, Repr

/-- The range R7 gives MEM_SIZE: 8 ≤ MEM_SIZE ≤ 2^31. -/
abbrev Config.wf (c : Config) : Prop := 8 ≤ c.memSize ∧ c.memSize ≤ 2 ^ 31

/-- The defaults of R7. DESIGN CHOICE for the three parameters R7 leaves OPEN: MEM_SIZE is 64, the number every vector of
95_test_vectors.md uses (log 5); INT1_RENDER is signed (log 6); TICK_MS is 0 (log 7). -/
def Config.default : Config where
  memSize := 64
  endian := .little
  narrowExt := .zero
  flagWidth := .fixed32
  incDecCF := .computed
  cxzWidth := .bits32
  leaveMode := .x86
  int1Render := .signed
  tickMs := 0

end Sys2Proof
end

