-- ==== Sys2Proof/Syntax.lean ====
section
/-! DEFINITION. The instructions as syntax: widths, the named registers, the four operand shapes, the instruction slot, and
one constructor of `Instr` for each row of the opcode map (30_encoding.md R91). -/

namespace Sys2Proof

/-- The operand widths: 1, 2 or 4 bytes (00_scope.md R8, 30_encoding.md R77). -/
inductive Width
  | w1
  | w2
  | w4
  deriving DecidableEq, Repr

/-- The width in bytes. -/
def Width.bytes : Width → Nat
  | .w1 => 1
  | .w2 => 2
  | .w4 => 4

/-- The 24 named views of the register file (10_state.md R24). -/
inductive Reg
  | eax | ecx | edx | ebx | esp | ebp | esi | edi
  | ax | cx | dx | bx | sp | bp | si | di
  | al | cl | dl | bl | ah | ch | dh | bh
  deriving DecidableEq, Repr

/-- The eight 32-bit registers, the only legal base and index registers (30_encoding.md R79). -/
inductive Reg32
  | eax | ecx | edx | ebx | esp | ebp | esi | edi
  deriving DecidableEq, Repr

/-- The legal multipliers of an index: 1, 2, 4, 8 (30_encoding.md R79). -/
inductive Scale
  | s1 | s2 | s4 | s8
  deriving DecidableEq, Repr

/-- `[base + index*scale + disp]` (30_encoding.md R79; 20_memory.md R58). -/
structure MemRef where
  base : Reg32
  index : Option (Reg32 × Scale)
  disp : Word
  deriving DecidableEq, Repr

/-- An operand that names storage: the shapes R, M and D, which can be read and written (30_encoding.md R80). A register's
width is its own; a memory operand carries its width (R77). -/
inductive Place
  | reg (r : Reg)
  | mem (w : Width) (m : MemRef)
  | deref (w : Width) (addr : Word)
  deriving DecidableEq, Repr

/-- The source of a binary instruction, or the operand of PUSH: any shape (30_encoding.md R90). The constant carries no width:
R87 and R93 do not check the width code of a binary instruction's C source, it is read at the target's width (R84), and
PUSH's is always 4 (log 12). -/
inductive Source
  | place (p : Place)
  | const (v : Word)
  deriving DecidableEq, Repr

/-- The constant operand of a one-operand instruction (INT, jumps, LOOP, CALL): it is read at its own width (30_encoding.md
R83, R84). -/
structure Imm where
  width : Width
  value : Word
  deriving DecidableEq, Repr

/-- The operand a descriptor and a value word denote, one constructor per shape (30_encoding.md R75, R76). -/
inductive Operand
  | reg (r : Reg)
  | mem (w : Width) (m : MemRef)
  | const (w : Width) (v : Word)
  | deref (w : Width) (addr : Word)
  deriving DecidableEq, Repr

/-- The four operand shapes: Register, Memory, Constant, DerefConstant (30_encoding.md R76). -/
inductive Shape
  | R
  | M
  | C
  | D
  deriving DecidableEq, Repr

/-- An instruction slot: three 32-bit words (30_encoding.md R72). -/
structure Slot where
  w0 : Word
  w1 : Word
  w2 : Word
  deriving DecidableEq, Repr

/-- One constructor per row of the opcode map, in its order (30_encoding.md R91). The argument types hold the allow-lists of
R90 but for the memory-to-memory tuples of the binary instructions and the widths of R87, which `Instr.WellFormed` checks. -/
inductive Instr
  | mov (dst : Place) (src : Source)
  | int (code : Imm)
  | hlt
  | pop (dst : Place)
  | push (src : Source)
  | call (target : Imm)
  | ret
  | enter
  | leave
  | loop (target : Imm)
  | loope (target : Imm)
  | loopne (target : Imm)
  | jmp (target : Imm)
  | jo (target : Imm)
  | jno (target : Imm)
  | js (target : Imm)
  | jns (target : Imm)
  | je (target : Imm)
  | jne (target : Imm)
  | jb (target : Imm)
  | jnb (target : Imm)
  | jbe (target : Imm)
  | ja (target : Imm)
  | jl (target : Imm)
  | jge (target : Imm)
  | jle (target : Imm)
  | jg (target : Imm)
  | jp (target : Imm)
  | jnp (target : Imm)
  | jcxz (target : Imm)
  | jecxz (target : Imm)
  | cmp (dst : Place) (src : Source)
  | add (dst : Place) (src : Source)
  | adc (dst : Place) (src : Source)
  | sub (dst : Place) (src : Source)
  | sbb (dst : Place) (src : Source)
  | idiv (divisor : Place)
  | imul (factor : Place)
  | dec (dst : Place)
  | inc (dst : Place)
  | and (dst : Place) (src : Source)
  | or (dst : Place) (src : Source)
  | xor (dst : Place) (src : Source)
  | std
  | cld
  | stc
  | clc
  deriving DecidableEq, Repr

end Sys2Proof
end

