-- ==== Sys2Proof/Machine/Views.lean ====
section
/-! DEFINITION. The view each register name stands for (10_state.md R23, R24). -/

namespace Sys2Proof

/-- A view: a window of `width` bytes from byte `offset` of bank `bank` (10_state.md R23). -/
structure View where
  bank : Fin 10
  offset : Nat
  width : Width
  deriving DecidableEq, Repr

/-- The table of named views (10_state.md R24). Banks 8 and 9 have none (R26). -/
def Reg.view : Reg → View
  | .eax => ⟨0, 0, .w4⟩ | .ecx => ⟨1, 0, .w4⟩ | .edx => ⟨2, 0, .w4⟩ | .ebx => ⟨3, 0, .w4⟩
  | .esp => ⟨4, 0, .w4⟩ | .ebp => ⟨5, 0, .w4⟩ | .esi => ⟨6, 0, .w4⟩ | .edi => ⟨7, 0, .w4⟩
  | .ax => ⟨0, 0, .w2⟩ | .cx => ⟨1, 0, .w2⟩ | .dx => ⟨2, 0, .w2⟩ | .bx => ⟨3, 0, .w2⟩
  | .sp => ⟨4, 0, .w2⟩ | .bp => ⟨5, 0, .w2⟩ | .si => ⟨6, 0, .w2⟩ | .di => ⟨7, 0, .w2⟩
  | .al => ⟨0, 0, .w1⟩ | .cl => ⟨1, 0, .w1⟩ | .dl => ⟨2, 0, .w1⟩ | .bl => ⟨3, 0, .w1⟩
  | .ah => ⟨0, 1, .w1⟩ | .ch => ⟨1, 1, .w1⟩ | .dh => ⟨2, 1, .w1⟩ | .bh => ⟨3, 1, .w1⟩

/-- The natural width of a named register (10_state.md R24). -/
def Reg.width (r : Reg) : Width := r.view.width

/-- A 32-bit register as a named register (30_encoding.md R79). -/
def Reg32.reg : Reg32 → Reg
  | .eax => .eax | .ecx => .ecx | .edx => .edx | .ebx => .ebx
  | .esp => .esp | .ebp => .ebp | .esi => .esi | .edi => .edi

/-- The multiplier itself (30_encoding.md R79). -/
def Scale.factor : Scale → Nat
  | .s1 => 1 | .s2 => 2 | .s4 => 4 | .s8 => 8

/-- `w(op)` (30_encoding.md R77): a register's natural width, or the width the operand carries. -/
def Place.width : Place → Width
  | .reg r => r.width
  | .mem w _ => w
  | .deref w _ => w

end Sys2Proof
end

