-- ==== Sys2Proof/Machine/Bits.lean ====
section
/-! DEFINITION. Byte splitting and joining, truncation and extension of values (00_scope.md R9, R10).

A w-byte value is held in a 32-bit word whose bits above 8·w are 0 (log 13). -/

namespace Sys2Proof

/-- The width in bits. -/
def Width.bits (w : Width) : Nat := 8 * w.bytes

/-- The `n` low bytes of a word, least significant first: `v[8k+7:8k]` for k = 0..n−1 (10_state.md R28, 20_memory.md R56). -/
def bytesOf : Nat → Word → List Byte
  | 0, _ => []
  | n + 1, v => v.setWidth 8 :: bytesOf n (v >>> 8)

/-- The value whose bytes are given, least significant first (10_state.md R27, 20_memory.md R55). -/
def wordOf : List Byte → Word
  | [] => 0
  | b :: bs => (wordOf bs <<< 8) ||| b.setWidth 32

/-- `trunc_{8w}`, widened back with zero bits: the w-byte value (00_scope.md R10, 30_encoding.md R84). -/
def truncTo (w : Width) (v : Word) : Word := (v.setWidth w.bits).setWidth 32

/-- `sext_32` of a w-byte value (00_scope.md R10). -/
def signExtendFrom (w : Width) (v : Word) : Word := (v.setWidth w.bits).signExtend 32

end Sys2Proof
end

