-- ==== Sys2Proof/Machine/State.lean ====
section
/-! DEFINITION. The state of the machine, as plain data, and the machine right after reset (10_state.md). -/

namespace Sys2Proof.Machine

/-- The runtime faults of 60_exceptions.md R221. Each is TAKEN by the step that raises it (R223, R231): the step ends in a next
state with the fault recorded as an `Error` event, so the machine never answers the host's outcome `fault` (log 3). That is
safe: nothing the spec gives is left out. -/
inductive Fault
  /-- Code 1. An access at a < 0 or a ≥ MEM_SIZE; raised by every memory read or write (R54). -/
  | memoryOutOfRange
  /-- Code 2. An access that begins inside memory and ends outside it; raised by every 2- or 4-byte access (R54). -/
  | memoryOverflow
  /-- Code 3. Raised by IDIV with a zero divisor (R154). -/
  | divideByZero
  /-- Code 4. Raised by INT with a code other than 1 or 2 (R211). -/
  | unknownInterrupt
  /-- Code 5. Raised by IDIV when the quotient is outside −2^31..2^31 − 1 (R154). -/
  | divideOverflow
  /-- Code 6. Raised by the step when the decoder refuses the slot (R88, R231). -/
  | illegalInstruction
  /-- Code 7. Raised by the step when ip ≥ 2^31 (R231). -/
  | badInstructionAddress
  /-- Code 8. Raised by any instruction that reads a register byte or flag that holds `undef` (10_state.md R31). -/
  | unwrittenRead
  deriving DecidableEq, Repr

/-- Refusals. Every instruction has its meaning, so none is answered. -/
inductive Refusal
  /-- An instruction whose meaning is not written yet; raised by `exec` only. Safe: the machine stops. -/
  | notModelled (mnemonic : String)
  deriving DecidableEq, Repr

/-- What a register byte or a flag holds: a value, or `undef`, no value (00_scope.md R11, 10_state.md R21, R31, R33; log 1). -/
inductive Content (α : Type)
  | undef
  | val (a : α)
  deriving DecidableEq, Repr

/-- One byte of a bank. -/
abbrev RegByte := Content Byte

/-- One flag. -/
abbrev Flag := Content Bool

/-- A bank: 4 bytes at offsets 0 to 3, offset 0 the least significant (10_state.md R21, R22). -/
structure Bank where
  b0 : RegByte
  b1 : RegByte
  b2 : RegByte
  b3 : RegByte
  deriving DecidableEq, Repr

/-- The register file: ten banks, 0 to 9 (10_state.md R21). Banks 8 and 9 have no view (R26; log 14). -/
structure RegFile where
  bank0 : Bank
  bank1 : Bank
  bank2 : Bank
  bank3 : Bank
  bank4 : Bank
  bank5 : Bank
  bank6 : Bank
  bank7 : Bank
  bank8 : Bank
  bank9 : Bank
  deriving DecidableEq, Repr

/-- The status word: six independent flags with no numeric image (10_state.md R33, R35). -/
structure Flags where
  CF : Flag
  ZF : Flag
  OF : Flag
  SF : Flag
  PF : Flag
  DF : Flag
  deriving DecidableEq, Repr

/-- The scheduler states (10_state.md R38). -/
inductive Sched
  | idle
  | running
  | paused
  | halted
  deriving DecidableEq, Repr

/-- The events of the host notification channel (10_state.md R40). -/
inductive Event
  | print (v : Word)
  | printString (bytes : List Byte)
  | error (kind : Fault) (ip : Word)
  | exit
  deriving DecidableEq, Repr

/-- One memory definition of the data segment: (address, size, value) (30_encoding.md R95, R102). The value is an integer; its
low 8·size bits are stored (R102, decision D45; log 24). -/
structure MemDef where
  addr : Nat
  size : Width
  value : Int
  deriving DecidableEq, Repr

/-- Data memory: the bytes that are not 0, by address, in the canonical form of `Memory.wf` (20_memory.md R51). -/
abbrev Memory := List Host.Cell

/-- The machine. -/
structure State where
  /-- the parameters, fixed for the life of the CPU (00_scope.md R7, 70_reset_and_hazards.md R263) -/
  cfg : Config
  /-- the register file (10_state.md R21) -/
  regs : RegFile
  /-- the instruction pointer, an index of slots (10_state.md R32) -/
  ip : Word
  /-- the status word (10_state.md R33) -/
  flags : Flags
  /-- data memory (20_memory.md R51) -/
  mem : Memory
  /-- the program store, N slots (10_state.md R43) -/
  program : List Slot
  /-- the program's memory definitions, which Process.start loads (70_reset_and_hazards.md R262) -/
  definitions : List MemDef
  /-- whether Process.start has succeeded once (70_reset_and_hazards.md R264) -/
  started : Bool
  /-- the scheduler state (10_state.md R38) -/
  sched : Sched
  /-- the breakpoint addresses BP, strictly rising (10_state.md R39; log 15) -/
  breakpoints : List Word
  /-- whether the current arrival at ip has already paused (10_state.md R39) -/
  visited : Bool
  /-- whether run() has a step scheduled (10_state.md R41) -/
  pendingTick : Bool
  /-- whether a runtime fault has been taken since reset (10_state.md R42) -/
  faultMark : Bool
  /-- the events emitted, oldest first (10_state.md R40; log 19) -/
  events : List Event
  deriving DecidableEq, Repr

/-- A bank no byte of which has been written (10_state.md R31). -/
def Bank.undef : Bank := ⟨.undef, .undef, .undef, .undef⟩

/-- A bank that holds a 32-bit value, offset 0 the least significant byte (10_state.md R22). -/
def Bank.ofWord (v : Word) : Bank :=
  ⟨.val (v.extractLsb' 0 8), .val (v.extractLsb' 8 8), .val (v.extractLsb' 16 8), .val (v.extractLsb' 24 8)⟩

/-- The register file after reset: ESP and EBP hold MEM_SIZE, every other byte is `undef` (10_state.md R44). -/
def RegFile.afterReset (memSize : Nat) : RegFile where
  bank0 := .undef
  bank1 := .undef
  bank2 := .undef
  bank3 := .undef
  bank4 := .ofWord (BitVec.ofNat 32 memSize)
  bank5 := .ofWord (BitVec.ofNat 32 memSize)
  bank6 := .undef
  bank7 := .undef
  bank8 := .undef
  bank9 := .undef

/-- The status word after reset (10_state.md R44). -/
def Flags.afterReset : Flags := ⟨.undef, .undef, .undef, .undef, .undef, .undef⟩

/-- A newly constructed CPU and its Process (70_reset_and_hazards.md R263, R264): what reset() gives in ip, the registers and the
flags; scheduler idle, no breakpoint, no pending tick, every memory byte 0. -/
def State.construct (cfg : Config) (program : List Slot) (definitions : List MemDef) : State where
  cfg := cfg
  regs := .afterReset cfg.memSize
  ip := 0
  flags := .afterReset
  mem := []
  program := program
  definitions := definitions
  started := false
  sched := .idle
  breakpoints := []
  visited := false
  pendingTick := false
  faultMark := false
  events := []

/-- The machine right after reset: a CPU constructed at the default parameters, with no program. DESIGN CHOICE: the program comes
from outside the machine (log 9), and MEM_SIZE, INT1_RENDER and TICK_MS, which the spec leaves open, are those of
`Config.default` (log 5, log 6, log 7). -/
def State.reset : State := State.construct Config.default [] []

end Sys2Proof.Machine
end

