-- ==== Sys2Proof/Machine/Ops.lean ====
section
/-! DEFINITION. The shared operations over registers, flags and memory, taking a fault, and ending an instruction. -/

namespace Sys2Proof.Machine

/-! ### Contents -/

/-- Reading a register byte or flag: `undef` raises UnwrittenRead (10_state.md R31). -/
def Content.read {α : Type} : Content α → Except Fault α
  | .undef => .error .unwrittenRead
  | .val a => .ok a

/-- Whether it holds a value. -/
def Content.isVal {α : Type} : Content α → Bool
  | .undef => false
  | .val _ => true

/-! ### The register file -/

/-- The byte of a bank at an offset (10_state.md R21). -/
def Bank.byte (b : Bank) (k : Fin 4) : RegByte :=
  match k with
  | 0 => b.b0
  | 1 => b.b1
  | 2 => b.b2
  | 3 => b.b3

/-- The bank with one byte written. -/
def Bank.setByte (b : Bank) (k : Fin 4) (x : RegByte) : Bank :=
  match k with
  | 0 => { b with b0 := x }
  | 1 => { b with b1 := x }
  | 2 => { b with b2 := x }
  | 3 => { b with b3 := x }

/-- The bank of a number (10_state.md R21). -/
def RegFile.bank (f : RegFile) (n : Fin 10) : Bank :=
  match n with
  | 0 => f.bank0
  | 1 => f.bank1
  | 2 => f.bank2
  | 3 => f.bank3
  | 4 => f.bank4
  | 5 => f.bank5
  | 6 => f.bank6
  | 7 => f.bank7
  | 8 => f.bank8
  | 9 => f.bank9

/-- The register file with one bank replaced. -/
def RegFile.setBank (f : RegFile) (n : Fin 10) (b : Bank) : RegFile :=
  match n with
  | 0 => { f with bank0 := b }
  | 1 => { f with bank1 := b }
  | 2 => { f with bank2 := b }
  | 3 => { f with bank3 := b }
  | 4 => { f with bank4 := b }
  | 5 => { f with bank5 := b }
  | 6 => { f with bank6 := b }
  | 7 => { f with bank7 := b }
  | 8 => { f with bank8 := b }
  | 9 => { f with bank9 := b }

/-- Byte `k` of bank `n`. -/
def RegFile.byte (f : RegFile) (n : Fin 10) (k : Fin 4) : RegByte := (f.bank n).byte k

/-- The register file with one byte of one bank written. -/
def RegFile.setByte (f : RegFile) (n : Fin 10) (k : Fin 4) (x : RegByte) : RegFile :=
  f.setBank n ((f.bank n).setByte k x)

/-- The byte offset `o` of a bank as an index. Every view has o + w ≤ 4 (10_state.md R23), so no offset is reduced. -/
def byteIndex (o : Nat) : Fin 4 := Fin.ofNat 4 o

/-- `count` bytes of bank `n` from offset `o` upward; an `undef` byte raises UnwrittenRead (10_state.md R27). -/
def RegFile.readBytes (f : RegFile) (n : Fin 10) : Nat → Nat → Except Fault (List Byte)
  | _, 0 => .ok []
  | o, count + 1 => do
    let b ← (f.byte n (byteIndex o)).read
    let bs ← RegFile.readBytes f n (o + 1) count
    return b :: bs

/-- Bytes written to bank `n` from offset `o` upward (10_state.md R28). -/
def RegFile.writeBytes (f : RegFile) (n : Fin 10) : Nat → List Byte → RegFile
  | _, [] => f
  | o, b :: bs => RegFile.writeBytes (f.setByte n (byteIndex o) (.val b)) n (o + 1) bs

/-- `x[r]` on a register file (10_state.md R27). -/
def RegFile.readView (f : RegFile) (v : View) : Except Fault Word := do
  let bs ← f.readBytes v.bank v.offset v.width.bytes
  return wordOf bs

/-- `x[r] <- v` on a register file: the low 8·w bits of the word are written (10_state.md R28). -/
def RegFile.writeView (f : RegFile) (v : View) (x : Word) : RegFile :=
  f.writeBytes v.bank v.offset (bytesOf v.width.bytes x)

/-- `x[r]` (10_state.md R27). -/
def State.readReg (s : State) (r : Reg) : Except Fault Word := s.regs.readView r.view

/-- `x[r] <- v` (10_state.md R28). -/
def State.writeReg (s : State) (r : Reg) (v : Word) : State := { s with regs := s.regs.writeView r.view v }

/-! ### Memory (20_memory.md R54 to R57) -/

/-- The bounds check of an access of `n` bytes at integer address `a` (R54). -/
def checkAccess (memSize : Nat) (a : Int) (n : Nat) : Except Fault Unit :=
  if a < 0 ∨ (memSize : Int) ≤ a then .error .memoryOutOfRange
  else if (memSize : Int) < a + n then .error .memoryOverflow
  else .ok ()

/-- The order of a value's bytes in memory, from the least significant first to ascending addresses (R55 to R57). Applying it
twice gives the bytes back. -/
def memoryOrder (e : Endian) (bs : List Byte) : List Byte :=
  match e with
  | .little => bs
  | .big => bs.reverse

/-- The value MemRead assembles from `n` bytes at an in-bounds address (R55). -/
def State.loadWord (s : State) (a n : Nat) : Word := wordOf (memoryOrder s.cfg.endian (s.mem.getBytes a n))

/-- The memory MemWrite leaves for an `n`-byte value at an in-bounds address (R56). -/
def State.storeWord (s : State) (a n : Nat) (v : Word) : State :=
  { s with mem := s.mem.setBytes a (memoryOrder s.cfg.endian (bytesOf n v)) }

/-- `MemRead(a, n)` (R55). -/
def State.memRead (s : State) (a : Int) (n : Nat) : Except Fault Word := do
  checkAccess s.cfg.memSize a n
  return s.loadWord a.toNat n

/-- `MemWrite(a, n, v)`: if the check faults, no byte is written (R56). -/
def State.memWrite (s : State) (a : Int) (n : Nat) (v : Word) : Except Fault State := do
  checkAccess s.cfg.memSize a n
  return s.storeWord a.toNat n v

/-! ### The stack (20_memory.md R61; 40_data_movement.md R112, R113) -/

/-- Push a 4-byte value: write at uint(ESP) − 4, then move ESP (R112, R196, R198). -/
def State.push (s : State) (v : Word) : Except Fault State := do
  let sp ← s.readReg .esp
  let a : Int := (sp.toNat : Int) - 4
  let s1 ← s.memWrite a 4 v
  return s1.writeReg .esp (BitVec.ofInt 32 a)

/-- Pop a 4-byte value at uint(ESP), then move ESP (R113, R197). -/
def State.pop (s : State) : Except Fault (Word × State) := do
  let sp ← s.readReg .esp
  let v ← s.memRead sp.toNat 4
  return (v, s.writeReg .esp (BitVec.ofNat 32 (sp.toNat + 4)))

/-! ### Events, the instruction pointer, and the end of an instruction -/

/-- `emit E` (10_state.md R40). -/
def State.emit (s : State) (e : Event) : State := { s with events := s.events ++ [e] }

/-- `next <- t`, and the step then sets ip (10_state.md R32, 60_exceptions.md R231). -/
def State.jumpTo (s : State) (t : Word) : State := { s with ip := t }

/-- `next <- ip + 1` (40_data_movement.md R110). -/
def State.advance (s : State) : State := s.jumpTo (s.ip + 1)

/-- Taking a fault (60_exceptions.md R223, R231): Error(kind, ip) is emitted, the scheduler pauses, the pending tick is cleared
and the fault mark is set. No register, flag or memory byte and not ip changes. There is no vector, no saved register and no
mode (R225), and no return from a fault beside it: the spec has no trap-return instruction (R226). -/
def State.takeFault (k : Fault) (s : State) : State :=
  { s.emit (.error k s.ip) with sched := .paused, pendingTick := false, faultMark := true }

/-- The outcome of an instruction run from `s`: its writes commit together, or its fault is taken in the state before it
(60_exceptions.md R223, R231; 00_scope.md R12). -/
def settle (s : State) : Except Fault State → Host.Outcome State Fault Refusal
  | .ok t => .next t
  | .error k => .next (s.takeFault k)

end Sys2Proof.Machine
end

