-- ==== Sys2Proof/Machine/Operands.lean ====
section
/-! DEFINITION. Reading and writing operands: effective addresses and every operand shape (20_memory.md R58, 30_encoding.md R83
to R86). -/

namespace Sys2Proof.Machine

/-- Where a place is, once its address is computed: a register view, or a byte address as an exact integer. An instruction
computes it once, from the state before it (30_encoding.md R85). -/
inductive Target
  | reg (r : Reg)
  | mem (a : Int)
  deriving DecidableEq, Repr

/-- The scaled index term of an effective address (20_memory.md R58). -/
def State.indexTerm (s : State) : Option (Reg32 × Scale) → Except Fault Int
  | none => .ok 0
  | some (i, sc) => do
    let v ← s.readReg i.reg
    return (v.toNat * sc.factor : Nat)

/-- `ea(op)` of a shape M operand: uint(base) + uint(index)·scale + sint(disp), an exact integer (20_memory.md R58). -/
def State.effectiveAddress (s : State) (m : MemRef) : Except Fault Int := do
  let b ← s.readReg m.base.reg
  let i ← s.indexTerm m.index
  return (b.toNat : Int) + i + m.disp.toInt

/-- The target of a place; the address of a dereferenced constant is unsigned (20_memory.md R58, 30_encoding.md R85, R86). -/
def State.resolve (s : State) : Place → Except Fault Target
  | .reg r => .ok (.reg r)
  | .mem _ m => do
    let a ← s.effectiveAddress m
    return .mem a
  | .deref _ addr => .ok (.mem addr.toNat)

/-- `read(op, w)` of a resolved place (30_encoding.md R84). The decoder guarantees that `w` is a register's own width (R87). -/
def State.readTarget (s : State) (w : Width) : Target → Except Fault Word
  | .reg r => s.readReg r
  | .mem a => s.memRead a w.bytes

/-- `write(op, w, v)` of a resolved place (30_encoding.md R85). -/
def State.writeTarget (s : State) (w : Width) (v : Word) : Target → Except Fault State
  | .reg r => .ok (s.writeReg r v)
  | .mem a => s.memWrite a w.bytes v

/-- `read(op, w)` of a place (30_encoding.md R84). -/
def State.readPlace (s : State) (w : Width) (p : Place) : Except Fault Word := do
  let t ← s.resolve p
  s.readTarget w t

/-- `read(op, w)` of a source; a constant is cut to its low 8·w bits (30_encoding.md R84). -/
def State.readSource (s : State) (w : Width) : Source → Except Fault Word
  | .place p => s.readPlace w p
  | .const v => .ok (truncTo w v)

/-- `read(op, w(op))` of a one-operand constant (30_encoding.md R83, R84). -/
def immValue (c : Imm) : Word := truncTo c.width c.value

end Sys2Proof.Machine
end

