-- ==== Sys2Proof/Machine/Flags.lean ====
section
/-! DEFINITION. The ALU with its flags, the 64-bit multiply and divide path, and the condition unit (41_alu.md R121 to R125,
42_multiply_divide.md R151, R153, 44_control_flow.md R171, R172). -/

namespace Sys2Proof.Machine

/-! ### The ALU -/

/-- The ALU's operations (41_alu.md R121). -/
inductive AluOp
  | add
  | adc
  | sub
  | sbb
  | and
  | or
  | xor
  deriving DecidableEq, Repr

/-- What the ALU gives: the result and the five flags it generates (41_alu.md R121). -/
structure AluResult (fw : Nat) where
  value : BitVec fw
  CF : Bool
  ZF : Bool
  SF : Bool
  OF : Bool
  PF : Bool
  deriving DecidableEq, Repr

/-- The carry-in as a number; ADC and SBB use it, the other operations do not (41_alu.md R121, R123). -/
def AluOp.carry : AluOp → Bool → Nat
  | .adc, c | .sbb, c => c.toNat
  | .add, _ | .sub, _ | .and, _ | .or, _ | .xor, _ => 0

/-- PF: the number of 1 bits in the low byte is even (41_alu.md R125). -/
def evenParity {n : Nat} (r : BitVec n) : Bool := (List.range 8).countP (fun i => r.getLsbD i) % 2 == 0

/-- Whether an integer is outside the range of a signed `fw`-bit number (41_alu.md R124). -/
def outsideSigned (fw : Nat) (x : Int) : Bool :=
  decide (x < -((2 ^ (fw - 1) : Nat) : Int)) || decide (((2 ^ (fw - 1) : Nat) : Int) ≤ x)

/-- The result with ZF, SF and PF taken from its bits (41_alu.md R125). -/
def aluResult {fw : Nat} (r : BitVec fw) (cf ov : Bool) : AluResult fw where
  value := r
  CF := cf
  ZF := r == 0
  SF := r.getLsbD (fw - 1)
  OF := ov
  PF := evenParity r

/-- ADD and ADC: carry out of the unsigned sum, overflow of the signed sum (41_alu.md R123, R124, R125). -/
def aluSum {fw : Nat} (a b : BitVec fw) (c : Nat) : AluResult fw :=
  aluResult (BitVec.ofNat fw (a.toNat + b.toNat + c)) (decide (2 ^ fw ≤ a.toNat + b.toNat + c))
    (outsideSigned fw (a.toInt + b.toInt + c))

/-- SUB and SBB: borrow of the unsigned difference, overflow of the signed difference (41_alu.md R123, R124, R125). -/
def aluDifference {fw : Nat} (a b : BitVec fw) (c : Nat) : AluResult fw :=
  aluResult (BitVec.ofInt fw ((a.toNat : Int) - b.toNat - c)) (decide ((a.toNat : Int) - b.toNat - c < 0))
    (outsideSigned fw (a.toInt - b.toInt - c))

/-- The ALU, a pure function (41_alu.md R121). AND, OR and XOR give CF = OF = 0 (R123, R124). -/
def alu {fw : Nat} (op : AluOp) (a b : BitVec fw) (cin : Bool) : AluResult fw :=
  match op with
  | .add | .adc => aluSum a b (op.carry cin)
  | .sub | .sbb => aluDifference a b (op.carry cin)
  | .and => aluResult (a &&& b) false false
  | .or => aluResult (a ||| b) false false
  | .xor => aluResult (a ^^^ b) false false

/-- Widening a w-byte operand to 32 bits under NARROW_EXT (41_alu.md R122, 42_multiply_divide.md R152). -/
def widenTo32 (e : NarrowExt) (w : Width) (v : Word) : Word :=
  match e with
  | .zero => truncTo w v
  | .sign => signExtendFrom w v

/-- A `fw`-bit result held in a word, the flags unchanged. -/
def AluResult.toWord {fw : Nat} (r : AluResult fw) : AluResult 32 where
  value := r.value.setWidth 32
  CF := r.CF
  ZF := r.ZF
  SF := r.SF
  OF := r.OF
  PF := r.PF

/-- The ALU on two w-byte operands: at 32 bits on the widened operands when FLAG_WIDTH = fixed32, at 8·w bits when FLAG_WIDTH =
operand (41_alu.md R121, R122). -/
def aluAt (cfg : Config) (w : Width) (op : AluOp) (t s : Word) (cin : Bool) : AluResult 32 :=
  match cfg.flagWidth with
  | .fixed32 => alu op (widenTo32 cfg.narrowExt w t) (widenTo32 cfg.narrowExt w s) cin
  | .operand => (alu op (t.setWidth w.bits) (s.setWidth w.bits) cin).toWord

/-! ### Writing the flags (10_state.md R34) -/

/-- CF, ZF, SF, OF and PF from the ALU; DF is never written (41_alu.md R126). -/
def Flags.fromAlu (f : Flags) (r : AluResult 32) : Flags :=
  { f with CF := .val r.CF, ZF := .val r.ZF, SF := .val r.SF, OF := .val r.OF, PF := .val r.PF }

/-- INC and DEC: ZF, SF, OF and PF, and CF when INCDEC_CF = computed (41_alu.md R135, R136). -/
def Flags.fromIncDec (f : Flags) (mode : IncDecCF) (r : AluResult 32) : Flags :=
  match mode with
  | .computed => f.fromAlu r
  | .preserved => { f with ZF := .val r.ZF, SF := .val r.SF, OF := .val r.OF, PF := .val r.PF }

/-- IMUL and IDIV: CF, OF, SF, ZF and PF become `undef`, DF is unchanged (42_multiply_divide.md R152, R154; log 2). -/
def Flags.afterMulDiv (f : Flags) : Flags :=
  { f with CF := .undef, ZF := .undef, SF := .undef, OF := .undef, PF := .undef }

/-! ### The 64-bit path -/

/-- `mul64(a, b)` = trunc_64(sint(a) × sint(b)) (42_multiply_divide.md R151). -/
def mul64 (a b : Word) : DWord := BitVec.ofInt 64 (a.toInt * b.toInt)

/-- What the divide path answers (42_multiply_divide.md R153). -/
inductive DivResult
  | divZero
  | divOverflow
  | ok (q r : Word)
  deriving DecidableEq, Repr

/-- `div64(n, d)`: the signed quotient truncated toward zero and the remainder (42_multiply_divide.md R153). -/
def div64 (n : DWord) (d : Word) : DivResult :=
  if d.toNat = 0 then .divZero
  else
    let q := n.toInt.tdiv d.toInt
    let r := n.toInt - q * d.toInt
    if q < -(2 ^ 31) ∨ 2 ^ 31 - 1 < q then .divOverflow else .ok (BitVec.ofInt 32 q) (BitVec.ofInt 32 r)

/-! ### The condition unit -/

/-- The flag predicates of 44_control_flow.md R172. -/
inductive Cond
  | o | no | s | ns | e | ne | b | nb | be | a | l | ge | le | g | p | np
  deriving DecidableEq, Repr

/-- `cond(p)` on the status word: every flag the predicate lists is read, even when another one decides (44_control_flow.md
R171, R172). -/
def Flags.cond (f : Flags) : Cond → Except Fault Bool
  | .o => do return (← f.OF.read)
  | .no => do return !(← f.OF.read)
  | .s => do return (← f.SF.read)
  | .ns => do return !(← f.SF.read)
  | .e => do return (← f.ZF.read)
  | .ne => do return !(← f.ZF.read)
  | .b => do return (← f.CF.read)
  | .nb => do return !(← f.CF.read)
  | .be => do
    let c ← f.CF.read
    let z ← f.ZF.read
    return c || z
  | .a => do
    let c ← f.CF.read
    let z ← f.ZF.read
    return !c && !z
  | .l => do
    let s ← f.SF.read
    let o ← f.OF.read
    return s != o
  | .ge => do
    let s ← f.SF.read
    let o ← f.OF.read
    return s == o
  | .le => do
    let z ← f.ZF.read
    let s ← f.SF.read
    let o ← f.OF.read
    return z || (s != o)
  | .g => do
    let z ← f.ZF.read
    let s ← f.SF.read
    let o ← f.OF.read
    return !z && (s == o)
  | .p => do return (← f.PF.read)
  | .np => do return !(← f.PF.read)

/-- The predicate CXZ: ECX = 0, or CX = 0 when CXZ_WIDTH = 16 (44_control_flow.md R172, R191). -/
def State.condCxz (s : State) : Except Fault Bool := do
  let c ← s.readReg (match s.cfg.cxzWidth with | .bits32 => .ecx | .bits16 => .cx)
  return c == 0

/-- The predicate ECXZ: ECX = 0 (44_control_flow.md R172, R192). -/
def State.condEcxz (s : State) : Except Fault Bool := do
  let c ← s.readReg .ecx
  return c == 0

end Sys2Proof.Machine
end

