-- ==== Sys2Proof/Machine/Arithmetic.lean ====
section
/-! DEFINITION. The arithmetic and logic instructions (41_alu.md). -/

namespace Sys2Proof.Machine

/-- The carry the binary template gives the ALU: F.CF for ADC and SBB, which may raise UnwrittenRead, else 0 (R126). -/
def State.carryIn (s : State) : AluOp → Except Fault Bool
  | .adc | .sbb => s.flags.CF.read
  | .add | .sub | .and | .or | .xor => .ok false

/-- The part of the binary template all eight instructions share: the target's place and the ALU's result (R126). -/
def State.binaryAlu (s : State) (op : AluOp) (dst : Place) (src : Source) : Except Fault (Target × AluResult 32) := do
  let t ← s.resolve dst
  let a ← s.readTarget dst.width t
  let b ← s.readSource dst.width src
  let c ← s.carryIn op
  return (t, aluAt s.cfg dst.width op a b c)

/-- The binary template with write-back; the write takes the low 8·w bits of the result (R126, R137). -/
def State.binaryWrite (s : State) (op : AluOp) (dst : Place) (src : Source) : Except Fault State := do
  let (t, r) ← s.binaryAlu op dst src
  let s1 ← s.writeTarget dst.width r.value t
  return { s1 with flags := s1.flags.fromAlu r }.advance

/-- ADD (R127). -/
def execAdd (dst : Place) (src : Source) (s : State) : Host.Outcome State Fault Refusal :=
  settle s (s.binaryWrite .add dst src)

/-- ADC (R128). -/
def execAdc (dst : Place) (src : Source) (s : State) : Host.Outcome State Fault Refusal :=
  settle s (s.binaryWrite .adc dst src)

/-- SUB (R129). -/
def execSub (dst : Place) (src : Source) (s : State) : Host.Outcome State Fault Refusal :=
  settle s (s.binaryWrite .sub dst src)

/-- SBB (R130). -/
def execSbb (dst : Place) (src : Source) (s : State) : Host.Outcome State Fault Refusal :=
  settle s (s.binaryWrite .sbb dst src)

/-- CMP: the flags of SUB, and no write-back (R131). -/
def execCmp (dst : Place) (src : Source) (s : State) : Host.Outcome State Fault Refusal :=
  settle s do
    let (_, r) ← s.binaryAlu .sub dst src
    return { s with flags := s.flags.fromAlu r }.advance

/-- AND (R132). -/
def execAnd (dst : Place) (src : Source) (s : State) : Host.Outcome State Fault Refusal :=
  settle s (s.binaryWrite .and dst src)

/-- OR (R133). -/
def execOr (dst : Place) (src : Source) (s : State) : Host.Outcome State Fault Refusal :=
  settle s (s.binaryWrite .or dst src)

/-- XOR (R134). -/
def execXor (dst : Place) (src : Source) (s : State) : Host.Outcome State Fault Refusal :=
  settle s (s.binaryWrite .xor dst src)

/-- The shared body of INC and DEC: the ALU with B = 1 (R135, R136). -/
def State.stepByOne (s : State) (op : AluOp) (dst : Place) : Except Fault State := do
  let t ← s.resolve dst
  let a ← s.readTarget dst.width t
  let r := aluAt s.cfg dst.width op a 1 false
  let s1 ← s.writeTarget dst.width r.value t
  return { s1 with flags := s1.flags.fromIncDec s.cfg.incDecCF r }.advance

/-- INC (R135). -/
def execInc (dst : Place) (s : State) : Host.Outcome State Fault Refusal := settle s (s.stepByOne .add dst)

/-- DEC (R136). -/
def execDec (dst : Place) (s : State) : Host.Outcome State Fault Refusal := settle s (s.stepByOne .sub dst)

end Sys2Proof.Machine
end

