-- ==== Sys2Proof/Machine/ControlFlow.lean ====
section
/-! DEFINITION. The control-transfer instructions (44_control_flow.md). None writes a flag; a target is not checked (R173). -/

namespace Sys2Proof.Machine

/-- Taken: `next <- t`; not taken: `next <- ip + 1` (R173). -/
def State.branch (s : State) (taken : Bool) (t : Word) : State := if taken then s.jumpTo t else s.advance

/-- A conditional jump on the status word (R171, R173). -/
def State.jumpIf (s : State) (cond : Cond) (target : Imm) : Except Fault State := do
  let taken ← s.flags.cond cond
  return s.branch taken (immValue target)

/-- JMP (R174). -/
def execJmp (target : Imm) (s : State) : Host.Outcome State Fault Refusal := settle s (.ok (s.jumpTo (immValue target)))

/-- JO (R175). -/
def execJo (target : Imm) (s : State) : Host.Outcome State Fault Refusal := settle s (s.jumpIf .o target)

/-- JNO (R176). -/
def execJno (target : Imm) (s : State) : Host.Outcome State Fault Refusal := settle s (s.jumpIf .no target)

/-- JS (R177). -/
def execJs (target : Imm) (s : State) : Host.Outcome State Fault Refusal := settle s (s.jumpIf .s target)

/-- JNS (R178). -/
def execJns (target : Imm) (s : State) : Host.Outcome State Fault Refusal := settle s (s.jumpIf .ns target)

/-- JE (R179). -/
def execJe (target : Imm) (s : State) : Host.Outcome State Fault Refusal := settle s (s.jumpIf .e target)

/-- JNE (R180). -/
def execJne (target : Imm) (s : State) : Host.Outcome State Fault Refusal := settle s (s.jumpIf .ne target)

/-- JB (R181). -/
def execJb (target : Imm) (s : State) : Host.Outcome State Fault Refusal := settle s (s.jumpIf .b target)

/-- JNB (R182). -/
def execJnb (target : Imm) (s : State) : Host.Outcome State Fault Refusal := settle s (s.jumpIf .nb target)

/-- JBE (R183). -/
def execJbe (target : Imm) (s : State) : Host.Outcome State Fault Refusal := settle s (s.jumpIf .be target)

/-- JA (R184). -/
def execJa (target : Imm) (s : State) : Host.Outcome State Fault Refusal := settle s (s.jumpIf .a target)

/-- JL (R185). -/
def execJl (target : Imm) (s : State) : Host.Outcome State Fault Refusal := settle s (s.jumpIf .l target)

/-- JGE (R186). -/
def execJge (target : Imm) (s : State) : Host.Outcome State Fault Refusal := settle s (s.jumpIf .ge target)

/-- JLE (R187). -/
def execJle (target : Imm) (s : State) : Host.Outcome State Fault Refusal := settle s (s.jumpIf .le target)

/-- JG (R188). -/
def execJg (target : Imm) (s : State) : Host.Outcome State Fault Refusal := settle s (s.jumpIf .g target)

/-- JP (R189). -/
def execJp (target : Imm) (s : State) : Host.Outcome State Fault Refusal := settle s (s.jumpIf .p target)

/-- JNP (R190). -/
def execJnp (target : Imm) (s : State) : Host.Outcome State Fault Refusal := settle s (s.jumpIf .np target)

/-- JCXZ (R191). -/
def execJcxz (target : Imm) (s : State) : Host.Outcome State Fault Refusal :=
  settle s do
    let taken ← s.condCxz
    return s.branch taken (immValue target)

/-- JECXZ (R192). -/
def execJecxz (target : Imm) (s : State) : Host.Outcome State Fault Refusal :=
  settle s do
    let taken ← s.condEcxz
    return s.branch taken (immValue target)

/-- ECX − 1 mod 2^32 written to ECX, then the branch while the new value is not 0 and the gate holds (R193 to R195). -/
def State.loopWhile (s : State) (gate : Bool) (target : Imm) : Except Fault State := do
  let v ← s.readReg .ecx
  let c := BitVec.ofInt 32 ((v.toNat : Int) - 1)
  return (s.writeReg .ecx c).branch (c != 0 && gate) (immValue target)

/-- LOOP (R193). -/
def execLoop (target : Imm) (s : State) : Host.Outcome State Fault Refusal := settle s (s.loopWhile true target)

/-- LOOPE: ZF is read first (R194). -/
def execLoope (target : Imm) (s : State) : Host.Outcome State Fault Refusal :=
  settle s do
    let z ← s.flags.ZF.read
    s.loopWhile z target

/-- LOOPNE: ZF is read first (R195). -/
def execLoopne (target : Imm) (s : State) : Host.Outcome State Fault Refusal :=
  settle s do
    let z ← s.flags.ZF.read
    s.loopWhile (!z) target

/-- CALL: push ip + 1 and jump (R196). -/
def execCall (target : Imm) (s : State) : Host.Outcome State Fault Refusal :=
  settle s do
    let s1 ← s.push (s.ip + 1)
    return s1.jumpTo (immValue target)

/-- RET: pop the return address and jump to it (R197). -/
def execRet (s : State) : Host.Outcome State Fault Refusal :=
  settle s do
    let (v, s1) ← s.pop
    return s1.jumpTo v

/-- ENTER: push EBP and copy the new ESP into it (R198). -/
def execEnter (s : State) : Host.Outcome State Fault Refusal :=
  settle s do
    let bp ← s.readReg .ebp
    let sp ← s.readReg .esp
    let a : Int := (sp.toNat : Int) - 4
    let s1 ← s.memWrite a 4 bp
    return ((s1.writeReg .esp (BitVec.ofInt 32 a)).writeReg .ebp (BitVec.ofInt 32 a)).advance

/-- LEAVE: the saved EBP is read at EBP (LEAVE_MODE = x86) or at ESP (pop_only); ESP moves above it (R199). -/
def execLeave (s : State) : Host.Outcome State Fault Refusal :=
  settle s do
    let frame ← s.readReg (match s.cfg.leaveMode with | .x86 => .ebp | .popOnly => .esp)
    let v ← s.memRead frame.toNat 4
    return ((s.writeReg .esp (BitVec.ofNat 32 (frame.toNat + 4))).writeReg .ebp v).advance

end Sys2Proof.Machine
end

