-- ==== Sys2Proof/Machine/DataMovement.lean ====
section
/-! DEFINITION. MOV, PUSH and POP (40_data_movement.md). None writes a flag. -/

namespace Sys2Proof.Machine

/-- MOV: the target is written and never read (R111). -/
def execMov (dst : Place) (src : Source) (s : State) : Host.Outcome State Fault Refusal :=
  settle s do
    let t ← s.resolve dst
    let v ← s.readSource dst.width src
    let s1 ← s.writeTarget dst.width v t
    return s1.advance

/-- PUSH: the operand is read at width 4 before ESP changes (R112). -/
def execPush (src : Source) (s : State) : Host.Outcome State Fault Refusal :=
  settle s do
    let v ← s.readSource .w4 src
    let s1 ← s.push v
    return s1.advance

/-- POP: the target's address comes from the state before the pop, and the write of the target comes after that of ESP and wins
(R113). -/
def execPop (dst : Place) (s : State) : Host.Outcome State Fault Refusal :=
  settle s do
    let sp ← s.readReg .esp
    let t ← s.resolve dst
    let v ← s.memRead sp.toNat 4
    let s1 := s.writeReg .esp (BitVec.ofNat 32 (sp.toNat + 4))
    let s2 ← s1.writeTarget .w4 v t
    return s2.advance

end Sys2Proof.Machine
end

