-- ==== Sys2Proof/Machine/FlagControl.lean ====
section
/-! DEFINITION. STD, CLD, STC and CLC (43_flag_control.md). Each writes one flag and reads nothing. -/

namespace Sys2Proof.Machine

/-- DF written (R161, R162). -/
def State.setDF (s : State) (b : Bool) : State := { s with flags := { s.flags with DF := .val b } }

/-- CF written (R163, R164). -/
def State.setCF (s : State) (b : Bool) : State := { s with flags := { s.flags with CF := .val b } }

/-- STD (R161). -/
def execStd (s : State) : Host.Outcome State Fault Refusal := settle s (.ok (s.setDF true).advance)

/-- CLD (R162). -/
def execCld (s : State) : Host.Outcome State Fault Refusal := settle s (.ok (s.setDF false).advance)

/-- STC (R163). -/
def execStc (s : State) : Host.Outcome State Fault Refusal := settle s (.ok (s.setCF true).advance)

/-- CLC (R164). -/
def execClc (s : State) : Host.Outcome State Fault Refusal := settle s (.ok (s.setCF false).advance)

end Sys2Proof.Machine
end

