-- ==== Sys2Proof/Machine/MultiplyDivide.lean ====
section
/-! DEFINITION. IMUL and IDIV (42_multiply_divide.md). -/

namespace Sys2Proof.Machine

/-- The operand of IMUL or IDIV, widened to 32 bits by NARROW_EXT (R152, R154). -/
def State.readWidened (s : State) (p : Place) : Except Fault Word := do
  let v ← s.readPlace p.width p
  return widenTo32 s.cfg.narrowExt p.width v

/-- EDX:EAX and the flags after a multiply or a divide that completes (R152, R154). -/
def State.writePair (s : State) (lo hi : Word) : State :=
  { (s.writeReg .eax lo).writeReg .edx hi with flags := s.flags.afterMulDiv }

/-- IMUL: EDX:EAX ← EAX × operand, signed (R152). -/
def execImul (factor : Place) (s : State) : Host.Outcome State Fault Refusal :=
  settle s do
    let b ← s.readWidened factor
    let a ← s.readReg .eax
    let p := mul64 a b
    return (s.writePair (p.extractLsb' 0 32) (p.extractLsb' 32 32)).advance

/-- IDIV: EDX:EAX divided by the operand, quotient to EAX, remainder to EDX (R154). -/
def execIdiv (divisor : Place) (s : State) : Host.Outcome State Fault Refusal :=
  settle s do
    let d ← s.readWidened divisor
    let lo ← s.readReg .eax
    let hi ← s.readReg .edx
    match div64 (hi ++ lo) d with
    | .divZero => .error .divideByZero
    | .divOverflow => .error .divideOverflow
    | .ok q r => return (s.writePair q r).advance

end Sys2Proof.Machine
end

