-- ==== Sys2Proof/Machine/System.lean ====
section
/-! DEFINITION. INT and HLT (45_system.md). -/

namespace Sys2Proof.Machine

/-- The scan of INT 2 from address `a`: 1-byte reads up to the first 0, which is not part of the string (R211). The first argument
bounds the scan; with MEM_SIZE + 1 − a it is never used up, because the read at MEM_SIZE faults (log 21). -/
def State.scanString (s : State) : Nat → Nat → Except Fault (List Byte)
  | 0, _ => .error .memoryOutOfRange
  | fuel + 1, a => do
    let b ← s.memRead a 1
    if b = 0 then return []
    else
      let rest ← s.scanString fuel (a + 1)
      return b.setWidth 8 :: rest

/-- INT: code 1 prints EAX, code 2 prints the string at EAX, any other code faults with EAX unread (R211). The host runs its
handler inside the step, and the step goes on at ip + 1. -/
def execInt (code : Imm) (s : State) : Host.Outcome State Fault Refusal :=
  settle s (
    if immValue code = 1 then do
      let v ← s.readReg .eax
      return (s.emit (.print v)).advance
    else if immValue code = 2 then do
      let a ← s.readReg .eax
      let bytes ← s.scanString (s.cfg.memSize + 1 - a.toNat) a.toNat
      return (s.emit (.printString bytes)).advance
    else .error .unknownInterrupt)

/-- HLT: the scheduler halts, the pending tick is cleared, Exit is emitted, and ip moves past the HLT (R212). -/
def execHlt (s : State) : Host.Outcome State Fault Refusal :=
  settle s (.ok { s.emit .exit with sched := .halted, pendingTick := false }.advance)

end Sys2Proof.Machine
end

