-- ==== Sys2Proof/Machine/Dispatch.lean ====
section
/-! DEFINITION. The meaning of each instruction, one arm per constructor. -/

namespace Sys2Proof.Machine

/-- The instruction's pseudocode run from a state, its commit and its fault (60_exceptions.md R231, step 4). -/
def exec (i : Instr) (s : State) : Host.Outcome State Fault Refusal :=
  match i with
  | .mov dst src => Sys2Proof.Machine.execMov dst src s
  | .int code => Sys2Proof.Machine.execInt code s
  | .hlt => Sys2Proof.Machine.execHlt s
  | .pop dst => Sys2Proof.Machine.execPop dst s
  | .push src => Sys2Proof.Machine.execPush src s
  | .call target => Sys2Proof.Machine.execCall target s
  | .ret => Sys2Proof.Machine.execRet s
  | .enter => Sys2Proof.Machine.execEnter s
  | .leave => Sys2Proof.Machine.execLeave s
  | .loop target => Sys2Proof.Machine.execLoop target s
  | .loope target => Sys2Proof.Machine.execLoope target s
  | .loopne target => Sys2Proof.Machine.execLoopne target s
  | .jmp target => Sys2Proof.Machine.execJmp target s
  | .jo target => Sys2Proof.Machine.execJo target s
  | .jno target => Sys2Proof.Machine.execJno target s
  | .js target => Sys2Proof.Machine.execJs target s
  | .jns target => Sys2Proof.Machine.execJns target s
  | .je target => Sys2Proof.Machine.execJe target s
  | .jne target => Sys2Proof.Machine.execJne target s
  | .jb target => Sys2Proof.Machine.execJb target s
  | .jnb target => Sys2Proof.Machine.execJnb target s
  | .jbe target => Sys2Proof.Machine.execJbe target s
  | .ja target => Sys2Proof.Machine.execJa target s
  | .jl target => Sys2Proof.Machine.execJl target s
  | .jge target => Sys2Proof.Machine.execJge target s
  | .jle target => Sys2Proof.Machine.execJle target s
  | .jg target => Sys2Proof.Machine.execJg target s
  | .jp target => Sys2Proof.Machine.execJp target s
  | .jnp target => Sys2Proof.Machine.execJnp target s
  | .jcxz target => Sys2Proof.Machine.execJcxz target s
  | .jecxz target => Sys2Proof.Machine.execJecxz target s
  | .cmp dst src => Sys2Proof.Machine.execCmp dst src s
  | .add dst src => Sys2Proof.Machine.execAdd dst src s
  | .adc dst src => Sys2Proof.Machine.execAdc dst src s
  | .sub dst src => Sys2Proof.Machine.execSub dst src s
  | .sbb dst src => Sys2Proof.Machine.execSbb dst src s
  | .idiv divisor => Sys2Proof.Machine.execIdiv divisor s
  | .imul factor => Sys2Proof.Machine.execImul factor s
  | .dec dst => Sys2Proof.Machine.execDec dst s
  | .inc dst => Sys2Proof.Machine.execInc dst s
  | .and dst src => Sys2Proof.Machine.execAnd dst src s
  | .or dst src => Sys2Proof.Machine.execOr dst src s
  | .xor dst src => Sys2Proof.Machine.execXor dst src s
  | .std => Sys2Proof.Machine.execStd s
  | .cld => Sys2Proof.Machine.execCld s
  | .stc => Sys2Proof.Machine.execStc s
  | .clc => Sys2Proof.Machine.execClc s

end Sys2Proof.Machine
end

