-- ==== Sys2Proof/WellFormed.lean ====
section
/-! DEFINITION. Which instruction terms the decoder can give: the allow-lists of 30_encoding.md R90 that the argument types do
not already hold, and the width rules of R87. -/

namespace Sys2Proof

/-- Whether the operand is of shape R. -/
def Place.isReg : Place → Bool
  | .reg _ => true
  | .mem _ _ => false
  | .deref _ _ => false

/-- A binary instruction's tuple is in the allow-list: (R,R) (R,M) (R,C) (R,D) (M,R) (M,C) (D,R) (D,C), so at least one of the
two is not a memory operand (30_encoding.md R90). -/
def binaryTupleAllowed (dst : Place) : Source → Bool
  | .place p => dst.isReg || p.isReg
  | .const _ => true

/-- A binary instruction's source of shape R, M or D has the target's width (30_encoding.md R87). -/
def binaryWidthsAgree (dst : Place) : Source → Bool
  | .place p => p.width == dst.width
  | .const _ => true

/-- Both checks of a binary instruction. -/
def binaryWf (dst : Place) (src : Source) : Bool :=
  binaryTupleAllowed dst src && binaryWidthsAgree dst src

/-- PUSH and POP take a 4-byte operand (30_encoding.md R87). -/
def stackWidthOk : Source → Bool
  | .place p => p.width == .w4
  | .const _ => true

/-- The instruction is one that a legal slot decodes to (30_encoding.md R87, R90). -/
def Instr.WellFormed : Instr → Bool
  | .mov d s | .add d s | .adc d s | .sub d s | .sbb d s | .cmp d s | .and d s | .or d s | .xor d s => binaryWf d s
  | .push s => stackWidthOk s
  | .pop d => stackWidthOk (.place d)
  | .imul _ | .idiv _ | .inc _ | .dec _ => true
  | .int _ | .call _ | .loop _ | .loope _ | .loopne _ | .jmp _ => true
  | .jo _ | .jno _ | .js _ | .jns _ | .je _ | .jne _ | .jb _ | .jnb _ | .jbe _ | .ja _ => true
  | .jl _ | .jge _ | .jle _ | .jg _ | .jp _ | .jnp _ | .jcxz _ | .jecxz _ => true
  | .hlt | .ret | .enter | .leave | .std | .cld | .stc | .clc => true

end Sys2Proof
end

