-- ==== Sys2Proof/Decode.lean ====
section
/-! DEFINITION. The decoder, a total function from a slot to an instruction or a named reason to refuse it (30_encoding.md R88),
and the encoder after it, both written from R73, R75, R77 to R80, R90 and R91. -/

namespace Sys2Proof

/-- Why a slot is illegal (30_encoding.md R89), in the order of the checks of R88. -/
inductive IllegalSlot
  /-- opcode 0 or 48..63 (check 1) -/
  | unassignedOpcode
  /-- a nonzero descriptor or value word in an unused operand position (check 2) -/
  | unusedOperandNonzero
  /-- width code 3 (check 3) -/
  | badWidthCode
  /-- shape R: register number 24..31, bits 12:9, the value word or the width code (check 3) -/
  | badRegister
  /-- shape M without an index and with nonzero bits 12:8 (check 3) -/
  | badMemoryIndex
  /-- shape C or D with nonzero bits 12:4 (check 3) -/
  | badConstantBits
  /-- a shape tuple outside the allow-list (check 4) -/
  | tupleNotAllowed
  /-- a width rule of R87 (check 5) -/
  | widthRule
  deriving DecidableEq, Repr

/-! ### Fields of a slot (R73, R75) -/

/-- `W0[5:0]`. -/
def Slot.opc (s : Slot) : BitVec 6 := s.w0.extractLsb' 0 6
/-- `W0[18:6]`. -/
def Slot.d1 (s : Slot) : BitVec 13 := s.w0.extractLsb' 6 13
/-- `W0[31:19]`. -/
def Slot.d2 (s : Slot) : BitVec 13 := s.w0.extractLsb' 19 13

/-- Bits 1:0 of a descriptor: the shape code. -/
def shapeField (d : BitVec 13) : BitVec 2 := d.extractLsb' 0 2
/-- Bits 3:2 of a descriptor: the width code. -/
def widthField (d : BitVec 13) : BitVec 2 := d.extractLsb' 2 2
/-- Bits 12:4 of a descriptor. -/
def shapeBits (d : BitVec 13) : BitVec 9 := d.extractLsb' 4 9
/-- Bits 8:4 of a shape R descriptor: the register number. -/
def registerField (d : BitVec 13) : BitVec 5 := d.extractLsb' 4 5
/-- Bits 12:9 of a shape R descriptor, which must be 0. -/
def registerSpare (d : BitVec 13) : BitVec 4 := d.extractLsb' 9 4
/-- Bits 6:4 of a shape M descriptor: the base register. -/
def baseField (d : BitVec 13) : BitVec 3 := d.extractLsb' 4 3
/-- Bit 7 of a shape M descriptor: whether there is an index. -/
def hasIndexField (d : BitVec 13) : BitVec 1 := d.extractLsb' 7 1
/-- Bits 10:8 of a shape M descriptor: the index register. -/
def indexField (d : BitVec 13) : BitVec 3 := d.extractLsb' 8 3
/-- Bits 12:11 of a shape M descriptor: the scale is 2 to this power. -/
def scaleField (d : BitVec 13) : BitVec 2 := d.extractLsb' 11 2
/-- Bits 12:8 of a shape M descriptor. -/
def indexBits (d : BitVec 13) : BitVec 5 := d.extractLsb' 8 5

/-- The width a width code means; 3 is illegal (R77). -/
def widthOfCode (c : BitVec 2) : Option Width :=
  match c.toNat with
  | 0 => some .w1
  | 1 => some .w2
  | 2 => some .w4
  | _ => none

/-- The 4-byte registers in the order of their numbers 0 to 7 (10_state.md R24). -/
def wideRegs : List Reg := [.eax, .ecx, .edx, .ebx, .esp, .ebp, .esi, .edi]
/-- The 2-byte registers, numbers 8 to 15 (10_state.md R24). -/
def halfRegs : List Reg := [.ax, .cx, .dx, .bx, .sp, .bp, .si, .di]
/-- The 1-byte registers, numbers 16 to 23 (10_state.md R24). -/
def byteRegs : List Reg := [.al, .cl, .dl, .bl, .ah, .ch, .dh, .bh]

/-- The named registers in the order of their numbers (10_state.md R24). -/
def regsInOrder : List Reg := wideRegs ++ halfRegs ++ byteRegs

/-- The register a number names; 24..31 name none (10_state.md R24, R25). -/
def regOfNumber (n : BitVec 5) : Option Reg := regsInOrder[n.toNat]?

/-- The 32-bit register of a 3-bit number (R79). -/
def reg32OfNumber (n : BitVec 3) : Reg32 :=
  match n.toNat with
  | 0 => .eax | 1 => .ecx | 2 => .edx | 3 => .ebx
  | 4 => .esp | 5 => .ebp | 6 => .esi | _ => .edi

/-- The scale of a 2-bit code: 2 to its power (R75, R79). -/
def scaleOfCode (n : BitVec 2) : Scale :=
  match n.toNat with
  | 0 => .s1 | 1 => .s2 | 2 => .s4 | _ => .s8

/-! ### Operands -/

/-- A shape R operand (R78). -/
def decodeRegister (d : BitVec 13) (v : Word) (w : Width) : Except IllegalSlot Operand :=
  match regOfNumber (registerField d) with
  | none => .error .badRegister
  | some r =>
    if registerSpare d = 0 ∧ v = 0 ∧ r.width = w then .ok (.reg r) else .error .badRegister

/-- A shape M operand (R79). -/
def decodeMemory (d : BitVec 13) (v : Word) (w : Width) : Except IllegalSlot Operand :=
  if hasIndexField d = 1 then
    .ok (.mem w ⟨reg32OfNumber (baseField d), some (reg32OfNumber (indexField d), scaleOfCode (scaleField d)), v⟩)
  else if indexBits d = 0 then .ok (.mem w ⟨reg32OfNumber (baseField d), none, v⟩)
  else .error .badMemoryIndex

/-- The operand of a descriptor and its value word (R75 to R80), check 3 of R88. -/
def decodeOperand (d : BitVec 13) (v : Word) : Except IllegalSlot Operand :=
  match widthOfCode (widthField d) with
  | none => .error .badWidthCode
  | some w =>
    match (shapeField d).toNat with
    | 0 => decodeRegister d v w
    | 1 => decodeMemory d v w
    | 2 => if shapeBits d = 0 then .ok (.const w v) else .error .badConstantBits
    | _ => if shapeBits d = 0 then .ok (.deref w v) else .error .badConstantBits

/-- Shapes R, M and D; a constant is no place (check 4). -/
def Operand.asPlace : Operand → Except IllegalSlot Place
  | .reg r => .ok (.reg r)
  | .mem w m => .ok (.mem w m)
  | .deref w a => .ok (.deref w a)
  | .const _ _ => .error .tupleNotAllowed

/-- Shape C only (check 4). -/
def Operand.asImm : Operand → Except IllegalSlot Imm
  | .const w v => .ok ⟨w, v⟩
  | .reg _ => .error .tupleNotAllowed
  | .mem _ _ => .error .tupleNotAllowed
  | .deref _ _ => .error .tupleNotAllowed

/-- Any shape, as a source. -/
def Operand.asSource : Operand → Source
  | .reg r => .place (.reg r)
  | .mem w m => .place (.mem w m)
  | .deref w a => .place (.deref w a)
  | .const _ v => .const v

/-- `w(op)` (R77). -/
def Operand.width : Operand → Width
  | .reg r => r.width
  | .mem w _ => w
  | .const w _ => w
  | .deref w _ => w

/-- The shape of an operand (R76). -/
def Operand.shape : Operand → Shape
  | .reg _ => .R
  | .mem _ _ => .M
  | .const _ _ => .C
  | .deref _ _ => .D

/-! ### The opcode map (R91) and the tuples (R90) -/

/-- An opcode's operand count and accepted tuples (R82, R90), with the instruction it makes. -/
inductive OpcodeRow
  /-- () -/
  | nullary (i : Instr)
  /-- (C) -/
  | constant (mk : Imm → Instr)
  /-- (R) (M) (D) -/
  | place (mk : Place → Instr)
  /-- (R) (M) (D) at width 4: POP (R87) -/
  | stackPlace (mk : Place → Instr)
  /-- (R) (M) (D) (C) at width 4: PUSH (R87) -/
  | stackSource (mk : Source → Instr)
  /-- (R,R) (R,M) (R,C) (R,D) (M,R) (M,C) (D,R) (D,C) -/
  | binary (mk : Place → Source → Instr)

/-- The tuples of shapes a row accepts (R90). -/
def OpcodeRow.tuples : OpcodeRow → List (List Shape)
  | .nullary _ => [[]]
  | .constant _ => [[.C]]
  | .place _ => [[.R], [.M], [.D]]
  | .stackPlace _ => [[.R], [.M], [.D]]
  | .stackSource _ => [[.R], [.M], [.D], [.C]]
  | .binary _ => [[.R, .R], [.R, .M], [.R, .C], [.R, .D], [.M, .R], [.M, .C], [.D, .R], [.D, .C]]

/-- Opcodes 0x01 to 0x0C (R91). -/
def opcodeRowsFrom01 : List OpcodeRow :=
  [.binary .mov, .constant .int, .nullary .hlt, .stackPlace .pop, .stackSource .push, .constant .call, .nullary .ret,
    .nullary .enter, .nullary .leave, .constant .loop, .constant .loope, .constant .loopne]

/-- Opcodes 0x0D to 0x1F (R91). -/
def opcodeRowsFrom0D : List OpcodeRow :=
  [.constant .jmp, .constant .jo, .constant .jno, .constant .js, .constant .jns, .constant .je, .constant .jne,
    .constant .jb, .constant .jnb, .constant .jbe, .constant .ja, .constant .jl, .constant .jge, .constant .jle,
    .constant .jg, .constant .jp, .constant .jnp, .constant .jcxz, .constant .jecxz]

/-- Opcodes 0x20 to 0x2F (R91). -/
def opcodeRowsFrom20 : List OpcodeRow :=
  [.binary .cmp, .binary .add, .binary .adc, .binary .sub, .binary .sbb, .place .idiv, .place .imul, .place .dec,
    .place .inc, .binary .and, .binary .or, .binary .xor, .nullary .std, .nullary .cld, .nullary .stc, .nullary .clc]

/-- Opcodes 1 to 47 in their order (R91). -/
def opcodeRows : List OpcodeRow := opcodeRowsFrom01 ++ opcodeRowsFrom0D ++ opcodeRowsFrom20

/-- The row of an opcode; 0 and 48..63 are unassigned (R91, R93). -/
def opcodeRow (c : BitVec 6) : Option OpcodeRow :=
  match c.toNat with
  | 0 => none
  | n + 1 => opcodeRows[n]?

/-- Checks 4 and 5 for a binary instruction. -/
def decodeBinary (mk : Place → Source → Instr) (o1 o2 : Operand) : Except IllegalSlot Instr :=
  match o1.asPlace with
  | .error e => .error e
  | .ok d =>
    if binaryTupleAllowed d o2.asSource then
      if binaryWidthsAgree d o2.asSource then .ok (mk d o2.asSource) else .error .widthRule
    else .error .tupleNotAllowed

/-- Checks 4 and 5 for a one-operand instruction. -/
def decodeUnary (row : OpcodeRow) (o : Operand) : Except IllegalSlot Instr :=
  match row with
  | .constant mk =>
    match o.asImm with
    | .error e => .error e
    | .ok c => .ok (mk c)
  | .place mk =>
    match o.asPlace with
    | .error e => .error e
    | .ok p => .ok (mk p)
  | .stackPlace mk =>
    match o.asPlace with
    | .error e => .error e
    | .ok p => if o.width = .w4 then .ok (mk p) else .error .widthRule
  | .stackSource mk => if o.width = .w4 then .ok (mk o.asSource) else .error .widthRule
  | .nullary _ => .error .tupleNotAllowed
  | .binary _ => .error .tupleNotAllowed

/-- The decoder (R88): the first check that fails gives the reason. It reads no register and no memory. -/
def decode (s : Slot) : Except IllegalSlot Instr :=
  match opcodeRow s.opc with
  | none => .error .unassignedOpcode
  | some (.nullary i) =>
    if s.d1 = 0 ∧ s.w1 = 0 ∧ s.d2 = 0 ∧ s.w2 = 0 then .ok i else .error .unusedOperandNonzero
  | some (.binary mk) =>
    match decodeOperand s.d1 s.w1 with
    | .error e => .error e
    | .ok o1 =>
      match decodeOperand s.d2 s.w2 with
      | .error e => .error e
      | .ok o2 => decodeBinary mk o1 o2
  | some row =>
    if s.d2 = 0 ∧ s.w2 = 0 then
      match decodeOperand s.d1 s.w1 with
      | .error e => .error e
      | .ok o => decodeUnary row o
    else .error .unusedOperandNonzero

/-- The slot whose bits are `w`, numbered from bit 0 of W0; the bits above `nbits` are 0. -/
def slotOfBits (nbits w : Nat) : Slot :=
  let v := w % 2 ^ nbits
  ⟨BitVec.ofNat 32 v, BitVec.ofNat 32 (v / 2 ^ 32), BitVec.ofNat 32 (v / 2 ^ 64)⟩

/-- The decoder on an instruction's bits as spec/opcode_table.json numbers them; none where it refuses. -/
def decodeTableWord (nbits w : Nat) : Option Instr :=
  match decode (slotOfBits nbits w) with
  | .ok i => some i
  | .error _ => none

/-! ### The encoder -/

/-- The code of a width (R77). -/
def Width.code : Width → BitVec 2
  | .w1 => 0
  | .w2 => 1
  | .w4 => 2

/-- The number of a register (10_state.md R24). -/
def Reg.number : Reg → BitVec 5
  | .eax => 0 | .ecx => 1 | .edx => 2 | .ebx => 3 | .esp => 4 | .ebp => 5 | .esi => 6 | .edi => 7
  | .ax => 8 | .cx => 9 | .dx => 10 | .bx => 11 | .sp => 12 | .bp => 13 | .si => 14 | .di => 15
  | .al => 16 | .cl => 17 | .dl => 18 | .bl => 19 | .ah => 20 | .ch => 21 | .dh => 22 | .bh => 23

/-- The number of a 32-bit register (R79). -/
def Reg32.number : Reg32 → BitVec 3
  | .eax => 0 | .ecx => 1 | .edx => 2 | .ebx => 3 | .esp => 4 | .ebp => 5 | .esi => 6 | .edi => 7

/-- The scale code: the power of 2 (R75). -/
def Scale.code : Scale → BitVec 2
  | .s1 => 0 | .s2 => 1 | .s4 => 2 | .s8 => 3

/-- The descriptor of an operand (R75). -/
def Operand.descriptor : Operand → BitVec 13
  | .reg r => (0 : BitVec 4) ++ r.number ++ r.width.code ++ (0 : BitVec 2)
  | .mem w ⟨b, some (i, s), _⟩ => s.code ++ i.number ++ (1 : BitVec 1) ++ b.number ++ w.code ++ (1 : BitVec 2)
  | .mem w ⟨b, none, _⟩ => (0 : BitVec 5) ++ (0 : BitVec 1) ++ b.number ++ w.code ++ (1 : BitVec 2)
  | .const w _ => (0 : BitVec 9) ++ w.code ++ (2 : BitVec 2)
  | .deref w _ => (0 : BitVec 9) ++ w.code ++ (3 : BitVec 2)

/-- The value word of an operand (R75, R86). -/
def Operand.valueWord : Operand → Word
  | .reg _ => 0
  | .mem _ m => m.disp
  | .const _ v => v
  | .deref _ a => a

/-- A place as an operand. -/
def Place.operand : Place → Operand
  | .reg r => .reg r
  | .mem w m => .mem w m
  | .deref w a => .deref w a

/-- A source as an operand; a constant is written at the default width of 4 bytes (R93, R99; log 12). -/
def Source.operand : Source → Operand
  | .place p => p.operand
  | .const v => .const .w4 v

/-- A one-operand constant as an operand. -/
def Imm.operand (c : Imm) : Operand := .const c.width c.value

/-- The opcode of an instruction (R91). -/
def Instr.opcode : Instr → BitVec 6
  | .mov _ _ => 0x01 | .int _ => 0x02 | .hlt => 0x03 | .pop _ => 0x04 | .push _ => 0x05 | .call _ => 0x06
  | .ret => 0x07 | .enter => 0x08 | .leave => 0x09 | .loop _ => 0x0A | .loope _ => 0x0B | .loopne _ => 0x0C
  | .jmp _ => 0x0D | .jo _ => 0x0E | .jno _ => 0x0F | .js _ => 0x10 | .jns _ => 0x11 | .je _ => 0x12
  | .jne _ => 0x13 | .jb _ => 0x14 | .jnb _ => 0x15 | .jbe _ => 0x16 | .ja _ => 0x17 | .jl _ => 0x18
  | .jge _ => 0x19 | .jle _ => 0x1A | .jg _ => 0x1B | .jp _ => 0x1C | .jnp _ => 0x1D | .jcxz _ => 0x1E
  | .jecxz _ => 0x1F | .cmp _ _ => 0x20 | .add _ _ => 0x21 | .adc _ _ => 0x22 | .sub _ _ => 0x23
  | .sbb _ _ => 0x24 | .idiv _ => 0x25 | .imul _ => 0x26 | .dec _ => 0x27 | .inc _ => 0x28 | .and _ _ => 0x29
  | .or _ _ => 0x2A | .xor _ _ => 0x2B | .std => 0x2C | .cld => 0x2D | .stc => 0x2E | .clc => 0x2F

/-- The operands of an instruction, in their positions (R82). -/
def Instr.operands : Instr → List Operand
  | .mov d s | .cmp d s | .add d s | .adc d s | .sub d s | .sbb d s | .and d s | .or d s | .xor d s =>
    [d.operand, s.operand]
  | .pop d | .idiv d | .imul d | .dec d | .inc d => [d.operand]
  | .push s => [s.operand]
  | .int c | .call c | .loop c | .loope c | .loopne c | .jmp c | .jo c | .jno c | .js c | .jns c | .je c | .jne c
  | .jb c | .jnb c | .jbe c | .ja c | .jl c | .jge c | .jle c | .jg c | .jp c | .jnp c | .jcxz c | .jecxz c =>
    [c.operand]
  | .hlt | .ret | .enter | .leave | .std | .cld | .stc | .clc => []

/-- A slot from an opcode and operands; an unused position is 0 (R73, R74, R81). -/
def slotOf (opc : BitVec 6) : List Operand → Slot
  | [] => ⟨(0 : BitVec 13) ++ (0 : BitVec 13) ++ opc, 0, 0⟩
  | [o1] => ⟨(0 : BitVec 13) ++ o1.descriptor ++ opc, o1.valueWord, 0⟩
  | o1 :: o2 :: _ => ⟨o2.descriptor ++ o1.descriptor ++ opc, o1.valueWord, o2.valueWord⟩

/-- The slot of an instruction (R73 to R75, R91). -/
def encode (i : Instr) : Slot := slotOf i.opcode i.operands

end Sys2Proof
end

