-- ==== Sys2Proof/Machine/Fetch.lean ====
section
/-! DEFINITION. The part of step() before an instruction's own pseudocode: the instruction address, the end of the program,
breakpoints, and the decoder (60_exceptions.md R231 steps 1 to 4), and placing a slot where the step fetches. -/

namespace Sys2Proof.Machine

/-- The end of the program: halted, the pending tick cleared, Exit emitted (R231 step 2). -/
def State.endOfProgram (s : State) : State := { s.emit .exit with sched := .halted, pendingTick := false }

/-- A breakpoint's pause: nothing executes (R231 step 3, R233). -/
def State.pauseAtBreakpoint (s : State) : State := { s with visited := true, sched := .paused, pendingTick := false }

/-- Whether an active breakpoint that has not paused this arrival stands at ip (R231 step 3, R233). -/
def State.breakpointHit (s : State) : Bool := s.breakpoints.contains s.ip && !s.visited

/-- What the fetch answers: the step is over in a state, or an instruction runs from a state. -/
inductive Fetched
  | done (t : State)
  | run (i : Instr) (t : State)
  deriving DecidableEq, Repr

/-- Steps 1 to 4 of R231, up to the instruction's pseudocode, in that order (R224). -/
def State.fetch (s : State) : Fetched :=
  if 2 ^ 31 ≤ s.ip.toNat then .done (s.takeFault .badInstructionAddress)
  else
    match s.program[s.ip.toNat]? with
    | none => .done s.endOfProgram
    | some slot =>
      if s.breakpointHit then .done s.pauseAtBreakpoint
      else
        match decode slot with
        | .error _ => .done ({ s with visited := false }.takeFault .illegalInstruction)
        | .ok i => .run i { s with visited := false }

/-- The address a placed slot gets: ip, or 0 when no program can have a slot at ip (N ≤ 2^31 − 1, 00_scope.md R7; log 10). -/
def State.placeAddress (s : State) : Word := if s.ip.toNat < 2 ^ 31 - 1 then s.ip else 0

/-- A program with a slot at an index, padded with slots of opcode 0 where it was shorter. -/
def putSlot (p : List Slot) (n : Nat) (slot : Slot) : List Slot :=
  p.take n ++ List.replicate (n - p.length) ⟨0, 0, 0⟩ ++ slot :: p.drop (n + 1)

/-- The state with a slot where the next step fetches; a breakpoint there counts as visited, so that the step runs it (log 10). -/
def State.placeSlot (s : State) (slot : Slot) : State :=
  { s with
    ip := s.placeAddress
    program := putSlot s.program s.placeAddress.toNat slot
    visited := s.visited || s.breakpoints.contains s.placeAddress }

end Sys2Proof.Machine
end

