-- ==== Sys2Proof/Machine/Step.lean ====
section
/-! DEFINITION. The step function (60_exceptions.md R231). -/

namespace Sys2Proof.Machine

/-- step(): one whole instruction, or one scheduler transition (R231, R232). -/
def step (s : State) : Host.Outcome State Fault Refusal :=
  match s.fetch with
  | .done t => .next t
  | .run i t => exec i t

/-- The state with an instruction, given by its bits, stored where the next step fetches (log 10). -/
def State.withFetchWord (s : State) (nbits w : Nat) : State := s.placeSlot (slotOfBits nbits w)

end Sys2Proof.Machine
end

