-- ==== Sys2Proof/Machine/HostCalls.lean ====
section
/-! DEFINITION. The host calls, which act between steps only, the boot sequence, and what a run's end is (60_exceptions.md R234 to
R239, R245, R246; 70_reset_and_hazards.md R261, R262, R264). The host's step() is `step` itself (R235). -/

namespace Sys2Proof.Machine

/-- pause(): cancels the pending tick and leaves running (60_exceptions.md R237). -/
def State.pause (s : State) : State :=
  { s with pendingTick := false, sched := if s.sched = .running then .paused else s.sched }

/-- halt(): pause, halted, Exit (60_exceptions.md R238). -/
def State.halt (s : State) : State := { s.pause with sched := .halted }.emit .exit

/-- run(): running, with a tick scheduled (60_exceptions.md R236). -/
def State.run (s : State) : State := { s with sched := .running, pendingTick := true }

/-- After a tick's step, the next tick is scheduled while the scheduler runs (60_exceptions.md R236). -/
def State.reschedule (s : State) : State := if s.sched = .running then { s with pendingTick := true } else s

/-- tick(): one paced step() of run() (60_exceptions.md R236). -/
def State.tick (s : State) : Host.Outcome State Fault Refusal :=
  match step { s with pendingTick := false } with
  | .next t => .next t.reschedule
  | .fault r => .fault r
  | .refused r => .refused r

/-- What a synchronous run answers within a step budget: it returned, it did not end, or Process.start refused it before it began
(60_exceptions.md R246, 70_reset_and_hazards.md R262; log 17). -/
inductive SyncEnd
  | returned (t : State)
  | didNotEnd (t : State)
  | loadError (t : State)
  deriving DecidableEq, Repr

/-- The loop of runSync(): step while running, at most as many times as the budget says (60_exceptions.md R246). -/
def State.stepWhileRunning : Nat → State → Host.Outcome SyncEnd Fault Refusal
  | 0, s => if s.sched = .running then .next (.didNotEnd s) else .next (.returned s)
  | n + 1, s =>
    if s.sched = .running then
      match step s with
      | .next t => t.stepWhileRunning n
      | .fault r => .fault r
      | .refused r => .refused r
    else .next (.returned s)

/-- runSync() (60_exceptions.md R246). -/
def State.runSync (s : State) (budget : Nat) : Host.Outcome SyncEnd Fault Refusal :=
  { s with sched := .running }.stepWhileRunning budget

/-- An address put in its place in a strictly rising list, once. -/
def insertAddress (a : Word) : List Word → List Word
  | [] => [a]
  | b :: bs => if a.toNat < b.toNat then a :: b :: bs else if a = b then b :: bs else b :: insertAddress a bs

/-- The breakpoint update: BP is replaced by a set of addresses and `visited` is left as it is (60_exceptions.md R234). -/
def State.setBreakpoints (s : State) (addrs : List Word) : State :=
  { s with breakpoints := addrs.foldr insertAddress [] }

/-- reset(): ip, the registers, the flags, `visited` and the fault mark; nothing else (70_reset_and_hazards.md R261). -/
def State.resetCall (s : State) : State :=
  { s with
    ip := 0
    regs := .afterReset s.cfg.memSize
    flags := .afterReset
    visited := false
    faultMark := false }

/-- Whether a memory definition fits in memory (70_reset_and_hazards.md R262). -/
def MemDef.fits (memSize : Nat) (d : MemDef) : Bool := decide (d.addr + d.size.bytes ≤ memSize)

/-- One definition's MemWrite (70_reset_and_hazards.md R262). -/
def State.loadDefinition (s : State) (d : MemDef) : Except Fault State :=
  s.memWrite d.addr d.size.bytes (BitVec.ofInt 32 d.value)

/-- The definitions' MemWrites in order: where two overlap, the later one wins (70_reset_and_hazards.md R262). -/
def State.loadDefinitions (s : State) : List MemDef → Except Fault State
  | [] => .ok s
  | d :: ds => do
    let s1 ← s.loadDefinition d
    s1.loadDefinitions ds

/-- What Process.start does before it begins execution: the loaded state, or LoadError in the paused state (log 16). -/
inductive StartResult
  | loaded (t : State)
  | loadError (t : State)
  deriving DecidableEq, Repr

/-- Process.start up to `started <- true`: pause, bounds check, reset, clear memory, load (70_reset_and_hazards.md R262, R265). -/
def State.bootLoad (s : State) : StartResult :=
  let p := s.pause
  if p.definitions.all (MemDef.fits p.cfg.memSize) then
    match { p.resetCall with mem := [] }.loadDefinitions p.definitions with
    | .ok t => .loaded { t with started := true }
    | .error _ => .loadError p
  else .loadError p

/-- Process.start(false): boot, then run() (70_reset_and_hazards.md R262). -/
def State.startScheduled (s : State) : StartResult :=
  match s.bootLoad with
  | .loaded t => .loaded t.run
  | .loadError t => .loadError t

/-- Process.start(true): boot, then runSync() within a step budget; a refused start executes nothing
(70_reset_and_hazards.md R262). -/
def State.startSync (s : State) (budget : Nat) : Host.Outcome SyncEnd Fault Refusal :=
  match s.bootLoad with
  | .loaded t => t.runSync budget
  | .loadError t => .next (.loadError t)

/-- The Process predicate `running`: started, and the CPU running (70_reset_and_hazards.md R264). -/
def State.processRunning (s : State) : Bool := s.started && s.sched == .running

/-- The Process predicate `paused`: started, and the CPU not running; a halted program counts (70_reset_and_hazards.md R264). -/
def State.processPaused (s : State) : Bool := s.started && s.sched != .running

/-- The run ended cleanly (60_exceptions.md R245). -/
def State.endedCleanly (s : State) : Bool := s.sched == .halted && !s.faultMark

/-- The run ended with a fault (60_exceptions.md R245). -/
def State.endedWithFault (s : State) : Bool := s.faultMark

/-- The kind and address of the last Error event (60_exceptions.md R245). -/
def lastError : List Event → Option (Fault × Word)
  | [] => none
  | e :: es =>
    match lastError es with
    | some r => some r
    | none =>
      match e with
      | .error k ip => some (k, ip)
      | .print _ => none
      | .printString _ => none
      | .exit => none

/-- The number the host prints in decimal for an INT 1 event, under INT1_RENDER (45_system.md R211, 00_scope.md R7). -/
def printedNumber (m : Int1Render) (v : Word) : Int :=
  match m with
  | .signed => v.toInt
  | .unsigned => v.toNat

/-- The numeric code of a fault kind (60_exceptions.md R221). -/
def Fault.code : Fault → Nat
  | .memoryOutOfRange => 1
  | .memoryOverflow => 2
  | .divideByZero => 3
  | .unknownInterrupt => 4
  | .divideOverflow => 5
  | .illegalInstruction => 6
  | .badInstructionAddress => 7
  | .unwrittenRead => 8

end Sys2Proof.Machine
end

