-- ==== Sys2Proof/Safety.lean ====
section
/-! DEFINITION. The terms claims are stated in: the invariant of the machine, which bytes a view covers, what stays the same
between two states, and when an operand can be reached. -/

namespace Sys2Proof

/-- Byte `k` of bank `n` belongs to the view (10_state.md R23). -/
abbrev View.Covers (v : View) (n : Fin 10) (k : Fin 4) : Prop :=
  n = v.bank ∧ v.offset ≤ k.val ∧ k.val < v.offset + v.width.bytes

/-- Whether the source is a constant. -/
def Source.isConst : Source → Bool
  | .place _ => false
  | .const _ => true

/-- The slot with another width code in its second operand's descriptor, bits 22:21 of W0 (30_encoding.md R73, R75). -/
def Slot.withSecondWidthCode (s : Slot) (c : BitVec 2) : Slot :=
  { s with w0 := (s.w0 &&& 0xFF9FFFFF) ||| (c.setWidth 32 <<< 21) }

end Sys2Proof

namespace Sys2Proof.Machine

/-! ### The invariant -/

/-- The addresses of a breakpoint list are strictly rising (10_state.md R39; log 15). -/
def risingAddresses : List Word → Bool
  | [] => true
  | [_] => true
  | a :: b :: bs => decide (a.toNat < b.toNat) && risingAddresses (b :: bs)

/-- What holds of every state a machine can be in: the parameter ranges of 00_scope.md R7, memory in its canonical form inside
0..MEM_SIZE − 1, the breakpoint set in its canonical form, a pending tick only while running (60_exceptions.md R236 to R238),
and an Error event behind a set fault mark (R245). -/
structure State.Inv (s : State) : Prop where
  config : s.cfg.wf
  programLength : s.program.length ≤ 2 ^ 31 - 1
  memoryForm : s.mem.wf = true
  memoryBounds : s.mem.within s.cfg.memSize = true
  breakpointForm : risingAddresses s.breakpoints = true
  tickWhileRunning : s.pendingTick = true → s.sched = .running
  markHasError : s.faultMark = true → (lastError s.events).isSome = true

/-! ### What stays the same -/

/-- Every register byte outside the named views is unchanged. -/
def SameRegsBut (rs : List Reg) (s t : State) : Prop :=
  ∀ n k, (∀ r ∈ rs, ¬ r.view.Covers n k) → t.regs.byte n k = s.regs.byte n k

/-- Every byte of memory is unchanged. -/
def SameMemory (s t : State) : Prop := ∀ x, t.mem.get x = s.mem.get x

/-- Every byte of memory outside the `n` bytes from address `a` is unchanged. -/
def SameMemoryBut (a : Int) (n : Nat) (s t : State) : Prop :=
  ∀ x : Nat, (x : Int) < a ∨ a + n ≤ x → t.mem.get x = s.mem.get x

/-- What no instruction changes: the parameters, the program, its memory definitions, and the host's own state (10_state.md R39,
R43, R45; 70_reset_and_hazards.md R263, R264). -/
def SameFixed (s t : State) : Prop :=
  t.cfg = s.cfg ∧ t.program = s.program ∧ t.definitions = s.definitions ∧ t.started = s.started ∧
    t.breakpoints = s.breakpoints ∧ t.visited = s.visited

/-- The scheduler, the pending tick, the fault mark and the events are unchanged. -/
def SameScheduler (s t : State) : Prop :=
  t.sched = s.sched ∧ t.pendingTick = s.pendingTick ∧ t.faultMark = s.faultMark ∧ t.events = s.events

/-- A fault was taken from `s` (60_exceptions.md R223). -/
def FaultTaken (s t : State) : Prop := ∃ k, t = s.takeFault k

/-- Only a written destination of width `w` differs between `s` and `t`: for a register, its view; for a memory operand, the `w`
bytes at the address `resolve` gives in `s` (30_encoding.md R85). `others` are further registers the instruction writes. -/
def OnlyDestination (w : Width) (dst : Place) (others : List Reg) (s t : State) : Prop :=
  (∀ r, dst = .reg r → SameRegsBut (r :: others) s t ∧ SameMemory s t) ∧
  (∀ a, s.resolve dst = .ok (.mem a) → SameRegsBut others s t ∧ SameMemoryBut a w.bytes s t)

/-! ### Reaching an operand -/

/-- An access of `n` bytes at `a` is in bounds (20_memory.md R54). -/
abbrev State.InBounds (s : State) (a : Int) (n : Nat) : Prop := 0 ≤ a ∧ a + n ≤ s.cfg.memSize

/-- A resolved place can be written at a width: any register, and memory in bounds. -/
def State.CanWrite (s : State) (w : Width) : Target → Prop
  | .reg _ => True
  | .mem a => s.InBounds a w.bytes

/-- The state with a value written to a resolved place (30_encoding.md R85). -/
def State.written (s : State) (w : Width) (v : Word) : Target → State
  | .reg r => s.writeReg r v
  | .mem a => s.storeWord a.toNat w.bytes v

/-- Two 4-byte places share no storage: different banks, or 4 bytes of memory each that do not meet (10_state.md R23). -/
def Target.Apart : Target → Target → Prop
  | .reg r, .reg q => r.view.bank ≠ q.view.bank
  | .mem a, .mem b => a + 4 ≤ b ∨ b + 4 ≤ a
  | .reg _, .mem _ => True
  | .mem _, .reg _ => True

/-- Every instruction that pushes 4 bytes takes the fault, once what it pushes can be read (R112, R196, R198). -/
def State.PushesTake (s : State) (k : Fault) : Prop :=
  (∀ src v, s.readSource .w4 src = .ok v → exec (.push src) s = .next (s.takeFault k)) ∧
  (∀ c, exec (.call c) s = .next (s.takeFault k)) ∧
  (∀ bp, s.readReg .ebp = .ok bp → exec .enter s = .next (s.takeFault k))

/-- Every instruction that pops 4 bytes at ESP takes the fault, POP once its target's address is known (R113, R197, R199). -/
def State.PopsTake (s : State) (k : Fault) : Prop :=
  (∀ dst g, s.resolve dst = .ok g → exec (.pop dst) s = .next (s.takeFault k)) ∧
  exec .ret s = .next (s.takeFault k) ∧
  (s.cfg.leaveMode = .popOnly → exec .leave s = .next (s.takeFault k))

/-- `n` steps lead from the one state to the other, each taken while the scheduler is running (60_exceptions.md R246). -/
def StepsWhileRunning : Nat → State → State → Prop
  | 0, s, t => s = t
  | n + 1, s, t => s.sched = .running ∧ ∃ u, step s = .next u ∧ StepsWhileRunning n u t

/-- The instruction of an ALU operation with write-back (41_alu.md R127 to R130, R132 to R134). -/
def AluOp.instr (op : AluOp) (dst : Place) (src : Source) : Instr :=
  match op with
  | .add => .add dst src
  | .adc => .adc dst src
  | .sub => .sub dst src
  | .sbb => .sbb dst src
  | .and => .and dst src
  | .or => .or dst src
  | .xor => .xor dst src

/-- The jump of a flag predicate (44_control_flow.md R172). -/
def Cond.instr (cond : Cond) (target : Imm) : Instr :=
  match cond with
  | .o => .jo target
  | .no => .jno target
  | .s => .js target
  | .ns => .jns target
  | .e => .je target
  | .ne => .jne target
  | .b => .jb target
  | .nb => .jnb target
  | .be => .jbe target
  | .a => .ja target
  | .l => .jl target
  | .ge => .jge target
  | .le => .jle target
  | .g => .jg target
  | .p => .jp target
  | .np => .jnp target

/-- The flags a predicate reads (44_control_flow.md R172). -/
def Cond.inputs (cond : Cond) (f : Flags) : List Flag :=
  match cond with
  | .o | .no => [f.OF]
  | .s | .ns => [f.SF]
  | .e | .ne => [f.ZF]
  | .b | .nb => [f.CF]
  | .be | .a => [f.CF, f.ZF]
  | .l | .ge => [f.SF, f.OF]
  | .le | .g => [f.ZF, f.SF, f.OF]
  | .p | .np => [f.PF]

/-- Whether the instruction is a binary one with a constant source, whose width code the decoder does not check (30_encoding.md
R87, R93). -/
def hasUncheckedWidthCode : Instr → Bool
  | .mov _ s | .cmp _ s | .add _ s | .adc _ s | .sub _ s | .sbb _ s | .and _ s | .or _ s | .xor _ s => s.isConst
  | .push _ | .pop _ | .imul _ | .idiv _ | .inc _ | .dec _ => false
  | .int _ | .call _ | .loop _ | .loope _ | .loopne _ | .jmp _ | .jcxz _ | .jecxz _ => false
  | .jo _ | .jno _ | .js _ | .jns _ | .je _ | .jne _ | .jb _ | .jnb _ | .jbe _ | .ja _ => false
  | .jl _ | .jge _ | .jle _ | .jg _ | .jp _ | .jnp _ => false
  | .hlt | .ret | .enter | .leave | .std | .cld | .stc | .clc => false

/-- What a program can see of a state: the parameters, the registers, ip, the flags and memory (10_state.md R38, R41;
60_exceptions.md R244). -/
def SameProgramView (s t : State) : Prop :=
  t.cfg = s.cfg ∧ t.regs = s.regs ∧ t.ip = s.ip ∧ t.flags = s.flags ∧ t.mem = s.mem

/-- The state with other contents in banks 8 and 9 (10_state.md R26). -/
def State.withHiddenBanks (s : State) (b8 b9 : Bank) : State := { s with regs := { s.regs with bank8 := b8, bank9 := b9 } }

/-- The state with another DF (10_state.md R36). -/
def State.withDF (s : State) (d : Flag) : State := { s with flags := { s.flags with DF := d } }

/-- Whether a byte address belongs to a memory definition (30_encoding.md R102). -/
def MemDef.Holds (d : MemDef) (x : Nat) : Prop := d.addr ≤ x ∧ x < d.addr + d.size.bytes

/-- Whether an event is an Error (10_state.md R40). -/
def Event.isError : Event → Bool
  | .error _ _ => true
  | .print _ => false
  | .printString _ => false
  | .exit => false

end Sys2Proof.Machine
end

