-- ==== Sys2Proof/Certificates/Slice0/Obligations.lean ====
section
/-! DEFINITION. The statements for the provers. Every statement about a state is about every value of the parameters of
00_scope.md R7, which the state carries in `cfg`. -/

open Sys2Proof Sys2Proof.Machine

/-! ### The encoding (30_encoding.md) -/

/-- Slots of 95_test_vectors.md section 2.11 and of the instruction rules, at least one of each family, decode to the instruction
the spec writes beside them. -/
def Obligations.SpecSlotsDecode : Prop :=
  decode ⟨0x00500201, 0, 5⟩ = .ok (.mov (.reg .eax) (.const 5)) ∧
  decode ⟨0x0055AE41, 8, 0x10⟩ = .ok (.mov (.mem .w4 ⟨.ebx, some (.esi, .s4), 8⟩) (.const 0x10)) ∧
  decode ⟨0x00580601, 0, 3⟩ = .ok (.mov (.reg .ecx) (.place (.deref .w4 3))) ∧
  decode ⟨0x00000205, 0, 0⟩ = .ok (.push (.place (.reg .eax))) ∧
  decode ⟨0x00000604, 0, 0⟩ = .ok (.pop (.reg .ecx)) ∧
  decode ⟨0x05A02121, 0, 0⟩ = .ok (.add (.reg .ax) (.place (.reg .bx))) ∧
  decode ⟨0x0057E163, 0xFFFFFFFF, 1⟩ = .ok (.sub (.mem .w2 ⟨.eax, some (.edi, .s8), 0xFFFFFFFF⟩) (.const 1)) ∧
  decode ⟨0x000000E8, 0x20, 0⟩ = .ok (.inc (.deref .w1 0x20)) ∧
  decode ⟨0x00000E26, 0, 0⟩ = .ok (.imul (.reg .ebx)) ∧
  decode ⟨0x000002E5, 0x20, 0⟩ = .ok (.idiv (.deref .w4 0x20)) ∧
  decode ⟨0x0000002E, 0, 0⟩ = .ok .stc ∧
  decode ⟨0x00000299, 6, 0⟩ = .ok (.jge ⟨.w4, 6⟩) ∧
  decode ⟨0x00000286, 9, 0⟩ = .ok (.call ⟨.w4, 9⟩) ∧
  decode ⟨0x00000082, 0x101, 0⟩ = .ok (.int ⟨.w1, 0x101⟩) ∧
  decode ⟨0x00000003, 0, 0⟩ = .ok .hlt

/-- Decode and encode agree on every well-formed instruction, with every operand at every value (R72 to R75, R91). -/
def Obligations.DecodeEncodeAgree : Prop :=
  ∀ i : Instr, i.WellFormed = true → decode (encode i) = .ok i

/-- A slot that decodes is the encoder's slot of its instruction, but for the one field that is read and not checked: the width
code of a binary instruction's constant source, bits 22:21 of W0. What it decodes to is well-formed. With any legal code in that
field the slot decodes to the same instruction, and with code 3 it is illegal (R77, R87, R88 check 3, R89, R93). -/
def Obligations.DecodedSlotIsItsEncoding : Prop :=
  ∀ (s : Slot) (i : Instr), decode s = .ok i →
    i.WellFormed = true ∧ (encode i).w1 = s.w1 ∧ (encode i).w2 = s.w2 ∧
      (encode i).w0 &&& 0xFF9FFFFF = s.w0 &&& 0xFF9FFFFF ∧
      (hasUncheckedWidthCode i = false → encode i = s) ∧
      (hasUncheckedWidthCode i = true →
        decode (s.withSecondWidthCode 0) = .ok i ∧ decode (s.withSecondWidthCode 1) = .ok i ∧
          decode (s.withSecondWidthCode 2) = .ok i ∧ decode (s.withSecondWidthCode 3) = .error .badWidthCode)

/-- An operand position the opcode does not use has descriptor 0 and value word 0 in every slot that decodes (R81). -/
def Obligations.UnusedOperandPositionsAreZero : Prop :=
  ∀ (s : Slot) (i : Instr), decode s = .ok i →
    (i.operands.length < 2 → s.d2 = 0 ∧ s.w2 = 0) ∧ (i.operands.length < 1 → s.d1 = 0 ∧ s.w1 = 0)

/-! ### The step (60_exceptions.md) -/

/-- A slot at ip that decodes, with no breakpoint to pause at, runs: the step is exec of its instruction, in the state with
`visited` cleared (R231 step 4). -/
def Obligations.StepRunsDecodedInstruction : Prop :=
  ∀ (s : State) (slot : Slot) (i : Instr),
    s.ip.toNat < 2 ^ 31 → s.program[s.ip.toNat]? = some slot → (s.ip ∉ s.breakpoints ∨ s.visited = true) →
    decode slot = .ok i → step s = exec i { s with visited := false }

/-- The steps that execute nothing: an address of 2^31 or more faults, an address past the program halts, a breakpoint pauses once,
an illegal slot faults (R231 steps 1 to 4, R224, R234). -/
def Obligations.StepsThatExecuteNothing : Prop :=
  ∀ s : State,
    (2 ^ 31 ≤ s.ip.toNat →
      step s = .next { s with events := s.events ++ [.error .badInstructionAddress s.ip], sched := .paused,
                              pendingTick := false, faultMark := true }) ∧
    (s.ip.toNat < 2 ^ 31 → s.program.length ≤ s.ip.toNat →
      step s = .next { s with events := s.events ++ [.exit], sched := .halted, pendingTick := false }) ∧
    (s.ip.toNat < 2 ^ 31 → s.ip.toNat < s.program.length → s.ip ∈ s.breakpoints → s.visited = false →
      step s = .next { s with visited := true, sched := .paused, pendingTick := false }) ∧
    (∀ slot e, s.ip.toNat < 2 ^ 31 → s.program[s.ip.toNat]? = some slot → (s.ip ∉ s.breakpoints ∨ s.visited = true) →
      decode slot = .error e →
      step s = .next { s with visited := false, events := s.events ++ [.error .illegalInstruction s.ip], sched := .paused,
                              pendingTick := false, faultMark := true })

/-- Every step answers a next state: no instruction is refused, and every fault is taken by the step that raises it. -/
def Obligations.EveryStepAnswersNext : Prop := ∀ s : State, ∃ t, step s = .next t

/-- Faults are precise (R223): an instruction either takes a fault, and then no register, flag or memory byte and not ip changes,
only Error(kind, ip) is emitted, the scheduler is paused, the pending tick is cleared and the fault mark is set; or it emits no
Error and leaves the fault mark as it was. -/
def Obligations.FaultsArePrecise : Prop :=
  ∀ (i : Instr) (s t : State), exec i s = .next t →
    (∃ k, t = { s with events := s.events ++ [.error k s.ip], sched := .paused, pendingTick := false, faultMark := true }) ∨
    (t.faultMark = s.faultMark ∧ ∃ es, t.events = s.events ++ es ∧ ∀ e ∈ es, e.isError = false)

/-- Stepping again after a fault, with no breakpoint at ip, raises the same fault again and changes no register, flag or memory
byte (R226). -/
def Obligations.SteppingAfterFaultFaultsAgain : Prop :=
  ∀ (s t : State) (k : Fault), step s = .next t → t.events = s.events ++ [.error k s.ip] → s.ip ∉ s.breakpoints →
    ∃ u, step t = .next u ∧ u.events = t.events ++ [.error k t.ip] ∧ u.regs = t.regs ∧ u.flags = t.flags ∧ u.mem = t.mem ∧
      u.ip = t.ip ∧ u.sched = .paused ∧ u.faultMark = true

/-- A breakpoint pauses the first step of an arrival without executing, and the next step executes the instruction (R233). -/
def Obligations.BreakpointPausesOnceThenRuns : Prop :=
  ∀ (s : State) (slot : Slot) (i : Instr),
    s.ip.toNat < 2 ^ 31 → s.program[s.ip.toNat]? = some slot → decode slot = .ok i → s.ip ∈ s.breakpoints → s.visited = false →
    ∃ p, step s = .next p ∧ p.sched = .paused ∧ p.ip = s.ip ∧ p.regs = s.regs ∧ p.flags = s.flags ∧ p.mem = s.mem ∧
      step p = exec i { s with sched := .paused, pendingTick := false }

/-! ### Invariants and whole-machine rules -/

/-- The invariant holds of every newly constructed machine whose parameters and program are in the ranges of 00_scope.md R7, and
of State.reset (the parameters of State.reset are the model's choice, log 5 to log 9). -/
def Obligations.InvariantAtReset : Prop :=
  (∀ cfg program definitions, cfg.wf → program.length ≤ 2 ^ 31 - 1 → (State.construct cfg program definitions).Inv) ∧
    State.reset.Inv

/-- Every step keeps the invariant, from every state that has it. -/
def Obligations.StepKeepsInvariant : Prop := ∀ s t : State, s.Inv → step s = .next t → t.Inv

/-- Every host call keeps the invariant (60_exceptions.md R236 to R239, R246; 70_reset_and_hazards.md R261, R262). -/
def Obligations.HostCallsKeepInvariant : Prop :=
  ∀ s : State, s.Inv →
    s.pause.Inv ∧ s.halt.Inv ∧ s.run.Inv ∧ s.resetCall.Inv ∧ (∀ addrs, (s.setBreakpoints addrs).Inv) ∧
      (∀ t, s.tick = .next t → t.Inv) ∧ (∀ n t, s.runSync n = .next (.returned t) → t.Inv) ∧
      (∀ t, s.bootLoad = .loaded t → t.Inv) ∧ (∀ t, s.bootLoad = .loadError t → t.Inv)

/-- No step changes the parameters, the program, its memory definitions, `started` or the breakpoints, and the notification
channel only grows at its end (10_state.md R39, R40, R43; 20_memory.md R65). -/
def Obligations.StepKeepsProgramAndAppendsEvents : Prop :=
  ∀ s t : State, step s = .next t →
    t.cfg = s.cfg ∧ t.program = s.program ∧ t.definitions = s.definitions ∧ t.started = s.started ∧
      t.breakpoints = s.breakpoints ∧ ∃ es, t.events = s.events ++ es

/-- Banks 8 and 9 are neither read nor written: with other contents in them, a step does the same and leaves those contents
(10_state.md R26). -/
def Obligations.HiddenBanksAreUnobservable : Prop :=
  ∀ (s t : State) (b8 b9 : Bank), step s = .next t → step (s.withHiddenBanks b8 b9) = .next (t.withHiddenBanks b8 b9)

/-- DF is written by STD and CLD and read by no instruction: with another DF, every other instruction does the same and leaves that
DF, and STD and CLD do the same (10_state.md R36). -/
def Obligations.DirectionFlagIsReadByNoInstruction : Prop :=
  ∀ (i : Instr) (s t : State) (d : Flag), exec i s = .next t →
    (i ≠ .std → i ≠ .cld → exec i (s.withDF d) = .next (t.withDF d)) ∧
    (i = .std ∨ i = .cld → exec i (s.withDF d) = .next t)

/-- What an instruction does to the registers, the flags, memory and ip depends on those and on the parameters alone: the scheduler
state, the pending tick, the breakpoints, `visited`, the fault mark, the events and the program are not observed (10_state.md R38,
R41; 60_exceptions.md R244). -/
def Obligations.ProgramSeesNoHostState : Prop :=
  ∀ (i : Instr) (s s' t : State), SameProgramView s s' → exec i s = .next t →
    ∃ t', exec i s' = .next t' ∧ SameProgramView t t'

/-- A register byte that holds a value still holds one after any step, and so does a flag after any instruction but IMUL and IDIV
(10_state.md R28, R34). -/
def Obligations.WrittenStaysDefined : Prop :=
  (∀ (s t : State) (n : Fin 10) (k : Fin 4), step s = .next t → (s.regs.byte n k).isVal = true →
    (t.regs.byte n k).isVal = true) ∧
  (∀ (i : Instr) (s t : State), exec i s = .next t → (∀ p, i ≠ .imul p) → (∀ p, i ≠ .idiv p) →
    (s.flags.CF.isVal = true → t.flags.CF.isVal = true) ∧ (s.flags.ZF.isVal = true → t.flags.ZF.isVal = true) ∧
    (s.flags.OF.isVal = true → t.flags.OF.isVal = true) ∧ (s.flags.SF.isVal = true → t.flags.SF.isVal = true) ∧
    (s.flags.PF.isVal = true → t.flags.PF.isVal = true) ∧ (s.flags.DF.isVal = true → t.flags.DF.isVal = true))

/-! ### Reset, boot and the host calls (70_reset_and_hazards.md, 60_exceptions.md) -/

/-- reset() (70_reset_and_hazards.md R261): ip 0, ESP and EBP hold MEM_SIZE, every other register byte and every flag is `undef`,
`visited` and the fault mark are false; memory, the scheduler state, BP, the pending tick and the events are unchanged. A newly
constructed CPU is idle with no breakpoint and no pending tick, every memory byte is 0, and its registers, flags and ip are those
reset() gives (R263). That reset() would change nothing else of it either, so that `visited` and the fault mark are already false
when it is made, is the model's reading (log 20, DEDUCED): R263 does not name them. -/
def Obligations.ResetAndConstructionValues : Prop :=
  (∀ s : State,
    s.resetCall.ip = 0 ∧ s.resetCall.readReg .esp = .ok (BitVec.ofNat 32 s.cfg.memSize) ∧
      s.resetCall.readReg .ebp = .ok (BitVec.ofNat 32 s.cfg.memSize) ∧
      (∀ n k, n ≠ 4 → n ≠ 5 → s.resetCall.regs.byte n k = .undef) ∧
      s.resetCall.flags = ⟨.undef, .undef, .undef, .undef, .undef, .undef⟩ ∧ s.resetCall.visited = false ∧
      s.resetCall.faultMark = false ∧ s.resetCall.mem = s.mem ∧ s.resetCall.sched = s.sched ∧
      s.resetCall.breakpoints = s.breakpoints ∧ s.resetCall.pendingTick = s.pendingTick ∧ s.resetCall.events = s.events ∧
      s.resetCall.cfg = s.cfg ∧ s.resetCall.program = s.program) ∧
  ∀ (cfg : Config) (program : List Slot) (definitions : List MemDef),
    (State.construct cfg program definitions).sched = .idle ∧
      (State.construct cfg program definitions).breakpoints = [] ∧
      (State.construct cfg program definitions).pendingTick = false ∧
      (∀ x, (State.construct cfg program definitions).mem.get x = 0) ∧
      (State.construct cfg program definitions).resetCall = State.construct cfg program definitions

/-- Process.start (70_reset_and_hazards.md R262): when every definition fits, the machine is reset, memory is cleared and loaded
in order, so that a definition no later one overlaps is read back and a byte of no definition is 0; when one does not fit, the
start is refused in the paused state (log 16). -/
def Obligations.ProcessStartLoadsTheDataSegment : Prop :=
  ∀ s : State,
    ((∀ d ∈ s.definitions, d.addr + d.size.bytes ≤ s.cfg.memSize) →
      ∃ t, s.bootLoad = .loaded t ∧ t.started = true ∧ t.ip = 0 ∧ t.regs = s.resetCall.regs ∧ t.flags = s.resetCall.flags ∧
        t.pendingTick = false ∧ t.visited = false ∧ t.faultMark = false ∧
        (∀ x : Nat, (∀ d ∈ s.definitions, ¬ d.Holds x) → t.mem.get x = 0) ∧
        (∀ pre d post, s.definitions = pre ++ d :: post → (∀ e ∈ post, ∀ x, d.Holds x → ¬ e.Holds x) →
          t.memRead d.addr d.size.bytes = .ok (truncTo d.size (BitVec.ofInt 32 d.value)))) ∧
    ((∃ d ∈ s.definitions, s.cfg.memSize < d.addr + d.size.bytes) → s.bootLoad = .loadError s.pause)

/-- run(), tick(), pause() and halt() (60_exceptions.md R236, R237, R238); the breakpoint update, which replaces BP by the addresses
it is given and leaves everything else, `visited` included (R234; the list form of BP is log 15); and runSync(), which sets running
and steps while running, up to the first state that is not running, or reports that its step budget ran out (R246, log 17). -/
def Obligations.SchedulerCalls : Prop :=
  ∀ s : State,
    s.run = { s with sched := .running, pendingTick := true } ∧
    (∀ t, step { s with pendingTick := false } = .next t →
      s.tick = .next { t with pendingTick := if t.sched = .running then true else t.pendingTick }) ∧
    (s.sched = .running → s.pause = { s with sched := .paused, pendingTick := false }) ∧
    (s.sched ≠ .running → s.pause = { s with pendingTick := false }) ∧
    s.halt = { s with sched := .halted, pendingTick := false, events := s.events ++ [.exit] } ∧
    (∀ addrs a, a ∈ (s.setBreakpoints addrs).breakpoints ↔ a ∈ addrs) ∧
    (∀ addrs, s.setBreakpoints addrs = { s with breakpoints := (s.setBreakpoints addrs).breakpoints }) ∧
    (∀ n t, s.runSync n = .next (.returned t) ↔
      t.sched ≠ .running ∧ ∃ m ≤ n, StepsWhileRunning m { s with sched := .running } t) ∧
    (∀ n t, s.runSync n = .next (.didNotEnd t) ↔
      t.sched = .running ∧ StepsWhileRunning n { s with sched := .running } t)

/-! ### Registers (10_state.md) -/

/-- Reading a view (R27): when all its bytes hold values, the value they make, offset by offset from the low end; when one is
`undef`, UnwrittenRead. -/
def Obligations.ReadingARegisterView : Prop :=
  ∀ (s : State) (r : Reg),
    ((∀ k, r.view.Covers r.view.bank k → (s.regs.byte r.view.bank k).isVal = true) →
      ∃ v, s.readReg r = .ok v ∧ v.toNat < 2 ^ (8 * r.width.bytes) ∧
        ∀ k : Fin 4, r.view.Covers r.view.bank k →
          s.regs.byte r.view.bank k = .val (v.extractLsb' (8 * (k.val - r.view.offset)) 8)) ∧
    ((∃ k, r.view.Covers r.view.bank k ∧ s.regs.byte r.view.bank k = .undef) → s.readReg r = .error .unwrittenRead)

/-- Writing a view (R28): byte k of the view takes bits 8k+7:8k of the value, every other byte of every bank is unchanged, and
nothing but the register file changes. -/
def Obligations.WritingARegisterView : Prop :=
  ∀ (s : State) (r : Reg) (v : Word),
    (∀ k : Fin 4, r.view.Covers r.view.bank k →
      (s.writeReg r v).regs.byte r.view.bank k = .val (v.extractLsb' (8 * (k.val - r.view.offset)) 8)) ∧
    SameRegsBut [r] s (s.writeReg r v) ∧ s.writeReg r v = { s with regs := (s.writeReg r v).regs }

/-! ### Memory (20_memory.md) -/

/-- The bounds check (R54): which accesses are in bounds, and which of the two fault kinds the others raise. No alignment is asked
for (R59). -/
def Obligations.MemoryBoundsCheck : Prop :=
  ∀ (s : State) (a : Int) (n : Nat) (v : Word), 0 < n →
    (a < 0 ∨ s.cfg.memSize ≤ a → s.memRead a n = .error .memoryOutOfRange ∧ s.memWrite a n v = .error .memoryOutOfRange) ∧
    (0 ≤ a → a < s.cfg.memSize → s.cfg.memSize < a + n →
      s.memRead a n = .error .memoryOverflow ∧ s.memWrite a n v = .error .memoryOverflow) ∧
    (0 ≤ a → a + n ≤ s.cfg.memSize → (∃ x, s.memRead a n = .ok x) ∧ ∃ t, s.memWrite a n v = .ok t)

/-- MemRead performs the check of R54, and in bounds it assembles the bytes in the order ENDIAN gives (R55). -/
def Obligations.MemoryReadAssemblesBytes : Prop :=
  (∀ (s : State) (a : Int) (n : Nat) (k : Fault), checkAccess s.cfg.memSize a n = .error k → s.memRead a n = .error k) ∧
  ∀ (s : State) (a n : Nat), 0 < n → n ≤ 4 → a + n ≤ s.cfg.memSize →
    ∃ v, s.memRead a n = .ok v ∧ v.toNat < 2 ^ (8 * n) ∧
      (s.cfg.endian = .little → ∀ k < n, v.extractLsb' (8 * k) 8 = s.mem.get (a + k)) ∧
      (s.cfg.endian = .big → ∀ k < n, v.extractLsb' (8 * k) 8 = s.mem.get (a + (n - 1 - k)))

/-- MemWrite performs the check of R54, and a refused write gives no new state; in bounds it writes the value's bytes in the order
ENDIAN gives and no other byte, and a read of the same place gives the value back; it changes nothing but memory (R56). That memory
stays in its canonical form (`wf`) is no rule of the spec: it is the model's, whose memory is a list (log 11). -/
def Obligations.MemoryWriteStoresBytes : Prop :=
  (∀ (s : State) (a : Int) (n : Nat) (v : Word) (k : Fault), checkAccess s.cfg.memSize a n = .error k →
    s.memWrite a n v = .error k) ∧
  ∀ (s : State) (a : Nat) (w : Width) (v : Word), a + w.bytes ≤ s.cfg.memSize → s.mem.wf = true →
    ∃ t, s.memWrite a w.bytes v = .ok t ∧ t = { s with mem := t.mem } ∧ t.mem.wf = true ∧
      (s.cfg.endian = .little → ∀ k < w.bytes, t.mem.get (a + k) = v.extractLsb' (8 * k) 8) ∧
      (s.cfg.endian = .big → ∀ k < w.bytes, t.mem.get (a + (w.bytes - 1 - k)) = v.extractLsb' (8 * k) 8) ∧
      SameMemoryBut a w.bytes s t ∧ t.memRead a w.bytes = .ok (truncTo w v)

/-- The effective address is the exact integer uint(base) + uint(index)·scale + sint(displacement), the address of a dereferenced
constant is its unsigned value, and an `undef` address register raises UnwrittenRead (R58). -/
def Obligations.EffectiveAddresses : Prop :=
  ∀ (s : State) (w : Width) (base index : Reg32) (sc : Scale) (d c b i : Word),
    (s.readReg base.reg = .ok b → s.resolve (.mem w ⟨base, none, d⟩) = .ok (.mem (b.toNat + d.toInt))) ∧
    (s.readReg base.reg = .ok b → s.readReg index.reg = .ok i →
      s.resolve (.mem w ⟨base, some (index, sc), d⟩) = .ok (.mem (b.toNat + i.toNat * sc.factor + d.toInt))) ∧
    s.resolve (.deref w c) = .ok (.mem c.toNat) ∧
    (s.readReg base.reg = .error .unwrittenRead →
      s.resolve (.mem w ⟨base, none, d⟩) = .error .unwrittenRead ∧
        s.resolve (.mem w ⟨base, some (index, sc), d⟩) = .error .unwrittenRead) ∧
    (s.readReg base.reg = .ok b → s.readReg index.reg = .error .unwrittenRead →
      s.resolve (.mem w ⟨base, some (index, sc), d⟩) = .error .unwrittenRead)

/-! ### The ALU (41_alu.md) -/

/-- Carry and overflow are exact, at every flag width: CF makes the unsigned result exact (carry out of a sum, borrow of a
difference), and OF is clear exactly when the signed result is exact (R123, R124, R125). With CF clear, ADC is ADD and SBB is
SUB. AND, OR and XOR clear both. -/
def Obligations.CarryAndOverflowAreExact : Prop :=
  ∀ (fw : Nat) (a b : BitVec fw) (c : Bool), 0 < fw →
    (alu .adc a b c).value.toNat + (if (alu .adc a b c).CF then 2 ^ fw else 0) = a.toNat + b.toNat + c.toNat ∧
    ((alu .adc a b c).OF = false ↔ (alu .adc a b c).value.toInt = a.toInt + b.toInt + c.toNat) ∧
    ((alu .sbb a b c).value.toNat : Int) = a.toNat - b.toNat - c.toNat + (if (alu .sbb a b c).CF then 2 ^ fw else 0) ∧
    ((alu .sbb a b c).OF = false ↔ (alu .sbb a b c).value.toInt = a.toInt - b.toInt - c.toNat) ∧
    alu .add a b c = alu .adc a b false ∧ alu .sub a b c = alu .sbb a b false ∧
    ∀ op, op = .and ∨ op = .or ∨ op = .xor → (alu op a b c).CF = false ∧ (alu op a b c).OF = false

/-- The result, and ZF, SF and PF of every operation: the sum or difference with the carry-in mod 2^FW, or the bitwise result;
zero, top bit, and even parity of the low byte of that result (R125). -/
def Obligations.ResultZeroSignAndParity : Prop :=
  ∀ (fw : Nat) (op : AluOp) (a b : BitVec fw) (c : Bool), 0 < fw →
    (alu .add a b c).value = a + b ∧ (alu .adc a b c).value = a + b + BitVec.ofNat fw c.toNat ∧
    (alu .sub a b c).value = a - b ∧ (alu .sbb a b c).value = a - b - BitVec.ofNat fw c.toNat ∧
    (alu .and a b c).value = a &&& b ∧ (alu .or a b c).value = a ||| b ∧ (alu .xor a b c).value = a ^^^ b ∧
    ((alu op a b c).ZF = true ↔ (alu op a b c).value = 0) ∧ (alu op a b c).SF = (alu op a b c).value.msb ∧
    (alu op a b c).PF = !((alu op a b c).value.getLsbD 0 ^^ (alu op a b c).value.getLsbD 1 ^^
      (alu op a b c).value.getLsbD 2 ^^ (alu op a b c).value.getLsbD 3 ^^ (alu op a b c).value.getLsbD 4 ^^
      (alu op a b c).value.getLsbD 5 ^^ (alu op a b c).value.getLsbD 6 ^^ (alu op a b c).value.getLsbD 7)

/-- The value written back at a narrow width is the same under every setting of FLAG_WIDTH and NARROW_EXT; only the flags differ
(R122, R126; 95_test_vectors.md section 2.2). -/
def Obligations.WriteBackIgnoresFlagWidth : Prop :=
  ∀ (cfg cfg' : Config) (w : Width) (op : AluOp) (t s : Word) (c : Bool),
    truncTo w (aluAt cfg w op t s c).value = truncTo w (aluAt cfg' w op t s c).value

/-- Widening (R122): with FLAG_WIDTH = fixed32 the ALU works at 32 bits, on the zero-extended low bytes of each operand or on the
sign-extended ones as NARROW_EXT says; with FLAG_WIDTH = operand it works on the low bytes alone. -/
def Obligations.FlagWidthSelectsTheAluWidth : Prop :=
  ∀ (cfg : Config) (w : Width) (op : AluOp) (t s : Word) (c : Bool),
    (cfg.flagWidth = .fixed32 → ∃ a b : BitVec 32, aluAt cfg w op t s c = alu op a b c ∧
      (cfg.narrowExt = .zero → a.toNat = t.toNat % 2 ^ (8 * w.bytes) ∧ b.toNat = s.toNat % 2 ^ (8 * w.bytes)) ∧
      (cfg.narrowExt = .sign →
        a.toInt = (t.setWidth (8 * w.bytes)).toInt ∧ b.toInt = (s.setWidth (8 * w.bytes)).toInt)) ∧
    (cfg.flagWidth = .operand →
      ∃ r : AluResult (8 * w.bytes), r = alu op (t.setWidth (8 * w.bytes)) (s.setWidth (8 * w.bytes)) c ∧
        (aluAt cfg w op t s c).value = r.value.setWidth 32 ∧ (aluAt cfg w op t s c).CF = r.CF ∧
        (aluAt cfg w op t s c).ZF = r.ZF ∧ (aluAt cfg w op t s c).SF = r.SF ∧ (aluAt cfg w op t s c).OF = r.OF ∧
        (aluAt cfg w op t s c).PF = r.PF)

/-! ### What each instruction does -/

/-- MOV (R111) completes: the source's value is in the target, ip has advanced, nothing else has changed. -/
def Obligations.MovCompletes : Prop :=
  ∀ (s : State) (dst : Place) (src : Source) (g : Target) (v : Word),
    s.resolve dst = .ok g → s.readSource dst.width src = .ok v → s.CanWrite dst.width g →
    exec (.mov dst src) s = .next { s.written dst.width v g with ip := s.ip + 1 }

/-- ADD, ADC, SUB, SBB, AND, OR and XOR (R126 to R130, R132 to R134) complete: the ALU's result is in the target and CF, ZF, SF,
OF and PF are the ALU's; ADC and SBB need CF to hold a value, the others do not. -/
def Obligations.AluInstructionsComplete : Prop :=
  ∀ (s : State) (op : AluOp) (dst : Place) (src : Source) (g : Target) (a b : Word) (c : Bool),
    s.resolve dst = .ok g → s.readTarget dst.width g = .ok a → s.readSource dst.width src = .ok b → s.CanWrite dst.width g →
    (op = .adc ∨ op = .sbb → s.flags.CF = .val c) →
    exec (op.instr dst src) s = .next
      { s.written dst.width (aluAt s.cfg dst.width op a b c).value g with
        flags := ⟨.val (aluAt s.cfg dst.width op a b c).CF, .val (aluAt s.cfg dst.width op a b c).ZF,
          .val (aluAt s.cfg dst.width op a b c).OF, .val (aluAt s.cfg dst.width op a b c).SF,
          .val (aluAt s.cfg dst.width op a b c).PF, s.flags.DF⟩
        ip := s.ip + 1 }

/-- CMP (R131) completes: the flags of SUB, and nothing written back. -/
def Obligations.CmpCompletes : Prop :=
  ∀ (s : State) (dst : Place) (src : Source) (a b : Word),
    s.readPlace dst.width dst = .ok a → s.readSource dst.width src = .ok b →
    exec (.cmp dst src) s = .next
      { s with
        flags := ⟨.val (aluAt s.cfg dst.width .sub a b false).CF, .val (aluAt s.cfg dst.width .sub a b false).ZF,
          .val (aluAt s.cfg dst.width .sub a b false).OF, .val (aluAt s.cfg dst.width .sub a b false).SF,
          .val (aluAt s.cfg dst.width .sub a b false).PF, s.flags.DF⟩
        ip := s.ip + 1 }

/-- INC and DEC (R135, R136) complete: the operand plus or minus 1, with ZF, SF, OF and PF of that sum or difference, and CF too
when INCDEC_CF = computed. -/
def Obligations.IncAndDecComplete : Prop :=
  ∀ (s : State) (dst : Place) (g : Target) (a : Word),
    s.resolve dst = .ok g → s.readTarget dst.width g = .ok a → s.CanWrite dst.width g →
    exec (.inc dst) s = .next
      { s.written dst.width (aluAt s.cfg dst.width .add a 1 false).value g with
        flags := ⟨if s.cfg.incDecCF = .computed then .val (aluAt s.cfg dst.width .add a 1 false).CF else s.flags.CF,
          .val (aluAt s.cfg dst.width .add a 1 false).ZF, .val (aluAt s.cfg dst.width .add a 1 false).OF,
          .val (aluAt s.cfg dst.width .add a 1 false).SF, .val (aluAt s.cfg dst.width .add a 1 false).PF, s.flags.DF⟩
        ip := s.ip + 1 } ∧
    exec (.dec dst) s = .next
      { s.written dst.width (aluAt s.cfg dst.width .sub a 1 false).value g with
        flags := ⟨if s.cfg.incDecCF = .computed then .val (aluAt s.cfg dst.width .sub a 1 false).CF else s.flags.CF,
          .val (aluAt s.cfg dst.width .sub a 1 false).ZF, .val (aluAt s.cfg dst.width .sub a 1 false).OF,
          .val (aluAt s.cfg dst.width .sub a 1 false).SF, .val (aluAt s.cfg dst.width .sub a 1 false).PF, s.flags.DF⟩
        ip := s.ip + 1 }

/-- IMUL (R151, R152) completes: EDX:EAX is the exact signed product of EAX and the operand, widened by NARROW_EXT; CF, OF, SF, ZF
and PF are `undef`; DF and memory are unchanged. An operand, or an EAX, that cannot be read is its only fault. Its opcode is
0x26. -/
def Obligations.ImulGivesTheExactProduct : Prop :=
  ∀ (s : State) (factor : Place),
    (encode (.imul factor)).opc = 0x26 ∧
    (∀ k, s.readPlace factor.width factor = .error k → exec (.imul factor) s = .next (s.takeFault k)) ∧
    (∀ v k, s.readPlace factor.width factor = .ok v → s.readReg .eax = .error k →
      exec (.imul factor) s = .next (s.takeFault k)) ∧
    ∀ v a, s.readPlace factor.width factor = .ok v → s.readReg .eax = .ok a →
    ∃ t lo hi, exec (.imul factor) s = .next t ∧ t.readReg .eax = .ok lo ∧ t.readReg .edx = .ok hi ∧
      (hi ++ lo : BitVec 64).toInt = a.toInt * (widenTo32 s.cfg.narrowExt factor.width v).toInt ∧
      t.flags = ⟨.undef, .undef, .undef, .undef, .undef, s.flags.DF⟩ ∧ t.mem = s.mem ∧ t.ip = s.ip + 1

/-- The divide path (R153): zero divisor, quotient out of range, or the quotient truncated toward zero with a remainder of the
dividend's sign, smaller than the divisor. -/
def Obligations.DividePathTruncatesTowardZero : Prop :=
  ∀ (n : DWord) (d : Word),
    (d.toNat = 0 ↔ div64 n d = .divZero) ∧
    (d.toNat ≠ 0 →
      ∃ Q R : Int, n.toInt = Q * d.toInt + R ∧ |R| < |d.toInt| ∧ (R ≠ 0 → R.sign = n.toInt.sign) ∧
        ((Q < -(2 ^ 31) ∨ 2 ^ 31 - 1 < Q) → div64 n d = .divOverflow) ∧
        (-(2 ^ 31) ≤ Q ∧ Q ≤ 2 ^ 31 - 1 → ∃ q r, div64 n d = .ok q r ∧ q.toInt = Q ∧ r.toInt = R))

/-- IDIV (R154): with the operand, EAX and EDX readable it completes with the quotient in EAX and the remainder in EDX, or takes
DivideByZero or DivideOverflow, as the divide path answers on EDX:EAX and the operand widened by NARROW_EXT. The reads fault in
the order operand, EAX, EDX. Its opcode is 0x25. -/
def Obligations.IdivCompletesOrFaults : Prop :=
  ∀ (s : State) (divisor : Place),
    (encode (.idiv divisor)).opc = 0x25 ∧
    (∀ k, s.readPlace divisor.width divisor = .error k → exec (.idiv divisor) s = .next (s.takeFault k)) ∧
    ∀ v, s.readPlace divisor.width divisor = .ok v →
    (∀ k, s.readReg .eax = .error k → exec (.idiv divisor) s = .next (s.takeFault k)) ∧
    ∀ lo, s.readReg .eax = .ok lo →
    (∀ k, s.readReg .edx = .error k → exec (.idiv divisor) s = .next (s.takeFault k)) ∧
    ∀ hi, s.readReg .edx = .ok hi →
    (∀ q r, div64 (hi ++ lo) (widenTo32 s.cfg.narrowExt divisor.width v) = .ok q r →
      ∃ t, exec (.idiv divisor) s = .next t ∧ t.readReg .eax = .ok q ∧ t.readReg .edx = .ok r ∧
        t.flags = ⟨.undef, .undef, .undef, .undef, .undef, s.flags.DF⟩ ∧ t.mem = s.mem ∧ t.ip = s.ip + 1) ∧
    (div64 (hi ++ lo) (widenTo32 s.cfg.narrowExt divisor.width v) = .divZero →
      exec (.idiv divisor) s = .next (s.takeFault .divideByZero)) ∧
    (div64 (hi ++ lo) (widenTo32 s.cfg.narrowExt divisor.width v) = .divOverflow →
      exec (.idiv divisor) s = .next (s.takeFault .divideOverflow))

/-- STD, CLD, STC and CLC (R161 to R164) complete in every state: one flag written, ip advanced, nothing else changed. Their slots
are 2C, 2D, 2E and 2F in W0. -/
def Obligations.FlagControlCompletes : Prop :=
  ∀ s : State,
    exec .std s = .next { s with flags := { s.flags with DF := .val true }, ip := s.ip + 1 } ∧
    exec .cld s = .next { s with flags := { s.flags with DF := .val false }, ip := s.ip + 1 } ∧
    exec .stc s = .next { s with flags := { s.flags with CF := .val true }, ip := s.ip + 1 } ∧
    exec .clc s = .next { s with flags := { s.flags with CF := .val false }, ip := s.ip + 1 } ∧
    decode ⟨0x2C, 0, 0⟩ = .ok .std ∧ decode ⟨0x2D, 0, 0⟩ = .ok .cld ∧ decode ⟨0x2E, 0, 0⟩ = .ok .stc ∧
    decode ⟨0x2F, 0, 0⟩ = .ok .clc

/-- JMP and the sixteen jumps on flags (R171 to R190) complete: ip is the target when the predicate of R172 holds and ip + 1
otherwise, and nothing else changes. -/
def Obligations.JumpsComplete : Prop :=
  ∀ (s : State) (t : Imm) (c z o g p : Bool),
    exec (.jmp t) s = .next { s with ip := immValue t } ∧ (immValue t).toNat = t.value.toNat % 2 ^ (8 * t.width.bytes) ∧
    (s.flags.OF = .val o → exec (.jo t) s = .next { s with ip := if o then immValue t else s.ip + 1 }) ∧
    (s.flags.OF = .val o → exec (.jno t) s = .next { s with ip := if o then s.ip + 1 else immValue t }) ∧
    (s.flags.SF = .val g → exec (.js t) s = .next { s with ip := if g then immValue t else s.ip + 1 }) ∧
    (s.flags.SF = .val g → exec (.jns t) s = .next { s with ip := if g then s.ip + 1 else immValue t }) ∧
    (s.flags.ZF = .val z → exec (.je t) s = .next { s with ip := if z then immValue t else s.ip + 1 }) ∧
    (s.flags.ZF = .val z → exec (.jne t) s = .next { s with ip := if z then s.ip + 1 else immValue t }) ∧
    (s.flags.CF = .val c → exec (.jb t) s = .next { s with ip := if c then immValue t else s.ip + 1 }) ∧
    (s.flags.CF = .val c → exec (.jnb t) s = .next { s with ip := if c then s.ip + 1 else immValue t }) ∧
    (s.flags.CF = .val c → s.flags.ZF = .val z →
      exec (.jbe t) s = .next { s with ip := if c = true ∨ z = true then immValue t else s.ip + 1 }) ∧
    (s.flags.CF = .val c → s.flags.ZF = .val z →
      exec (.ja t) s = .next { s with ip := if c = false ∧ z = false then immValue t else s.ip + 1 }) ∧
    (s.flags.SF = .val g → s.flags.OF = .val o →
      exec (.jl t) s = .next { s with ip := if g ≠ o then immValue t else s.ip + 1 }) ∧
    (s.flags.SF = .val g → s.flags.OF = .val o →
      exec (.jge t) s = .next { s with ip := if g = o then immValue t else s.ip + 1 }) ∧
    (s.flags.ZF = .val z → s.flags.SF = .val g → s.flags.OF = .val o →
      exec (.jle t) s = .next { s with ip := if z = true ∨ g ≠ o then immValue t else s.ip + 1 }) ∧
    (s.flags.ZF = .val z → s.flags.SF = .val g → s.flags.OF = .val o →
      exec (.jg t) s = .next { s with ip := if z = false ∧ g = o then immValue t else s.ip + 1 }) ∧
    (s.flags.PF = .val p → exec (.jp t) s = .next { s with ip := if p then immValue t else s.ip + 1 }) ∧
    (s.flags.PF = .val p → exec (.jnp t) s = .next { s with ip := if p then s.ip + 1 else immValue t })

/-- A conditional jump one of whose inputs is `undef` takes UnwrittenRead, even when the others would decide (R171). -/
def Obligations.JumpOnUndefFlagFaults : Prop :=
  ∀ (s : State) (cond : Cond) (t : Imm), Content.undef ∈ cond.inputs s.flags →
    exec (cond.instr t) s = .next (s.takeFault .unwrittenRead)

/-- JCXZ and JECXZ (R191, R192) complete: JECXZ tests ECX; JCXZ tests ECX, or CX when CXZ_WIDTH = 16. A counter with an `undef` byte
is UnwrittenRead. Their slots at width 4 are 29E and 29F in W0. -/
def Obligations.CounterJumpsComplete : Prop :=
  ∀ (s : State) (t : Imm) (v : Word),
    (∀ c, s.readReg .ecx = .ok c → exec (.jecxz t) s = .next { s with ip := if c = 0 then immValue t else s.ip + 1 }) ∧
    (s.readReg .ecx = .error .unwrittenRead → exec (.jecxz t) s = .next (s.takeFault .unwrittenRead)) ∧
    (∀ c, s.cfg.cxzWidth = .bits32 → s.readReg .ecx = .ok c →
      exec (.jcxz t) s = .next { s with ip := if c = 0 then immValue t else s.ip + 1 }) ∧
    (s.cfg.cxzWidth = .bits32 → s.readReg .ecx = .error .unwrittenRead →
      exec (.jcxz t) s = .next (s.takeFault .unwrittenRead)) ∧
    (∀ x, s.cfg.cxzWidth = .bits16 → s.readReg .cx = .ok x →
      exec (.jcxz t) s = .next { s with ip := if x = 0 then immValue t else s.ip + 1 }) ∧
    (s.cfg.cxzWidth = .bits16 → s.readReg .cx = .error .unwrittenRead →
      exec (.jcxz t) s = .next (s.takeFault .unwrittenRead)) ∧
    encode (.jcxz ⟨.w4, v⟩) = ⟨0x29E, v, 0⟩ ∧ encode (.jecxz ⟨.w4, v⟩) = ⟨0x29F, v, 0⟩

/-- LOOP, LOOPE and LOOPNE (R193 to R195) complete: ECX is decremented mod 2^32, the jump is taken while it is not 0 (and ZF is set,
or clear), and no flag is written. An `undef` ZF or an ECX with an `undef` byte is UnwrittenRead. Their slots at width 4 are 28A,
28B and 28C in W0. -/
def Obligations.LoopsComplete : Prop :=
  ∀ (s : State) (t : Imm) (v : Word),
    (∀ c, s.readReg .ecx = .ok c →
      exec (.loop t) s = .next { s.writeReg .ecx (c - 1) with ip := if c ≠ 1 then immValue t else s.ip + 1 } ∧
      ∀ z, s.flags.ZF = .val z →
        exec (.loope t) s = .next
          { s.writeReg .ecx (c - 1) with ip := if c ≠ 1 ∧ z = true then immValue t else s.ip + 1 } ∧
        exec (.loopne t) s = .next
          { s.writeReg .ecx (c - 1) with ip := if c ≠ 1 ∧ z = false then immValue t else s.ip + 1 }) ∧
    (s.readReg .ecx = .error .unwrittenRead →
      exec (.loop t) s = .next (s.takeFault .unwrittenRead) ∧ exec (.loope t) s = .next (s.takeFault .unwrittenRead) ∧
      exec (.loopne t) s = .next (s.takeFault .unwrittenRead)) ∧
    (s.flags.ZF = .undef →
      exec (.loope t) s = .next (s.takeFault .unwrittenRead) ∧ exec (.loopne t) s = .next (s.takeFault .unwrittenRead)) ∧
    encode (.loop ⟨.w4, v⟩) = ⟨0x28A, v, 0⟩ ∧ encode (.loope ⟨.w4, v⟩) = ⟨0x28B, v, 0⟩ ∧
    encode (.loopne ⟨.w4, v⟩) = ⟨0x28C, v, 0⟩

/-- PUSH (R112) completes: the value, read before ESP moves, is at ESP − 4, and ESP is 4 lower. -/
def Obligations.PushCompletes : Prop :=
  ∀ (s : State) (src : Source) (v sp : Word),
    s.readSource .w4 src = .ok v → s.readReg .esp = .ok sp → 4 ≤ sp.toNat → sp.toNat ≤ s.cfg.memSize →
    exec (.push src) s = .next { (s.storeWord (sp.toNat - 4) 4 v).writeReg .esp (sp - 4) with ip := s.ip + 1 }

/-- POP (R113) completes: the 4 bytes at ESP are written to the target, whose address comes from the state before the pop, after
ESP has moved up by 4; a pop into ESP leaves the popped value there. -/
def Obligations.PopCompletes : Prop :=
  ∀ (s : State) (dst : Place) (g : Target) (sp : Word),
    s.readReg .esp = .ok sp → sp.toNat + 4 ≤ s.cfg.memSize → s.resolve dst = .ok g → s.CanWrite .w4 g →
    exec (.pop dst) s = .next
      { (s.writeReg .esp (sp + 4)).written .w4 (s.loadWord sp.toNat 4) g with ip := s.ip + 1 }

/-- CALL (R196) and RET (R197) complete: CALL stores ip + 1 at ESP − 4 and jumps; RET jumps to the 4 bytes at ESP. -/
def Obligations.CallAndRetComplete : Prop :=
  ∀ (s : State) (t : Imm) (sp : Word), s.readReg .esp = .ok sp →
    (4 ≤ sp.toNat → sp.toNat ≤ s.cfg.memSize →
      exec (.call t) s = .next
        { (s.storeWord (sp.toNat - 4) 4 (s.ip + 1)).writeReg .esp (sp - 4) with ip := immValue t }) ∧
    (sp.toNat + 4 ≤ s.cfg.memSize →
      exec .ret s = .next { s.writeReg .esp (sp + 4) with ip := s.loadWord sp.toNat 4 })

/-- ENTER (R198) and LEAVE (R199) complete: ENTER stores EBP at ESP − 4 and sets ESP and EBP to that address; LEAVE reads EBP back
from EBP (LEAVE_MODE = x86) or from ESP (pop_only) and sets ESP above it. -/
def Obligations.EnterAndLeaveComplete : Prop :=
  ∀ (s : State) (sp bp : Word),
    (s.readReg .esp = .ok sp → s.readReg .ebp = .ok bp → 4 ≤ sp.toNat → sp.toNat ≤ s.cfg.memSize →
      exec .enter s = .next
        { ((s.storeWord (sp.toNat - 4) 4 bp).writeReg .esp (sp - 4)).writeReg .ebp (sp - 4) with ip := s.ip + 1 }) ∧
    (s.cfg.leaveMode = .x86 → s.readReg .ebp = .ok bp → bp.toNat + 4 ≤ s.cfg.memSize →
      exec .leave s = .next
        { (s.writeReg .esp (bp + 4)).writeReg .ebp (s.loadWord bp.toNat 4) with ip := s.ip + 1 }) ∧
    (s.cfg.leaveMode = .popOnly → s.readReg .esp = .ok sp → sp.toNat + 4 ≤ s.cfg.memSize →
      exec .leave s = .next
        { (s.writeReg .esp (sp + 4)).writeReg .ebp (s.loadWord sp.toNat 4) with ip := s.ip + 1 })

/-- An operand or a stack slot that cannot be reached, read or written ends the instruction in that fault, in the order its
pseudocode reads: the target's address, then its old value, then the source, then CF for ADC and SBB (R58, R54, R111, R126, R128,
R130, R135, R136, R152, R154); for PUSH its operand, then ESP, then the write (R112); for POP ESP, the target's address, the read
at ESP, the target's write (R113); for CALL, RET, ENTER and LEAVE their registers, then the access (R196 to R199). A 4-byte push
below address 0 or at MEM_SIZE and above is MemoryOutOfRange, one that begins inside memory and ends outside it is MemoryOverflow,
and so for a pop. -/
def Obligations.OperandAndStackFaultsAreTaken : Prop :=
  (∀ (s : State) (dst : Place) (src : Source) (op : AluOp) (k : Fault), s.resolve dst = .error k →
    exec (.mov dst src) s = .next (s.takeFault k) ∧ exec (op.instr dst src) s = .next (s.takeFault k) ∧
      exec (.cmp dst src) s = .next (s.takeFault k) ∧ exec (.inc dst) s = .next (s.takeFault k) ∧
      exec (.dec dst) s = .next (s.takeFault k)) ∧
  (∀ (s : State) (dst : Place) (src : Source) (op : AluOp) (k : Fault), s.readPlace dst.width dst = .error k →
    exec (op.instr dst src) s = .next (s.takeFault k) ∧ exec (.cmp dst src) s = .next (s.takeFault k) ∧
      exec (.inc dst) s = .next (s.takeFault k) ∧ exec (.dec dst) s = .next (s.takeFault k) ∧
      exec (.imul dst) s = .next (s.takeFault k) ∧ exec (.idiv dst) s = .next (s.takeFault k)) ∧
  (∀ (s : State) (dst : Place) (src : Source) (op : AluOp) (g : Target) (a : Word) (k : Fault),
    s.resolve dst = .ok g → s.readSource dst.width src = .error k →
    exec (.mov dst src) s = .next (s.takeFault k) ∧
      (s.readTarget dst.width g = .ok a →
        exec (op.instr dst src) s = .next (s.takeFault k) ∧ exec (.cmp dst src) s = .next (s.takeFault k))) ∧
  (∀ (s : State) (dst : Place) (src : Source) (g : Target) (a b : Word),
    s.resolve dst = .ok g → s.readTarget dst.width g = .ok a → s.readSource dst.width src = .ok b → s.flags.CF = .undef →
    exec (.adc dst src) s = .next (s.takeFault .unwrittenRead) ∧
      exec (.sbb dst src) s = .next (s.takeFault .unwrittenRead)) ∧
  (∀ (s : State) (dst : Place) (src : Source) (a : Int) (v : Word) (k : Fault),
    s.resolve dst = .ok (.mem a) → s.readSource dst.width src = .ok v → s.memWrite a dst.width.bytes v = .error k →
    exec (.mov dst src) s = .next (s.takeFault k)) ∧
  (∀ (s : State) (src : Source) (k : Fault), s.readSource .w4 src = .error k →
    exec (.push src) s = .next (s.takeFault k)) ∧
  (∀ s : State, s.readReg .esp = .error .unwrittenRead →
    s.PushesTake .unwrittenRead ∧ s.PopsTake .unwrittenRead) ∧
  (∀ s : State, s.readReg .ebp = .error .unwrittenRead →
    exec .enter s = .next (s.takeFault .unwrittenRead) ∧
      (s.cfg.leaveMode = .x86 → exec .leave s = .next (s.takeFault .unwrittenRead))) ∧
  (∀ (s : State) (sp : Word) (dst : Place) (k : Fault), s.readReg .esp = .ok sp → s.resolve dst = .error k →
    exec (.pop dst) s = .next (s.takeFault k)) ∧
  (∀ (s : State) (sp : Word) (dst : Place) (a : Int) (k : Fault), s.readReg .esp = .ok sp → sp.toNat + 4 ≤ s.cfg.memSize →
    s.resolve dst = .ok (.mem a) → checkAccess s.cfg.memSize a 4 = .error k →
    exec (.pop dst) s = .next (s.takeFault k)) ∧
  (∀ (s : State) (sp : Word), s.readReg .esp = .ok sp →
    (sp.toNat < 4 ∨ s.cfg.memSize + 4 ≤ sp.toNat → s.PushesTake .memoryOutOfRange) ∧
    (4 ≤ sp.toNat → s.cfg.memSize < sp.toNat → sp.toNat < s.cfg.memSize + 4 → s.PushesTake .memoryOverflow) ∧
    (s.cfg.memSize ≤ sp.toNat → s.PopsTake .memoryOutOfRange) ∧
    (sp.toNat < s.cfg.memSize → s.cfg.memSize < sp.toNat + 4 → s.PopsTake .memoryOverflow)) ∧
  ∀ (s : State) (bp : Word), s.cfg.leaveMode = .x86 → s.readReg .ebp = .ok bp →
    (s.cfg.memSize ≤ bp.toNat → exec .leave s = .next (s.takeFault .memoryOutOfRange)) ∧
    (bp.toNat < s.cfg.memSize → s.cfg.memSize < bp.toNat + 4 → exec .leave s = .next (s.takeFault .memoryOverflow))

/-- INT (R211): code 1 emits Print of EAX; code 2 emits PrintString of the bytes from EAX up to the first zero byte, or takes
MemoryOutOfRange when there is none below MEM_SIZE; both take UnwrittenRead when EAX has an `undef` byte; any other code takes
UnknownInterrupt. Its slot at width 4 is 282 in W0. -/
def Obligations.IntCompletesOrFaults : Prop :=
  ∀ (s : State) (code : Imm) (v : Word),
    (∀ a, immValue code = 1 → s.readReg .eax = .ok a →
      exec (.int code) s = .next { s with events := s.events ++ [.print a], ip := s.ip + 1 }) ∧
    (∀ a n, immValue code = 2 → s.readReg .eax = .ok a → (∀ k < n, s.mem.get (a.toNat + k) ≠ 0) →
      s.mem.get (a.toNat + n) = 0 → a.toNat + n < s.cfg.memSize →
      exec (.int code) s = .next
        { s with events := s.events ++ [.printString ((List.range n).map fun k => s.mem.get (a.toNat + k))], ip := s.ip + 1 }) ∧
    (∀ a, immValue code = 2 → s.readReg .eax = .ok a → (∀ x, a.toNat ≤ x → x < s.cfg.memSize → s.mem.get x ≠ 0) →
      exec (.int code) s = .next (s.takeFault .memoryOutOfRange)) ∧
    (immValue code = 1 ∨ immValue code = 2 → s.readReg .eax = .error .unwrittenRead →
      exec (.int code) s = .next (s.takeFault .unwrittenRead)) ∧
    (immValue code ≠ 1 → immValue code ≠ 2 → exec (.int code) s = .next (s.takeFault .unknownInterrupt)) ∧
    encode (.int ⟨.w4, v⟩) = ⟨0x282, v, 0⟩

/-- HLT (R212) completes in every state: halted, the pending tick cleared, Exit emitted, ip advanced, nothing else changed. Its slot
is 3 in W0. -/
def Obligations.HltCompletes : Prop :=
  ∀ s : State,
    exec .hlt s = .next { s with sched := .halted, pendingTick := false, events := s.events ++ [.exit], ip := s.ip + 1 } ∧
      decode ⟨3, 0, 0⟩ = .ok .hlt

/-! ### What each instruction leaves unchanged -/

/-- MOV, the ALU instructions with write-back, INC and DEC change only their destination (a register's view, or the bytes at the
address `resolve` gives), ip and the flags their rules name: none for MOV; never DF; not CF for INC and DEC when
INCDEC_CF = preserved (10_state.md R34). -/
def Obligations.FrameOfWriteBackInstructions : Prop :=
  ∀ (s t : State) (dst : Place) (src : Source) (op : AluOp),
    (exec (.mov dst src) s = .next t →
      FaultTaken s t ∨
        (OnlyDestination dst.width dst [] s t ∧ t.flags = s.flags ∧ SameFixed s t ∧ SameScheduler s t)) ∧
    (exec (op.instr dst src) s = .next t →
      FaultTaken s t ∨
        (OnlyDestination dst.width dst [] s t ∧ t.flags.DF = s.flags.DF ∧ SameFixed s t ∧ SameScheduler s t)) ∧
    (exec (.inc dst) s = .next t ∨ exec (.dec dst) s = .next t →
      FaultTaken s t ∨
        (OnlyDestination dst.width dst [] s t ∧ t.flags.DF = s.flags.DF ∧
          (s.cfg.incDecCF = .preserved → t.flags.CF = s.flags.CF) ∧ SameFixed s t ∧ SameScheduler s t))

/-- CMP, the jumps and the flag-control instructions change no register and no memory byte: CMP leaves DF, the jumps leave every
flag, STD and CLD leave all but DF, STC and CLC all but CF (10_state.md R34, 44_control_flow.md R173). -/
def Obligations.FrameOfInstructionsThatStoreNothing : Prop :=
  ∀ (s t : State) (dst : Place) (src : Source) (cond : Cond) (c : Imm),
    (exec (.cmp dst src) s = .next t →
      FaultTaken s t ∨
        (SameRegsBut [] s t ∧ SameMemory s t ∧ t.flags.DF = s.flags.DF ∧ SameFixed s t ∧ SameScheduler s t)) ∧
    (exec (.jmp c) s = .next t ∨ exec (cond.instr c) s = .next t ∨ exec (.jcxz c) s = .next t ∨ exec (.jecxz c) s = .next t →
      FaultTaken s t ∨
        (SameRegsBut [] s t ∧ SameMemory s t ∧ t.flags = s.flags ∧ SameFixed s t ∧ SameScheduler s t)) ∧
    (exec .std s = .next t ∨ exec .cld s = .next t →
      SameRegsBut [] s t ∧ SameMemory s t ∧ t.flags = { s.flags with DF := t.flags.DF } ∧ SameFixed s t ∧ SameScheduler s t) ∧
    (exec .stc s = .next t ∨ exec .clc s = .next t →
      SameRegsBut [] s t ∧ SameMemory s t ∧ t.flags = { s.flags with CF := t.flags.CF } ∧ SameFixed s t ∧ SameScheduler s t)

/-- IMUL and IDIV change no register but EAX and EDX and leave DF; LOOP, LOOPE and LOOPNE change no register but ECX and no flag;
none of them stores to memory (R152, R154, R193 to R195). -/
def Obligations.FrameOfMultiplyDivideAndLoops : Prop :=
  ∀ (s t : State) (p : Place) (c : Imm),
    (exec (.imul p) s = .next t ∨ exec (.idiv p) s = .next t →
      FaultTaken s t ∨
        (SameRegsBut [.eax, .edx] s t ∧ SameMemory s t ∧ t.flags.DF = s.flags.DF ∧ SameFixed s t ∧ SameScheduler s t)) ∧
    (exec (.loop c) s = .next t ∨ exec (.loope c) s = .next t ∨ exec (.loopne c) s = .next t →
      FaultTaken s t ∨
        (SameRegsBut [.ecx] s t ∧ SameMemory s t ∧ t.flags = s.flags ∧ SameFixed s t ∧ SameScheduler s t))

/-- PUSH, CALL and ENTER store the 4 bytes at uint(ESP) − 4 and no other, change no register but ESP (and EBP for ENTER), and no
flag (R112, R196, R198). -/
def Obligations.FrameOfPushingInstructions : Prop :=
  ∀ (s t : State) (src : Source) (c : Imm),
    (exec (.push src) s = .next t ∨ exec (.call c) s = .next t →
      FaultTaken s t ∨
        (SameRegsBut [.esp] s t ∧ t.flags = s.flags ∧ SameFixed s t ∧ SameScheduler s t ∧
          ∀ sp, s.readReg .esp = .ok sp → SameMemoryBut ((sp.toNat : Int) - 4) 4 s t)) ∧
    (exec .enter s = .next t →
      FaultTaken s t ∨
        (SameRegsBut [.esp, .ebp] s t ∧ t.flags = s.flags ∧ SameFixed s t ∧ SameScheduler s t ∧
          ∀ sp, s.readReg .esp = .ok sp → SameMemoryBut ((sp.toNat : Int) - 4) 4 s t))

/-- POP changes its destination, whose address comes from the state before it, and ESP; RET changes ESP; LEAVE changes ESP and EBP;
RET and LEAVE store nothing, and none writes a flag (R113, R197, R199). -/
def Obligations.FrameOfPoppingInstructions : Prop :=
  ∀ (s t : State) (dst : Place),
    (exec (.pop dst) s = .next t →
      FaultTaken s t ∨
        (OnlyDestination .w4 dst [.esp] s t ∧ t.flags = s.flags ∧ SameFixed s t ∧ SameScheduler s t)) ∧
    (exec .ret s = .next t →
      FaultTaken s t ∨
        (SameRegsBut [.esp] s t ∧ SameMemory s t ∧ t.flags = s.flags ∧ SameFixed s t ∧ SameScheduler s t)) ∧
    (exec .leave s = .next t →
      FaultTaken s t ∨
        (SameRegsBut [.esp, .ebp] s t ∧ SameMemory s t ∧ t.flags = s.flags ∧ SameFixed s t ∧ SameScheduler s t))

/-- INT and HLT change no register, no flag and no memory byte; INT leaves the scheduler, the pending tick and the fault mark, and
appends one event; HLT leaves the fault mark (R211, R212). -/
def Obligations.FrameOfSystemInstructions : Prop :=
  ∀ (s t : State) (code : Imm),
    (exec (.int code) s = .next t →
      FaultTaken s t ∨
        (SameRegsBut [] s t ∧ SameMemory s t ∧ t.flags = s.flags ∧ SameFixed s t ∧ t.sched = s.sched ∧
          t.pendingTick = s.pendingTick ∧ t.faultMark = s.faultMark ∧ ∃ e, t.events = s.events ++ [e])) ∧
    (exec .hlt s = .next t →
      SameRegsBut [] s t ∧ SameMemory s t ∧ t.flags = s.flags ∧ SameFixed s t ∧ t.faultMark = s.faultMark)

/-! ### Instructions together -/

/-- CMP of two 4-byte operands, then a signed jump: JL, JGE, JLE and JG are taken as the operands compare as two's-complement
numbers (R131, R185 to R188). -/
def Obligations.CompareThenSignedJump : Prop :=
  ∀ (s : State) (dst : Place) (src : Source) (a b : Word) (c : Imm),
    dst.width = .w4 → s.readPlace .w4 dst = .ok a → s.readSource .w4 src = .ok b →
    ∃ t, exec (.cmp dst src) s = .next t ∧
      exec (.jl c) t = .next { t with ip := if a.toInt < b.toInt then immValue c else t.ip + 1 } ∧
      exec (.jge c) t = .next { t with ip := if b.toInt ≤ a.toInt then immValue c else t.ip + 1 } ∧
      exec (.jle c) t = .next { t with ip := if a.toInt ≤ b.toInt then immValue c else t.ip + 1 } ∧
      exec (.jg c) t = .next { t with ip := if b.toInt < a.toInt then immValue c else t.ip + 1 }

/-- CMP of two 4-byte operands, then an unsigned jump or an equality jump: JB, JNB, JBE, JA, JE and JNE are taken as the operands
compare as unsigned numbers (R131, R179 to R184). -/
def Obligations.CompareThenUnsignedJump : Prop :=
  ∀ (s : State) (dst : Place) (src : Source) (a b : Word) (c : Imm),
    dst.width = .w4 → s.readPlace .w4 dst = .ok a → s.readSource .w4 src = .ok b →
    ∃ t, exec (.cmp dst src) s = .next t ∧
      exec (.jb c) t = .next { t with ip := if a.toNat < b.toNat then immValue c else t.ip + 1 } ∧
      exec (.jnb c) t = .next { t with ip := if b.toNat ≤ a.toNat then immValue c else t.ip + 1 } ∧
      exec (.jbe c) t = .next { t with ip := if a.toNat ≤ b.toNat then immValue c else t.ip + 1 } ∧
      exec (.ja c) t = .next { t with ip := if b.toNat < a.toNat then immValue c else t.ip + 1 } ∧
      exec (.je c) t = .next { t with ip := if a = b then immValue c else t.ip + 1 } ∧
      exec (.jne c) t = .next { t with ip := if a = b then t.ip + 1 else immValue c }

/-- ADD of the low words, then ADC of the high words, is the 64-bit sum (R127, R128), for any two 4-byte destinations that share no
storage and any 4-byte sources, where the ADD leaves the address of the high destination and the value of its source as they were. -/
def Obligations.AddThenAdcIsTheSixtyFourBitSum : Prop :=
  ∀ (s : State) (dl dh : Place) (sl sh : Source) (gl gh : Target) (lo hi lo2 hi2 : Word),
    s.mem.wf = true → dl.width = .w4 → dh.width = .w4 → s.resolve dl = .ok gl → s.resolve dh = .ok gh → gl.Apart gh →
    s.readTarget .w4 gl = .ok lo → s.readTarget .w4 gh = .ok hi → s.readSource .w4 sl = .ok lo2 →
    s.readSource .w4 sh = .ok hi2 →
    ∃ t, exec (.add dl sl) s = .next t ∧
      (t.resolve dh = .ok gh → t.readSource .w4 sh = .ok hi2 →
        ∃ u l h, exec (.adc dh sh) t = .next u ∧ u.readTarget .w4 gl = .ok l ∧ u.readTarget .w4 gh = .ok h ∧
          (h ++ l : BitVec 64) = (hi ++ lo : BitVec 64) + (hi2 ++ lo2 : BitVec 64))

/-- On the stack, whatever the byte order: PUSH then POP into another 4-byte register moves the value and restores ESP (R112, R113);
CALL then RET comes back to the slot after the call (R196, R197); ENTER then LEAVE restores EBP and ESP in both modes of LEAVE
(R198, R199). -/
def Obligations.StackRoundTrips : Prop :=
  ∀ (s : State) (sp : Word), s.mem.wf = true → s.readReg .esp = .ok sp → 4 ≤ sp.toNat → sp.toNat ≤ s.cfg.memSize →
    (∀ (src : Source) (r : Reg) (v : Word), r.width = .w4 → r ≠ .esp → s.readSource .w4 src = .ok v →
      ∃ t u, exec (.push src) s = .next t ∧ exec (.pop (.reg r)) t = .next u ∧ u.readReg r = .ok v ∧
        u.readReg .esp = .ok sp) ∧
    (∀ c : Imm, ∃ t u, exec (.call c) s = .next t ∧ t.ip = immValue c ∧ exec .ret t = .next u ∧ u.ip = s.ip + 1 ∧
      u.readReg .esp = .ok sp ∧ u.flags = s.flags) ∧
    (∀ bp : Word, s.readReg .ebp = .ok bp →
      ∃ t u, exec .enter s = .next t ∧ t.readReg .ebp = .ok (sp - 4) ∧ t.readReg .esp = .ok (sp - 4) ∧
        exec .leave t = .next u ∧ u.readReg .ebp = .ok bp ∧ u.readReg .esp = .ok sp)
end

