-- ==== Sys2Proof/Laws/Bits.lean ====
section
/-! SUPPORT. Splitting a word into bytes and joining them again. -/

namespace Sys2Proof

@[simp] theorem Width.bits_w1 : Width.w1.bits = 8 := rfl
@[simp] theorem Width.bits_w2 : Width.w2.bits = 16 := rfl
@[simp] theorem Width.bits_w4 : Width.w4.bits = 32 := rfl

@[simp] theorem bytesOf_length (n : Nat) (v : Word) : (bytesOf n v).length = n := by
  induction n generalizing v with
  | zero => rfl
  | succ n ih => simp [bytesOf, ih]

theorem Width.bytes_pos (w : Width) : 0 < w.bytes := by cases w <;> decide

theorem Width.bytes_le (w : Width) : w.bytes ≤ 4 := by cases w <;> decide

/-- The bits of a word joined from the low bytes of another. -/
theorem getLsbD_wordOf_bytesOf (n : Nat) (v : Word) (i : Nat) :
    (wordOf (bytesOf n v)).getLsbD i = (decide (i < 8 * n) && v.getLsbD i) := by
  induction n generalizing v i with
  | zero => simp [bytesOf, wordOf]
  | succ n ih =>
    simp only [bytesOf, wordOf, BitVec.getLsbD_or, BitVec.getLsbD_shiftLeft, ih, BitVec.getLsbD_ushiftRight,
      BitVec.getLsbD_setWidth]
    by_cases h32 : i < 32
    · by_cases h8 : i < 8
      · have : i < 8 * (n + 1) := by omega
        simp only [h32, h8, this, decide_true, Bool.not_true, Bool.and_false, Bool.false_and, Bool.false_or, Bool.true_and]
      · have hi : 8 + (i - 8) = i := by omega
        have hn : (i - 8 < 8 * n) = (i < 8 * (n + 1)) := propext (by omega)
        simp only [h32, h8, hi, hn, decide_true, decide_false, Bool.not_false, Bool.false_and, Bool.or_false, Bool.true_and,
          Bool.and_false]
    · simp only [BitVec.getLsbD_of_ge v i (Nat.le_of_not_lt h32), h32, decide_false, Bool.false_and, Bool.and_false,
        Bool.or_false]

theorem getLsbD_truncTo (w : Width) (v : Word) (i : Nat) :
    (truncTo w v).getLsbD i = (decide (i < 8 * w.bytes) && v.getLsbD i) := by
  by_cases h32 : i < 32
  · simp [truncTo, Width.bits, h32]
  · simp [BitVec.getLsbD_of_ge _ i (Nat.le_of_not_lt h32)]

/-- Joining the bytes a word was split into gives its low bytes. -/
theorem wordOf_bytesOf (w : Width) (v : Word) : wordOf (bytesOf w.bytes v) = truncTo w v := by
  apply BitVec.eq_of_getLsbD_eq
  intro i _
  rw [getLsbD_wordOf_bytesOf, getLsbD_truncTo]

@[simp] theorem truncTo_w4 (v : Word) : truncTo .w4 v = v := by simp [truncTo]

@[simp] theorem wordOf_bytesOf_four (v : Word) : wordOf (bytesOf 4 v) = v := by
  rw [show 4 = Width.w4.bytes from rfl, wordOf_bytesOf, truncTo_w4]

/-- Byte `k` of the split word is bits 8k+7:8k. -/
theorem getElem_bytesOf (n : Nat) (v : Word) (k : Nat) (h : k < (bytesOf n v).length) :
    (bytesOf n v)[k] = v.extractLsb' (8 * k) 8 := by
  induction n generalizing v k with
  | zero => simp [bytesOf] at h
  | succ n ih =>
    cases k with
    | zero =>
      apply BitVec.eq_of_getLsbD_eq
      intro i hi
      simp [bytesOf]
    | succ k =>
      simp only [bytesOf, List.getElem_cons_succ]
      rw [ih]
      apply BitVec.eq_of_getLsbD_eq
      intro i hi
      simp only [BitVec.getLsbD_extractLsb', BitVec.getLsbD_ushiftRight]
      congr 2
      omega

/-- Bits 8k+7:8k of a joined word are byte `k`. -/
theorem extract_wordOf (bs : List Byte) (k : Nat) (h : k < bs.length) (h4 : k < 4) :
    (wordOf bs).extractLsb' (8 * k) 8 = bs[k] := by
  induction bs generalizing k with
  | nil => simp at h
  | cons b bs ih =>
    apply BitVec.eq_of_getLsbD_eq
    intro i hi
    simp only [wordOf, BitVec.getLsbD_extractLsb', BitVec.getLsbD_or, BitVec.getLsbD_shiftLeft, BitVec.getLsbD_setWidth, hi,
      decide_true, Bool.true_and]
    cases k with
    | zero =>
      have h32 : 8 * 0 + i < 32 := by omega
      have h8 : 8 * 0 + i < 8 := by omega
      simp only [h32, h8, decide_true, Bool.not_true, Bool.and_false, Bool.false_and, Bool.false_or, Bool.true_and,
        List.getElem_cons_zero]
      congr 1
      omega
    | succ k =>
      have h' : k < bs.length := by simpa using h
      have hk := congrArg (fun x => BitVec.getLsbD x i) (ih k h' (by omega))
      simp only [BitVec.getLsbD_extractLsb', hi, decide_true, Bool.true_and] at hk
      have e : 8 * (k + 1) + i - 8 = 8 * k + i := by omega
      have l : 8 * (k + 1) + i < 32 := by omega
      have g : ¬ 8 * (k + 1) + i < 8 := by omega
      simp only [l, g, e, hk, decide_true, decide_false, Bool.not_false, Bool.true_and, List.getElem_cons_succ,
        BitVec.getLsbD_of_ge b _ (Nat.le_of_not_lt g), Bool.or_false]

end Sys2Proof
end

