-- ==== Sys2Proof/Laws/State.lean ====
section
/-! SUPPORT. One lemma per field per update of the state, so that no proof unfolds a record update. -/

namespace Sys2Proof.Machine

/-! ### writeReg -/

@[simp] theorem State.writeReg_cfg (s : State) (r : Reg) (v : Word) : (s.writeReg r v).cfg = s.cfg := rfl
@[simp] theorem State.writeReg_regs (s : State) (r : Reg) (v : Word) : (s.writeReg r v).regs = s.regs.writeView r.view v := rfl
@[simp] theorem State.writeReg_ip (s : State) (r : Reg) (v : Word) : (s.writeReg r v).ip = s.ip := rfl
@[simp] theorem State.writeReg_flags (s : State) (r : Reg) (v : Word) : (s.writeReg r v).flags = s.flags := rfl
@[simp] theorem State.writeReg_mem (s : State) (r : Reg) (v : Word) : (s.writeReg r v).mem = s.mem := rfl
@[simp] theorem State.writeReg_program (s : State) (r : Reg) (v : Word) : (s.writeReg r v).program = s.program := rfl
@[simp] theorem State.writeReg_definitions (s : State) (r : Reg) (v : Word) : (s.writeReg r v).definitions = s.definitions := rfl
@[simp] theorem State.writeReg_started (s : State) (r : Reg) (v : Word) : (s.writeReg r v).started = s.started := rfl
@[simp] theorem State.writeReg_sched (s : State) (r : Reg) (v : Word) : (s.writeReg r v).sched = s.sched := rfl
@[simp] theorem State.writeReg_breakpoints (s : State) (r : Reg) (v : Word) : (s.writeReg r v).breakpoints = s.breakpoints := rfl
@[simp] theorem State.writeReg_visited (s : State) (r : Reg) (v : Word) : (s.writeReg r v).visited = s.visited := rfl
@[simp] theorem State.writeReg_pendingTick (s : State) (r : Reg) (v : Word) : (s.writeReg r v).pendingTick = s.pendingTick := rfl
@[simp] theorem State.writeReg_faultMark (s : State) (r : Reg) (v : Word) : (s.writeReg r v).faultMark = s.faultMark := rfl
@[simp] theorem State.writeReg_events (s : State) (r : Reg) (v : Word) : (s.writeReg r v).events = s.events := rfl

/-! ### storeWord -/

@[simp] theorem State.storeWord_cfg (s : State) (a n : Nat) (v : Word) : (s.storeWord a n v).cfg = s.cfg := rfl
@[simp] theorem State.storeWord_regs (s : State) (a n : Nat) (v : Word) : (s.storeWord a n v).regs = s.regs := rfl
@[simp] theorem State.storeWord_ip (s : State) (a n : Nat) (v : Word) : (s.storeWord a n v).ip = s.ip := rfl
@[simp] theorem State.storeWord_flags (s : State) (a n : Nat) (v : Word) : (s.storeWord a n v).flags = s.flags := rfl
@[simp] theorem State.storeWord_mem (s : State) (a n : Nat) (v : Word) : (s.storeWord a n v).mem = s.mem.setBytes a (memoryOrder s.cfg.endian (bytesOf n v)) := rfl
@[simp] theorem State.storeWord_program (s : State) (a n : Nat) (v : Word) : (s.storeWord a n v).program = s.program := rfl
@[simp] theorem State.storeWord_definitions (s : State) (a n : Nat) (v : Word) : (s.storeWord a n v).definitions = s.definitions := rfl
@[simp] theorem State.storeWord_started (s : State) (a n : Nat) (v : Word) : (s.storeWord a n v).started = s.started := rfl
@[simp] theorem State.storeWord_sched (s : State) (a n : Nat) (v : Word) : (s.storeWord a n v).sched = s.sched := rfl
@[simp] theorem State.storeWord_breakpoints (s : State) (a n : Nat) (v : Word) : (s.storeWord a n v).breakpoints = s.breakpoints := rfl
@[simp] theorem State.storeWord_visited (s : State) (a n : Nat) (v : Word) : (s.storeWord a n v).visited = s.visited := rfl
@[simp] theorem State.storeWord_pendingTick (s : State) (a n : Nat) (v : Word) : (s.storeWord a n v).pendingTick = s.pendingTick := rfl
@[simp] theorem State.storeWord_faultMark (s : State) (a n : Nat) (v : Word) : (s.storeWord a n v).faultMark = s.faultMark := rfl
@[simp] theorem State.storeWord_events (s : State) (a n : Nat) (v : Word) : (s.storeWord a n v).events = s.events := rfl

/-! ### emit -/

@[simp] theorem State.emit_cfg (s : State) (e : Event) : (s.emit e).cfg = s.cfg := rfl
@[simp] theorem State.emit_regs (s : State) (e : Event) : (s.emit e).regs = s.regs := rfl
@[simp] theorem State.emit_ip (s : State) (e : Event) : (s.emit e).ip = s.ip := rfl
@[simp] theorem State.emit_flags (s : State) (e : Event) : (s.emit e).flags = s.flags := rfl
@[simp] theorem State.emit_mem (s : State) (e : Event) : (s.emit e).mem = s.mem := rfl
@[simp] theorem State.emit_program (s : State) (e : Event) : (s.emit e).program = s.program := rfl
@[simp] theorem State.emit_definitions (s : State) (e : Event) : (s.emit e).definitions = s.definitions := rfl
@[simp] theorem State.emit_started (s : State) (e : Event) : (s.emit e).started = s.started := rfl
@[simp] theorem State.emit_sched (s : State) (e : Event) : (s.emit e).sched = s.sched := rfl
@[simp] theorem State.emit_breakpoints (s : State) (e : Event) : (s.emit e).breakpoints = s.breakpoints := rfl
@[simp] theorem State.emit_visited (s : State) (e : Event) : (s.emit e).visited = s.visited := rfl
@[simp] theorem State.emit_pendingTick (s : State) (e : Event) : (s.emit e).pendingTick = s.pendingTick := rfl
@[simp] theorem State.emit_faultMark (s : State) (e : Event) : (s.emit e).faultMark = s.faultMark := rfl
@[simp] theorem State.emit_events (s : State) (e : Event) : (s.emit e).events = s.events ++ [e] := rfl

/-! ### jumpTo -/

@[simp] theorem State.jumpTo_cfg (s : State) (t : Word) : (s.jumpTo t).cfg = s.cfg := rfl
@[simp] theorem State.jumpTo_regs (s : State) (t : Word) : (s.jumpTo t).regs = s.regs := rfl
@[simp] theorem State.jumpTo_ip (s : State) (t : Word) : (s.jumpTo t).ip = t := rfl
@[simp] theorem State.jumpTo_flags (s : State) (t : Word) : (s.jumpTo t).flags = s.flags := rfl
@[simp] theorem State.jumpTo_mem (s : State) (t : Word) : (s.jumpTo t).mem = s.mem := rfl
@[simp] theorem State.jumpTo_program (s : State) (t : Word) : (s.jumpTo t).program = s.program := rfl
@[simp] theorem State.jumpTo_definitions (s : State) (t : Word) : (s.jumpTo t).definitions = s.definitions := rfl
@[simp] theorem State.jumpTo_started (s : State) (t : Word) : (s.jumpTo t).started = s.started := rfl
@[simp] theorem State.jumpTo_sched (s : State) (t : Word) : (s.jumpTo t).sched = s.sched := rfl
@[simp] theorem State.jumpTo_breakpoints (s : State) (t : Word) : (s.jumpTo t).breakpoints = s.breakpoints := rfl
@[simp] theorem State.jumpTo_visited (s : State) (t : Word) : (s.jumpTo t).visited = s.visited := rfl
@[simp] theorem State.jumpTo_pendingTick (s : State) (t : Word) : (s.jumpTo t).pendingTick = s.pendingTick := rfl
@[simp] theorem State.jumpTo_faultMark (s : State) (t : Word) : (s.jumpTo t).faultMark = s.faultMark := rfl
@[simp] theorem State.jumpTo_events (s : State) (t : Word) : (s.jumpTo t).events = s.events := rfl

/-! ### advance -/

@[simp] theorem State.advance_cfg (s : State) : (s.advance).cfg = s.cfg := rfl
@[simp] theorem State.advance_regs (s : State) : (s.advance).regs = s.regs := rfl
@[simp] theorem State.advance_ip (s : State) : (s.advance).ip = s.ip + 1 := rfl
@[simp] theorem State.advance_flags (s : State) : (s.advance).flags = s.flags := rfl
@[simp] theorem State.advance_mem (s : State) : (s.advance).mem = s.mem := rfl
@[simp] theorem State.advance_program (s : State) : (s.advance).program = s.program := rfl
@[simp] theorem State.advance_definitions (s : State) : (s.advance).definitions = s.definitions := rfl
@[simp] theorem State.advance_started (s : State) : (s.advance).started = s.started := rfl
@[simp] theorem State.advance_sched (s : State) : (s.advance).sched = s.sched := rfl
@[simp] theorem State.advance_breakpoints (s : State) : (s.advance).breakpoints = s.breakpoints := rfl
@[simp] theorem State.advance_visited (s : State) : (s.advance).visited = s.visited := rfl
@[simp] theorem State.advance_pendingTick (s : State) : (s.advance).pendingTick = s.pendingTick := rfl
@[simp] theorem State.advance_faultMark (s : State) : (s.advance).faultMark = s.faultMark := rfl
@[simp] theorem State.advance_events (s : State) : (s.advance).events = s.events := rfl

/-! ### takeFault -/

@[simp] theorem State.takeFault_cfg (s : State) (k : Fault) : (s.takeFault k).cfg = s.cfg := rfl
@[simp] theorem State.takeFault_regs (s : State) (k : Fault) : (s.takeFault k).regs = s.regs := rfl
@[simp] theorem State.takeFault_ip (s : State) (k : Fault) : (s.takeFault k).ip = s.ip := rfl
@[simp] theorem State.takeFault_flags (s : State) (k : Fault) : (s.takeFault k).flags = s.flags := rfl
@[simp] theorem State.takeFault_mem (s : State) (k : Fault) : (s.takeFault k).mem = s.mem := rfl
@[simp] theorem State.takeFault_program (s : State) (k : Fault) : (s.takeFault k).program = s.program := rfl
@[simp] theorem State.takeFault_definitions (s : State) (k : Fault) : (s.takeFault k).definitions = s.definitions := rfl
@[simp] theorem State.takeFault_started (s : State) (k : Fault) : (s.takeFault k).started = s.started := rfl
@[simp] theorem State.takeFault_sched (s : State) (k : Fault) : (s.takeFault k).sched = .paused := rfl
@[simp] theorem State.takeFault_breakpoints (s : State) (k : Fault) : (s.takeFault k).breakpoints = s.breakpoints := rfl
@[simp] theorem State.takeFault_visited (s : State) (k : Fault) : (s.takeFault k).visited = s.visited := rfl
@[simp] theorem State.takeFault_pendingTick (s : State) (k : Fault) : (s.takeFault k).pendingTick = false := rfl
@[simp] theorem State.takeFault_faultMark (s : State) (k : Fault) : (s.takeFault k).faultMark = true := rfl
@[simp] theorem State.takeFault_events (s : State) (k : Fault) : (s.takeFault k).events = s.events ++ [.error k s.ip] := rfl

/-! ### setDF -/

@[simp] theorem State.setDF_cfg (s : State) (b : Bool) : (s.setDF b).cfg = s.cfg := rfl
@[simp] theorem State.setDF_regs (s : State) (b : Bool) : (s.setDF b).regs = s.regs := rfl
@[simp] theorem State.setDF_ip (s : State) (b : Bool) : (s.setDF b).ip = s.ip := rfl
@[simp] theorem State.setDF_flags (s : State) (b : Bool) : (s.setDF b).flags = { s.flags with DF := .val b } := rfl
@[simp] theorem State.setDF_mem (s : State) (b : Bool) : (s.setDF b).mem = s.mem := rfl
@[simp] theorem State.setDF_program (s : State) (b : Bool) : (s.setDF b).program = s.program := rfl
@[simp] theorem State.setDF_definitions (s : State) (b : Bool) : (s.setDF b).definitions = s.definitions := rfl
@[simp] theorem State.setDF_started (s : State) (b : Bool) : (s.setDF b).started = s.started := rfl
@[simp] theorem State.setDF_sched (s : State) (b : Bool) : (s.setDF b).sched = s.sched := rfl
@[simp] theorem State.setDF_breakpoints (s : State) (b : Bool) : (s.setDF b).breakpoints = s.breakpoints := rfl
@[simp] theorem State.setDF_visited (s : State) (b : Bool) : (s.setDF b).visited = s.visited := rfl
@[simp] theorem State.setDF_pendingTick (s : State) (b : Bool) : (s.setDF b).pendingTick = s.pendingTick := rfl
@[simp] theorem State.setDF_faultMark (s : State) (b : Bool) : (s.setDF b).faultMark = s.faultMark := rfl
@[simp] theorem State.setDF_events (s : State) (b : Bool) : (s.setDF b).events = s.events := rfl

/-! ### setCF -/

@[simp] theorem State.setCF_cfg (s : State) (b : Bool) : (s.setCF b).cfg = s.cfg := rfl
@[simp] theorem State.setCF_regs (s : State) (b : Bool) : (s.setCF b).regs = s.regs := rfl
@[simp] theorem State.setCF_ip (s : State) (b : Bool) : (s.setCF b).ip = s.ip := rfl
@[simp] theorem State.setCF_flags (s : State) (b : Bool) : (s.setCF b).flags = { s.flags with CF := .val b } := rfl
@[simp] theorem State.setCF_mem (s : State) (b : Bool) : (s.setCF b).mem = s.mem := rfl
@[simp] theorem State.setCF_program (s : State) (b : Bool) : (s.setCF b).program = s.program := rfl
@[simp] theorem State.setCF_definitions (s : State) (b : Bool) : (s.setCF b).definitions = s.definitions := rfl
@[simp] theorem State.setCF_started (s : State) (b : Bool) : (s.setCF b).started = s.started := rfl
@[simp] theorem State.setCF_sched (s : State) (b : Bool) : (s.setCF b).sched = s.sched := rfl
@[simp] theorem State.setCF_breakpoints (s : State) (b : Bool) : (s.setCF b).breakpoints = s.breakpoints := rfl
@[simp] theorem State.setCF_visited (s : State) (b : Bool) : (s.setCF b).visited = s.visited := rfl
@[simp] theorem State.setCF_pendingTick (s : State) (b : Bool) : (s.setCF b).pendingTick = s.pendingTick := rfl
@[simp] theorem State.setCF_faultMark (s : State) (b : Bool) : (s.setCF b).faultMark = s.faultMark := rfl
@[simp] theorem State.setCF_events (s : State) (b : Bool) : (s.setCF b).events = s.events := rfl

/-! ### writePair -/

@[simp] theorem State.writePair_cfg (s : State) (lo hi : Word) : (s.writePair lo hi).cfg = s.cfg := rfl
@[simp] theorem State.writePair_regs (s : State) (lo hi : Word) : (s.writePair lo hi).regs = (s.regs.writeView Reg.eax.view lo).writeView Reg.edx.view hi := rfl
@[simp] theorem State.writePair_ip (s : State) (lo hi : Word) : (s.writePair lo hi).ip = s.ip := rfl
@[simp] theorem State.writePair_flags (s : State) (lo hi : Word) : (s.writePair lo hi).flags = s.flags.afterMulDiv := rfl
@[simp] theorem State.writePair_mem (s : State) (lo hi : Word) : (s.writePair lo hi).mem = s.mem := rfl
@[simp] theorem State.writePair_program (s : State) (lo hi : Word) : (s.writePair lo hi).program = s.program := rfl
@[simp] theorem State.writePair_definitions (s : State) (lo hi : Word) : (s.writePair lo hi).definitions = s.definitions := rfl
@[simp] theorem State.writePair_started (s : State) (lo hi : Word) : (s.writePair lo hi).started = s.started := rfl
@[simp] theorem State.writePair_sched (s : State) (lo hi : Word) : (s.writePair lo hi).sched = s.sched := rfl
@[simp] theorem State.writePair_breakpoints (s : State) (lo hi : Word) : (s.writePair lo hi).breakpoints = s.breakpoints := rfl
@[simp] theorem State.writePair_visited (s : State) (lo hi : Word) : (s.writePair lo hi).visited = s.visited := rfl
@[simp] theorem State.writePair_pendingTick (s : State) (lo hi : Word) : (s.writePair lo hi).pendingTick = s.pendingTick := rfl
@[simp] theorem State.writePair_faultMark (s : State) (lo hi : Word) : (s.writePair lo hi).faultMark = s.faultMark := rfl
@[simp] theorem State.writePair_events (s : State) (lo hi : Word) : (s.writePair lo hi).events = s.events := rfl

/-! ### endOfProgram -/

@[simp] theorem State.endOfProgram_cfg (s : State) : (s.endOfProgram).cfg = s.cfg := rfl
@[simp] theorem State.endOfProgram_regs (s : State) : (s.endOfProgram).regs = s.regs := rfl
@[simp] theorem State.endOfProgram_ip (s : State) : (s.endOfProgram).ip = s.ip := rfl
@[simp] theorem State.endOfProgram_flags (s : State) : (s.endOfProgram).flags = s.flags := rfl
@[simp] theorem State.endOfProgram_mem (s : State) : (s.endOfProgram).mem = s.mem := rfl
@[simp] theorem State.endOfProgram_program (s : State) : (s.endOfProgram).program = s.program := rfl
@[simp] theorem State.endOfProgram_definitions (s : State) : (s.endOfProgram).definitions = s.definitions := rfl
@[simp] theorem State.endOfProgram_started (s : State) : (s.endOfProgram).started = s.started := rfl
@[simp] theorem State.endOfProgram_sched (s : State) : (s.endOfProgram).sched = .halted := rfl
@[simp] theorem State.endOfProgram_breakpoints (s : State) : (s.endOfProgram).breakpoints = s.breakpoints := rfl
@[simp] theorem State.endOfProgram_visited (s : State) : (s.endOfProgram).visited = s.visited := rfl
@[simp] theorem State.endOfProgram_pendingTick (s : State) : (s.endOfProgram).pendingTick = false := rfl
@[simp] theorem State.endOfProgram_faultMark (s : State) : (s.endOfProgram).faultMark = s.faultMark := rfl
@[simp] theorem State.endOfProgram_events (s : State) : (s.endOfProgram).events = s.events ++ [.exit] := rfl

/-! ### pauseAtBreakpoint -/

@[simp] theorem State.pauseAtBreakpoint_cfg (s : State) : (s.pauseAtBreakpoint).cfg = s.cfg := rfl
@[simp] theorem State.pauseAtBreakpoint_regs (s : State) : (s.pauseAtBreakpoint).regs = s.regs := rfl
@[simp] theorem State.pauseAtBreakpoint_ip (s : State) : (s.pauseAtBreakpoint).ip = s.ip := rfl
@[simp] theorem State.pauseAtBreakpoint_flags (s : State) : (s.pauseAtBreakpoint).flags = s.flags := rfl
@[simp] theorem State.pauseAtBreakpoint_mem (s : State) : (s.pauseAtBreakpoint).mem = s.mem := rfl
@[simp] theorem State.pauseAtBreakpoint_program (s : State) : (s.pauseAtBreakpoint).program = s.program := rfl
@[simp] theorem State.pauseAtBreakpoint_definitions (s : State) : (s.pauseAtBreakpoint).definitions = s.definitions := rfl
@[simp] theorem State.pauseAtBreakpoint_started (s : State) : (s.pauseAtBreakpoint).started = s.started := rfl
@[simp] theorem State.pauseAtBreakpoint_sched (s : State) : (s.pauseAtBreakpoint).sched = .paused := rfl
@[simp] theorem State.pauseAtBreakpoint_breakpoints (s : State) : (s.pauseAtBreakpoint).breakpoints = s.breakpoints := rfl
@[simp] theorem State.pauseAtBreakpoint_visited (s : State) : (s.pauseAtBreakpoint).visited = true := rfl
@[simp] theorem State.pauseAtBreakpoint_pendingTick (s : State) : (s.pauseAtBreakpoint).pendingTick = false := rfl
@[simp] theorem State.pauseAtBreakpoint_faultMark (s : State) : (s.pauseAtBreakpoint).faultMark = s.faultMark := rfl
@[simp] theorem State.pauseAtBreakpoint_events (s : State) : (s.pauseAtBreakpoint).events = s.events := rfl

/-! ### branch -/

@[simp] theorem State.branch_cfg (s : State) (c : Bool) (t : Word) : (s.branch c t).cfg = s.cfg := by cases c <;> rfl
@[simp] theorem State.branch_regs (s : State) (c : Bool) (t : Word) : (s.branch c t).regs = s.regs := by cases c <;> rfl
@[simp] theorem State.branch_ip (s : State) (c : Bool) (t : Word) : (s.branch c t).ip = if c then t else s.ip + 1 := by
  cases c <;> rfl
@[simp] theorem State.branch_flags (s : State) (c : Bool) (t : Word) : (s.branch c t).flags = s.flags := by cases c <;> rfl
@[simp] theorem State.branch_mem (s : State) (c : Bool) (t : Word) : (s.branch c t).mem = s.mem := by cases c <;> rfl
@[simp] theorem State.branch_program (s : State) (c : Bool) (t : Word) : (s.branch c t).program = s.program := by cases c <;> rfl
@[simp] theorem State.branch_definitions (s : State) (c : Bool) (t : Word) : (s.branch c t).definitions = s.definitions := by cases c <;> rfl
@[simp] theorem State.branch_started (s : State) (c : Bool) (t : Word) : (s.branch c t).started = s.started := by cases c <;> rfl
@[simp] theorem State.branch_sched (s : State) (c : Bool) (t : Word) : (s.branch c t).sched = s.sched := by cases c <;> rfl
@[simp] theorem State.branch_breakpoints (s : State) (c : Bool) (t : Word) : (s.branch c t).breakpoints = s.breakpoints := by cases c <;> rfl
@[simp] theorem State.branch_visited (s : State) (c : Bool) (t : Word) : (s.branch c t).visited = s.visited := by cases c <;> rfl
@[simp] theorem State.branch_pendingTick (s : State) (c : Bool) (t : Word) : (s.branch c t).pendingTick = s.pendingTick := by cases c <;> rfl
@[simp] theorem State.branch_faultMark (s : State) (c : Bool) (t : Word) : (s.branch c t).faultMark = s.faultMark := by cases c <;> rfl
@[simp] theorem State.branch_events (s : State) (c : Bool) (t : Word) : (s.branch c t).events = s.events := by cases c <;> rfl

end Sys2Proof.Machine
end

