-- ==== Sys2Proof/Laws/Registers.lean ====
section
/-! SUPPORT. The laws of the register file: a view that is written is read back, and every byte outside it stays. -/

namespace Sys2Proof.Machine

theorem RegFile.bank_setBank (f : RegFile) (n m : Fin 10) (b : Bank) :
    (f.setBank n b).bank m = if n = m then b else f.bank m := by
  fin_cases n <;> fin_cases m <;> rfl

theorem Bank.byte_setByte (b : Bank) (j k : Fin 4) (x : RegByte) :
    (b.setByte j x).byte k = if j = k then x else b.byte k := by
  fin_cases j <;> fin_cases k <;> rfl

theorem RegFile.byte_setByte (f : RegFile) (n m : Fin 10) (j k : Fin 4) (x : RegByte) :
    (f.setByte n j x).byte m k = if n = m ∧ j = k then x else f.byte m k := by
  simp only [RegFile.byte, RegFile.setByte, RegFile.bank_setBank]
  by_cases h : n = m
  · subst h; simp [Bank.byte_setByte]
  · simp [h]

/-- Two register files with the same bytes are equal. -/
theorem RegFile.ext_byte (f g : RegFile) (h : ∀ n k, f.byte n k = g.byte n k) : f = g := by
  have hb : ∀ n, f.bank n = g.bank n := by
    intro n
    have h0 := h n 0
    have h1 := h n 1
    have h2 := h n 2
    have h3 := h n 3
    simp only [RegFile.byte, Bank.byte] at h0 h1 h2 h3
    cases hf : f.bank n
    cases hg : g.bank n
    simp_all
  cases f
  cases g
  have := hb 0
  have := hb 1
  have := hb 2
  have := hb 3
  have := hb 4
  have := hb 5
  have := hb 6
  have := hb 7
  have := hb 8
  have := hb 9
  simp_all [RegFile.bank]

/-! ### Except -/

@[simp] theorem ok_bind {ε α β : Type} (a : α) (g : α → Except ε β) : (Except.ok a >>= g) = g a := rfl
@[simp] theorem error_bind {ε α β : Type} (k : ε) (g : α → Except ε β) : (Except.error k >>= g) = Except.error k := rfl
@[simp] theorem pure_ok {ε α : Type} (a : α) : (pure a : Except ε α) = .ok a := rfl

theorem bind_ok {ε α β : Type} {x : Except ε α} {g : α → Except ε β} {r : β} :
    (x >>= g) = .ok r ↔ ∃ a, x = .ok a ∧ g a = .ok r := by
  cases x <;> simp

theorem bind_error {ε α β : Type} {x : Except ε α} {g : α → Except ε β} {k : ε} :
    (x >>= g) = .error k ↔ x = .error k ∨ ∃ a, x = .ok a ∧ g a = .error k := by
  cases x <;> simp

/-! ### Contents -/

@[simp] theorem Content.read_val {α : Type} (a : α) : (Content.val a).read = .ok a := rfl
@[simp] theorem Content.read_undef {α : Type} : (Content.undef : Content α).read = .error .unwrittenRead := rfl

theorem Content.read_ok {α : Type} {c : Content α} {a : α} : c.read = .ok a ↔ c = .val a := by
  cases c <;> simp [Content.read]

theorem Content.read_error {α : Type} {c : Content α} {k : Fault} : c.read = .error k ↔ c = .undef ∧ k = .unwrittenRead := by
  cases c <;> simp [Content.read, eq_comm]

/-! ### Runs of bytes -/

@[simp] theorem byteIndex_val (o : Nat) : (byteIndex o).val = o % 4 := rfl

theorem byteIndex_eq_iff (o : Nat) (h : o < 4) (k : Fin 4) : byteIndex o = k ↔ o = k.val := by
  rw [Fin.ext_iff, byteIndex_val, Nat.mod_eq_of_lt h]

theorem RegFile.readBytes_ok (f : RegFile) (n : Fin 10) (o c : Nat) (bs : List Byte) :
    f.readBytes n o c = .ok bs ↔ bs.length = c ∧ ∀ k, ∀ h : k < bs.length, f.byte n (byteIndex (o + k)) = .val bs[k] := by
  induction c generalizing o bs with
  | zero =>
    cases bs <;> simp [RegFile.readBytes]
  | succ c ih =>
    simp only [RegFile.readBytes, bind_ok, Content.read_ok, ih, pure_ok, Except.ok.injEq]
    constructor
    · rintro ⟨b, hb, bs', ⟨hl, hk⟩, rfl⟩
      refine ⟨by simp [hl], ?_⟩
      intro k h
      cases k with
      | zero => simpa using hb
      | succ k =>
        have := hk k (by simpa using h)
        rw [show o + (k + 1) = o + 1 + k by omega]
        simpa using this
    · rintro ⟨hl, hk⟩
      cases bs with
      | nil => simp at hl
      | cons b bs' =>
        refine ⟨b, hk 0 (by simp), bs', ⟨by simpa using hl, ?_⟩, rfl⟩
        intro k h
        have := hk (k + 1) (by simpa using h)
        rw [show o + 1 + k = o + (k + 1) by omega]
        simpa using this

theorem RegFile.readBytes_error (f : RegFile) (n : Fin 10) (o c : Nat) (k : Fault) (h : f.readBytes n o c = .error k) :
    k = .unwrittenRead := by
  induction c generalizing o with
  | zero => simp [RegFile.readBytes] at h
  | succ c ih =>
    simp only [RegFile.readBytes, bind_error, Content.read_error, pure_ok] at h
    rcases h with ⟨_, rfl⟩ | ⟨b, _, h | ⟨_, _, h⟩⟩
    · rfl
    · exact ih _ h
    · simp at h

theorem RegFile.byte_writeBytes (f : RegFile) (n m : Fin 10) (o : Nat) (bs : List Byte) (h4 : o + bs.length ≤ 4) (k : Fin 4) :
    (f.writeBytes n o bs).byte m k =
      if h : n = m ∧ o ≤ k.val ∧ k.val < o + bs.length then .val (bs[k.val - o]'(by omega)) else f.byte m k := by
  induction bs generalizing f o with
  | nil =>
    have : ¬ (n = m ∧ o ≤ k.val ∧ k.val < o + ([] : List Byte).length) := by simp
    rw [dif_neg this]
    rfl
  | cons b bs ih =>
    simp only [List.length_cons] at h4
    simp only [RegFile.writeBytes]
    rw [ih _ _ (by omega), RegFile.byte_setByte]
    by_cases hn : n = m
    · subst hn
      have hi := byteIndex_eq_iff o (by omega) k
      by_cases h1 : o + 1 ≤ k.val ∧ k.val < o + 1 + bs.length
      · have h2 : o ≤ k.val ∧ k.val < o + (b :: bs).length := by simp; omega
        rw [dif_pos ⟨rfl, h1⟩, dif_pos ⟨rfl, h2⟩]
        congr 1
        rw [List.getElem_cons, dif_neg (by omega)]
        congr 1
      · rw [dif_neg (by simp; omega)]
        by_cases h3 : byteIndex o = k
        · have h5 := hi.1 h3
          have h2 : o ≤ k.val ∧ k.val < o + (b :: bs).length := by simp; omega
          rw [if_pos ⟨rfl, h3⟩, dif_pos ⟨rfl, h2⟩]
          simp [h5]
        · have h5 : ¬ o = k.val := fun e => h3 (hi.2 e)
          have h2 : ¬ (o ≤ k.val ∧ k.val < o + (b :: bs).length) := by simp; omega
          rw [if_neg (by simp [h3]), dif_neg (by simpa using h2)]
    · simp [hn]

/-! ### Views -/

/-- Every named view lies inside its bank (10_state.md R23). -/
theorem Reg.view_fits (r : Reg) : r.view.offset + r.view.width.bytes ≤ 4 := by cases r <;> decide

/-- No named view lies in banks 8 and 9 (10_state.md R26). -/
theorem Reg.view_bank_lt (r : Reg) : r.view.bank.val < 8 := by cases r <;> decide

theorem Reg32.view_reg (b : Reg32) : b.reg.view.width = .w4 := by cases b <;> rfl

/-- What a written view leaves in every byte of the register file. -/
theorem RegFile.byte_writeView (f : RegFile) (v : View) (x : Word) (hv : v.offset + v.width.bytes ≤ 4) (m : Fin 10) (k : Fin 4) :
    (f.writeView v x).byte m k =
      if v.Covers m k then .val (x.extractLsb' (8 * (k.val - v.offset)) 8) else f.byte m k := by
  have hl : v.offset + (bytesOf v.width.bytes x).length ≤ 4 := by simpa using hv
  simp only [RegFile.writeView]
  rw [RegFile.byte_writeBytes _ _ _ _ _ hl]
  by_cases h : v.Covers m k
  · have h' : v.bank = m ∧ v.offset ≤ k.val ∧ k.val < v.offset + (bytesOf v.width.bytes x).length := by
      simpa [eq_comm] using h
    rw [dif_pos h', if_pos h, getElem_bytesOf]
  · have h' : ¬ (v.bank = m ∧ v.offset ≤ k.val ∧ k.val < v.offset + (bytesOf v.width.bytes x).length) := by
      simpa [eq_comm] using h
    rw [dif_neg h', if_neg h]

/-- A view outside which every byte stays is read as before. -/
theorem RegFile.readView_congr (f g : RegFile) (v : View) (hv : v.offset + v.width.bytes ≤ 4)
    (h : ∀ k, v.Covers v.bank k → f.byte v.bank k = g.byte v.bank k) : f.readView v = g.readView v := by
  have key : ∀ c o, v.offset ≤ o → o + c ≤ v.offset + v.width.bytes → f.readBytes v.bank o c = g.readBytes v.bank o c := by
    intro c
    induction c with
    | zero => intro o _ _; rfl
    | succ c ih =>
      intro o h1 h2
      have hlt : o < 4 := by omega
      have hb : f.byte v.bank (byteIndex o) = g.byte v.bank (byteIndex o) := by
        apply h
        refine ⟨rfl, ?_, ?_⟩ <;> simp [Nat.mod_eq_of_lt hlt] <;> omega
      simp only [RegFile.readBytes, hb, ih (o + 1) (by omega) (by omega)]
  simp only [RegFile.readView, key v.width.bytes v.offset (Nat.le_refl _) (Nat.le_refl _)]

/-- A written view is read back as the low bytes of the value. -/
theorem RegFile.readView_writeView (f : RegFile) (v : View) (x : Word) (hv : v.offset + v.width.bytes ≤ 4) :
    (f.writeView v x).readView v = .ok (truncTo v.width x) := by
  have : (f.writeView v x).readBytes v.bank v.offset v.width.bytes = .ok (bytesOf v.width.bytes x) := by
    rw [RegFile.readBytes_ok]
    refine ⟨by simp, ?_⟩
    intro k h
    simp only [bytesOf_length] at h
    have hlt : v.offset + k < 4 := by omega
    rw [RegFile.byte_writeView f v x hv, if_pos]
    · rw [getElem_bytesOf]
      simp [Nat.mod_eq_of_lt hlt]
    · refine ⟨rfl, ?_, ?_⟩ <;> simp [Nat.mod_eq_of_lt hlt]
      omega
  simp only [RegFile.readView, this, ok_bind, pure_ok, wordOf_bytesOf]

@[simp] theorem State.readReg_writeReg (s : State) (r : Reg) (x : Word) :
    (s.writeReg r x).readReg r = .ok (truncTo r.width x) :=
  RegFile.readView_writeView s.regs r.view x (Reg.view_fits r)

/-- A register whose view shares no byte with the written one is read as before. -/
theorem State.readReg_writeReg_other (s : State) (r q : Reg) (x : Word)
    (h : ∀ k, q.view.Covers q.view.bank k → ¬ r.view.Covers q.view.bank k) :
    (s.writeReg r x).readReg q = s.readReg q := by
  apply RegFile.readView_congr _ _ _ (Reg.view_fits q)
  intro k hk
  rw [State.writeReg_regs, RegFile.byte_writeView _ _ _ (Reg.view_fits r), if_neg (h k hk)]

/-- Registers of different banks. -/
theorem State.readReg_writeReg_bank (s : State) (r q : Reg) (x : Word) (h : q.view.bank ≠ r.view.bank) :
    (s.writeReg r x).readReg q = s.readReg q :=
  State.readReg_writeReg_other s r q x fun _ _ hc => h hc.1

/-- Reading a register depends on the register file only. -/
theorem State.readReg_congr {s t : State} (h : t.regs = s.regs) (r : Reg) : t.readReg r = s.readReg r := by
  simp only [State.readReg, h]

theorem State.readReg_error {s : State} {r : Reg} {k : Fault} (h : s.readReg r = .error k) : k = .unwrittenRead := by
  simp only [State.readReg, RegFile.readView, bind_error, pure_ok] at h
  rcases h with h | ⟨_, _, h⟩
  · exact RegFile.readBytes_error _ _ _ _ _ h
  · simp at h

/-- When a read answers a value, each of its bytes is a byte of the view (10_state.md R27). -/
theorem State.readReg_ok {s : State} {r : Reg} {v : Word} :
    s.readReg r = .ok v ↔ ∃ bs, s.regs.readBytes r.view.bank r.view.offset r.view.width.bytes = .ok bs ∧ v = wordOf bs := by
  simp only [State.readReg, RegFile.readView, bind_ok, pure_ok, Except.ok.injEq]
  exact ⟨fun ⟨bs, h, e⟩ => ⟨bs, h, e.symm⟩, fun ⟨bs, h, e⟩ => ⟨bs, h, e.symm⟩⟩

theorem sameRegsBut_writeReg (s : State) (r : Reg) (x : Word) : SameRegsBut [r] s (s.writeReg r x) := by
  intro n k h
  rw [State.writeReg_regs, RegFile.byte_writeView _ _ _ (Reg.view_fits r), if_neg (h r (by simp))]

theorem SameRegsBut.trans {rs qs : List Reg} {s t u : State} (h1 : SameRegsBut rs s t) (h2 : SameRegsBut qs t u) :
    SameRegsBut (rs ++ qs) s u := by
  intro n k h
  rw [h2 n k fun r hr => h r (by simp [hr]), h1 n k fun r hr => h r (by simp [hr])]

/-! ### A register in a state whose register file is another's -/

@[simp] theorem State.readReg_jumpTo (s : State) (x : Word) (r : Reg) : (s.jumpTo x).readReg r = s.readReg r := rfl
@[simp] theorem State.readReg_advance (s : State) (r : Reg) : s.advance.readReg r = s.readReg r := rfl
@[simp] theorem State.readReg_emit (s : State) (e : Event) (r : Reg) : (s.emit e).readReg r = s.readReg r := rfl
@[simp] theorem State.readReg_storeWord (s : State) (a n : Nat) (v : Word) (r : Reg) :
    (s.storeWord a n v).readReg r = s.readReg r := rfl
@[simp] theorem State.readReg_takeFault (s : State) (k : Fault) (r : Reg) : (s.takeFault k).readReg r = s.readReg r := rfl
@[simp] theorem State.readReg_branch (s : State) (b : Bool) (x : Word) (r : Reg) : (s.branch b x).readReg r = s.readReg r := by
  cases b <;> rfl

/-- The pair a multiply or a divide writes is read back, low half. -/
@[simp] theorem State.readReg_eax_writePair (s : State) (lo hi : Word) : (s.writePair lo hi).readReg .eax = .ok lo := by
  have : (s.writePair lo hi).readReg .eax = ((s.writeReg .eax lo).writeReg .edx hi).readReg .eax := rfl
  rw [this, State.readReg_writeReg_bank _ _ _ _ (by decide), State.readReg_writeReg, show Reg.eax.width = .w4 from rfl,
    truncTo_w4]

/-- The pair a multiply or a divide writes is read back, high half. -/
@[simp] theorem State.readReg_edx_writePair (s : State) (lo hi : Word) : (s.writePair lo hi).readReg .edx = .ok hi := by
  have : (s.writePair lo hi).readReg .edx = ((s.writeReg .eax lo).writeReg .edx hi).readReg .edx := rfl
  rw [this, State.readReg_writeReg, show Reg.edx.width = .w4 from rfl, truncTo_w4]

end Sys2Proof.Machine
end

