-- ==== Sys2Proof/Machine/Assembler.lean ====
section
/-! DEFINITION. The assembler's contract (30_encoding.md R92, R95, R97 to R106). The assembler is software outside the hardware block
(00_scope.md R5); this file models which program a parsed source stands for. The parser, and so every spelling but those of
mnemonics and registers, is left out (R96; log 25). -/

namespace Sys2Proof.Machine

/-! ### Names -/

/-- The mnemonics of opcodes 0x01 to 0x0C, and their aliases (R91, R92). -/
def mnemonicsFrom01 : List (String × Nat) :=
  [("MOV", 0x01), ("INT", 0x02), ("HLT", 0x03), ("POP", 0x04), ("PUSH", 0x05), ("CALL", 0x06), ("RET", 0x07), ("ENTER", 0x08),
    ("LEAVE", 0x09), ("LOOP", 0x0A), ("LOOPE", 0x0B), ("LOOPZ", 0x0B), ("LOOPNE", 0x0C), ("LOOPNZ", 0x0C)]

/-- The mnemonics of opcodes 0x0D to 0x1F, and their aliases (R91, R92). -/
def mnemonicsFrom0D : List (String × Nat) :=
  [("JMP", 0x0D), ("JO", 0x0E), ("JNO", 0x0F), ("JS", 0x10), ("JNS", 0x11), ("JE", 0x12), ("JZ", 0x12), ("JNE", 0x13),
    ("JNZ", 0x13), ("JB", 0x14), ("JNAE", 0x14), ("JC", 0x14), ("JNB", 0x15), ("JAE", 0x15), ("JNC", 0x15), ("JBE", 0x16),
    ("JNA", 0x16), ("JA", 0x17), ("JNBE", 0x17), ("JL", 0x18), ("JNGE", 0x18), ("JGE", 0x19), ("JNL", 0x19), ("JLE", 0x1A),
    ("JNG", 0x1A), ("JG", 0x1B), ("JNLE", 0x1B), ("JP", 0x1C), ("JPE", 0x1C), ("JNP", 0x1D), ("JPO", 0x1D), ("JCXZ", 0x1E),
    ("JECXZ", 0x1F)]

/-- The mnemonics of opcodes 0x20 to 0x2F (R91). -/
def mnemonicsFrom20 : List (String × Nat) :=
  [("CMP", 0x20), ("ADD", 0x21), ("ADC", 0x22), ("SUB", 0x23), ("SBB", 0x24), ("IDIV", 0x25), ("IMUL", 0x26), ("DEC", 0x27),
    ("INC", 0x28), ("AND", 0x29), ("OR", 0x2A), ("XOR", 0x2B), ("STD", 0x2C), ("CLD", 0x2D), ("STC", 0x2E), ("CLC", 0x2F)]

/-- The value of a key in a list of pairs. -/
def lookupName {α : Type} (n : String) : List (String × α) → Option α
  | [] => none
  | (k, v) :: rest => if k = n then some v else lookupName n rest

/-- Mnemonic lookup: a case-sensitive exact match over the mnemonics and their aliases, to the opcode and its row (R92, R97,
R105). -/
def lookupMnemonic (n : String) : Option (BitVec 6 × OpcodeRow) :=
  match lookupName n (mnemonicsFrom01 ++ mnemonicsFrom0D ++ mnemonicsFrom20) with
  | none => none
  | some opc => (opcodeRow (BitVec.ofNat 6 opc)).map fun row => (BitVec.ofNat 6 opc, row)

/-- The register names, matched exactly (10_state.md R24). -/
def registerNames : List (String × Reg) :=
  [("EAX", .eax), ("ECX", .ecx), ("EDX", .edx), ("EBX", .ebx), ("ESP", .esp), ("EBP", .ebp), ("ESI", .esi), ("EDI", .edi),
    ("AX", .ax), ("CX", .cx), ("DX", .dx), ("BX", .bx), ("SP", .sp), ("BP", .bp), ("SI", .si), ("DI", .di),
    ("AL", .al), ("CL", .cl), ("DL", .dl), ("BL", .bl), ("AH", .ah), ("CH", .ch), ("DH", .dh), ("BH", .bh)]

/-- The 32-bit register names (30_encoding.md R79). -/
def register32Names : List (String × Reg32) :=
  [("EAX", .eax), ("ECX", .ecx), ("EDX", .edx), ("EBX", .ebx), ("ESP", .esp), ("EBP", .ebp), ("ESI", .esi), ("EDI", .edi)]

/-! ### The parsed source -/

/-- A label's name: global, or local to the nearest preceding global label (R96). -/
inductive LabelName
  | global (n : String)
  | local (n : String)
  deriving DecidableEq, Repr

/-- A number or a label where a constant stands (R76, R101). -/
inductive Ref
  | number (n : Int)
  | label (l : LabelName)
  deriving DecidableEq, Repr

/-- An operand as parsed; `cast` is the explicit size cast (R96). The constant term of a memory reference is a number: that it may
not be a label is the model's choice, since R96 writes `(+ constant)?` and R86 does not say whether a label may stand there (DESIGN
CHOICE, log 28). -/
inductive AstOperand
  | reg (cast : Option Width) (name : String)
  | mem (cast : Option Width) (base : String) (index : Option (String × Int)) (disp : Int)
  | const (cast : Option Width) (v : Ref)
  | deref (cast : Option Width) (v : Ref)
  deriving DecidableEq, Repr

/-- One constant of a data line: a number, or a string as its character codes (R102). -/
inductive DataConst
  | number (n : Int)
  | string (codes : List Nat)
  deriving DecidableEq, Repr

/-- A line of the data segment, with its 1-based source line; a null element size makes it a label-only line (R95, R102). -/
structure DataLine where
  label : Option LabelName
  element : Option (Width × List DataConst)
  line : Nat
  deriving DecidableEq, Repr

/-- A line of the text segment: a label, an instruction or both, with its 1-based source line (R103, R106). -/
structure TextLine where
  label : Option LabelName
  instr : Option (String × List AstOperand)
  line : Nat
  deriving DecidableEq, Repr

/-- Why assembly fails; the text of the message is the host's (R95; log 23). -/
inductive AsmError
  /-- "unknown instruction name" (R97) -/
  | unknownMnemonic
  /-- no register of that name, or no 32-bit one as a base or an index (R79, R95) -/
  | unknownRegister
  /-- an index multiplier other than 1, 2, 4 and 8 (R79) -/
  | badMultiplier
  /-- the operand tuple, of whatever length, is no entry of the allow-list: the received and the accepted shapes (R98) -/
  | operandShapes (received : List Shape) (accepted : List (List Shape))
  /-- two explicit widths that differ (R99) -/
  | wrongSizeOfOperands
  /-- a width the instruction does not take: an uncast M or D source beside a target of another width than 4, or an operand of PUSH
  or POP of another width than 4 (R87, R99) -/
  | operandWidth
  /-- a constant outside −2^31 to 2^32 − 1 (R104) -/
  | constantRange
  /-- a repeated global label, or a repeated local label under one owner (R100) -/
  | repeatedLabel
  /-- an undefined name, or a local label without a global one before it (R100) -/
  | unresolvedLabel
  deriving DecidableEq, Repr

/-- AssemblyException: why assembly fails, and the 1-based source line; the first error wins and there is no partial program
(R95). -/
structure AssemblyException where
  message : AsmError
  line : Nat
  deriving DecidableEq, Repr

/-- A failure tied to the source line it stands on (R95, R100). -/
def onLine {α : Type} (line : Nat) : Except AsmError α → Except AssemblyException α
  | .ok a => .ok a
  | .error e => .error ⟨e, line⟩

/-! ### Constants and operands -/

/-- A constant from −2^31 to 2^32 − 1 as its 32-bit pattern; any other fails assembly (R86, R104). -/
def constantWord (n : Int) : Except AsmError Word :=
  if -(2 ^ 31) ≤ n ∧ n ≤ 2 ^ 32 - 1 then .ok (BitVec.ofInt 32 n) else .error .constantRange

/-- The multipliers an index may have (R79). -/
def scaleOfMultiplier (n : Int) : Except AsmError Scale :=
  if n = 1 then .ok .s1 else if n = 2 then .ok .s2 else if n = 4 then .ok .s4 else if n = 8 then .ok .s8
  else .error .badMultiplier

/-- A named item, or the error of a name that is not in the list. -/
def named {α : Type} (e : AsmError) : Option α → Except AsmError α
  | none => .error e
  | some a => .ok a

/-- The shape an operand is classified into (R76). -/
def AstOperand.shape : AstOperand → Shape
  | .reg _ _ => .R
  | .mem _ _ _ _ => .M
  | .const _ _ => .C
  | .deref _ _ => .D

/-- The explicit width of an operand: its size cast, or a register's own, whose cast is ignored (R76, R99). -/
def AstOperand.explicitWidth : AstOperand → Option Width
  | .reg _ n => (lookupName n registerNames).map Reg.width
  | .mem c _ _ _ => c
  | .const c _ => c
  | .deref c _ => c

/-- Whether the operand is a memory or a dereferenced constant (R99). -/
def AstOperand.isMemory : AstOperand → Bool
  | .reg _ _ => false
  | .mem _ _ _ _ => true
  | .const _ _ => false
  | .deref _ _ => true

/-- The value of a constant, its labels resolved by `resolve` (R76, R101). -/
def Ref.word (resolve : LabelName → Except AsmError Word) : Ref → Except AsmError Word
  | .number n => constantWord n
  | .label l => resolve l

/-- An operand at a width (R76 to R80). -/
def AstOperand.operand (resolve : LabelName → Except AsmError Word) (w : Width) : AstOperand → Except AsmError Operand
  | .reg _ n => do
    let r ← named .unknownRegister (lookupName n registerNames)
    return .reg r
  | .mem _ b none d => do
    let base ← named .unknownRegister (lookupName b register32Names)
    let disp ← constantWord d
    return .mem w ⟨base, none, disp⟩
  | .mem _ b (some (i, m)) d => do
    let base ← named .unknownRegister (lookupName b register32Names)
    let index ← named .unknownRegister (lookupName i register32Names)
    let scale ← scaleOfMultiplier m
    let disp ← constantWord d
    return .mem w ⟨base, some (index, scale), disp⟩
  | .const _ v => do
    let x ← v.word resolve
    return .const w x
  | .deref _ v => do
    let x ← v.word resolve
    return .deref w x

/-- The default width: 4 bytes (R99). -/
def defaultWidth (w : Option Width) : Width := w.getD .w4

/-- The widths of two operands: a memory or dereferenced first operand without a cast takes the second's, two explicit widths that
differ fail, and any other width defaults to 4 (R99). -/
def inferWidths (o1 o2 : AstOperand) : Except AsmError (Width × Width) :=
  match o1.explicitWidth, o2.explicitWidth with
  | some a, some b => if a = b then .ok (a, b) else .error .wrongSizeOfOperands
  | none, b => if o1.isMemory then .ok (defaultWidth b, defaultWidth b) else .ok (.w4, defaultWidth b)
  | some a, none => .ok (a, .w4)

/-- The operands of an instruction line at their widths, an explicit cast kept on every shape that has one (R99). No allow-list has
a tuple of more than two (R90). -/
def assembleOperands (resolve : LabelName → Except AsmError Word) : List AstOperand → Except AsmError (List Operand)
  | [] => .ok []
  | [o] => do
    let p ← o.operand resolve (defaultWidth o.explicitWidth)
    return [p]
  | o1 :: o2 :: _ => do
    let ws ← inferWidths o1 o2
    let p1 ← o1.operand resolve ws.1
    let p2 ← o2.operand resolve ws.2
    return [p1, p2]

/-- A slot the decoder accepts. After the tuple is checked, the width rules are all that can be left to fail (R87, R95, R99). -/
def emitted (s : Slot) : Except AsmError Slot :=
  match decode s with
  | .ok _ => .ok s
  | .error _ => .error .operandWidth

/-- An instruction line's slot: lookup, shapes, widths (R97 to R99). -/
def assembleInstr (resolve : LabelName → Except AsmError Word) (mnemonic : String) (ops : List AstOperand) :
    Except AsmError Slot := do
  let (opc, row) ← named .unknownMnemonic (lookupMnemonic mnemonic)
  if ops.map AstOperand.shape ∈ row.tuples then do
    let ps ← assembleOperands resolve ops
    emitted (slotOf opc ps)
  else .error (.operandShapes (ops.map AstOperand.shape) row.tuples)

/-! ### Labels -/

/-- A recorded label: its owner (the global label before it, for a local one), its name and its address (R100, R101). -/
structure LabelRecord where
  owner : Option String
  name : LabelName
  addr : Nat
  deriving DecidableEq, Repr

/-- The single resolver of the walk: what is recorded, and the global label recorded last (R100). -/
structure Resolver where
  records : List LabelRecord
  current : Option String
  deriving DecidableEq, Repr

/-- The owner a name has when it stands after `current`: none for a global name, `current` for a local one (R100). -/
def LabelName.ownerAfter (current : Option String) : LabelName → Option String
  | .global _ => none
  | .local _ => current

/-- A label recorded at an address; a repeated global label, or a repeated local label under one owner, fails (R100). A local label
DEFINED before any global label has no owner: R100 refuses the references to it and says nothing of the definition. That it is
recorded without an owner, accepted when nothing refers to it, and refused as repeated when it stands there twice, is the model's
choice (DESIGN CHOICE, log 27). -/
def Resolver.record (r : Resolver) (l : LabelName) (addr : Nat) : Except AsmError Resolver :=
  let owner := l.ownerAfter r.current
  if r.records.any (fun x => x.name = l ∧ x.owner = owner) then .error .repeatedLabel
  else
    .ok ⟨r.records ++ [⟨owner, l, addr⟩],
      match l with
      | .global n => some n
      | .local _ => r.current⟩

/-- A line's label, if it has one, recorded at an address. -/
def Resolver.recordLabel (r : Resolver) (l : Option LabelName) (addr : Nat) : Except AsmError Resolver :=
  match l with
  | none => .ok r
  | some n => r.record n addr

/-- A reference resolved after both passes: a local name belongs to the global label that comes last before the reference, and a
local name without one, or an undefined name, fails (R100, R101). -/
def resolveLabel (records : List LabelRecord) (current : Option String) (l : LabelName) : Except AsmError Word :=
  match l, current with
  | .local _, none => .error .unresolvedLabel
  | l, current =>
    match records.find? (fun x => x.name = l ∧ x.owner = l.ownerAfter current) with
    | none => .error .unresolvedLabel
    | some x => .ok (BitVec.ofNat 32 x.addr)

/-! ### The two passes -/

/-- The elements of a constant: one for a number in the range of R104, one per character of a string; no terminator is added
(R102). -/
def DataConst.elements : DataConst → Except AsmError (List Int)
  | .number n => do
    let _ ← constantWord n
    return [n]
  | .string codes => .ok (codes.map fun c => (c : Int))

/-- The elements of a comma list of constants, in order (R102). -/
def elementsOf : List DataConst → Except AsmError (List Int)
  | [] => .ok []
  | c :: cs => do
    let es ← c.elements
    let rest ← elementsOf cs
    return es ++ rest

/-- The memory definitions of a list of elements from an address upward, each of exactly `size` bytes (R102). -/
def defineElements (size : Width) : Nat → List Int → List MemDef
  | _, [] => []
  | a, v :: vs => ⟨a, size, v⟩ :: defineElements size (a + size.bytes) vs

/-- The data pass: labels and definitions, the address counter from 0 (R102). -/
def dataPass : Resolver → Nat → List DataLine → Except AssemblyException (Resolver × List MemDef)
  | r, _, [] => .ok (r, [])
  | r, a, d :: ds => do
    let r1 ← onLine d.line (r.recordLabel d.label a)
    match d.element with
    | none => dataPass r1 a ds
    | some (w, cs) => do
      let es ← onLine d.line (elementsOf cs)
      let (r2, rest) ← dataPass r1 (a + w.bytes * es.length) ds
      return (r2, defineElements w a es ++ rest)

/-- An instruction line with the global label before it, its address being its place in the list (R100, R103). -/
structure PendingInstr where
  owner : Option String
  mnemonic : String
  ops : List AstOperand
  line : Nat
  deriving DecidableEq, Repr

/-- The text pass: labels at instruction indices, the counter moving by 1 per instruction. Every line is checked here but for its
label values, which are patched after both passes (R100, R103). -/
def textPass : Resolver → Nat → List TextLine → Except AssemblyException (Resolver × List PendingInstr)
  | r, _, [] => .ok (r, [])
  | r, n, t :: ts => do
    let r1 ← onLine t.line (r.recordLabel t.label n)
    match t.instr with
    | none => textPass r1 n ts
    | some (m, ops) => do
      let _ ← onLine t.line (assembleInstr (fun _ => .ok 0) m ops)
      let (r2, rest) ← textPass r1 (n + 1) ts
      return (r2, ⟨r1.current, m, ops, t.line⟩ :: rest)

/-- The slots, their labels patched; a patch that fails does so on the line of its reference (R100). -/
def patchAll (records : List LabelRecord) : List PendingInstr → Except AssemblyException (List Slot)
  | [] => .ok []
  | p :: ps => do
    let slot ← onLine p.line (assembleInstr (resolveLabel records p.owner) p.mnemonic p.ops)
    let rest ← patchAll records ps
    return slot :: rest

/-- A program: the slots, the memory definitions, and the line of each slot (R95, R106). -/
structure AssembledProgram where
  slots : List Slot
  definitions : List MemDef
  lines : List Nat
  deriving DecidableEq, Repr

/-- `assemble`: both passes, data before text, then the patches (R95, R100). -/
def assemble (data : List DataLine) (text : List TextLine) : Except AssemblyException AssembledProgram := do
  let (r1, defs) ← dataPass ⟨[], none⟩ 0 data
  let (r2, pending) ← textPass r1 0 text
  let slots ← patchAll r2.records pending
  return ⟨slots, defs, pending.map fun p => p.line⟩

/-- The line map by line: the first address on that line, or none (R106). -/
def AssembledProgram.addressOfLine (p : AssembledProgram) (line : Nat) : Option Word :=
  match p.lines.findIdx? (fun l => l = line) with
  | none => none
  | some a => some (BitVec.ofNat 32 a)

/-- The line map by address (R106). -/
def AssembledProgram.lineOfAddress (p : AssembledProgram) (a : Word) : Option Nat := p.lines[a.toNat]?

/-- The breakpoint addresses of a set of source lines: a line with no address is dropped (10_state.md R39, 60_exceptions.md R234). -/
def AssembledProgram.breakpointAddresses (p : AssembledProgram) (lines : List Nat) : List Word :=
  lines.filterMap p.addressOfLine

end Sys2Proof.Machine
end

