-- ==== Sys2Proof/Laws/Assembler.lean ====
section
/-! SUPPORT. What the assembler's operations can do: every slot it emits passes the decoder and has a source line (30_encoding.md R95,
R106), and the tuples it reports as accepted are those the decoder accepts (R90, R98). -/

namespace Sys2Proof.Machine

@[simp] theorem onLine_ok {α : Type} {line : Nat} {x : Except AsmError α} {a : α} : onLine line x = .ok a ↔ x = .ok a := by
  cases x <;> simp [onLine]

/-- A failure on a line names that line. -/
theorem onLine_error {α : Type} {line : Nat} {x : Except AsmError α} {e : AssemblyException} :
    onLine line x = .error e ↔ x = .error e.message ∧ e.line = line := by
  obtain ⟨m, l⟩ := e
  cases x <;> simp [onLine, eq_comm (a := line)]

theorem emitted_ok {s t : Slot} : emitted s = .ok t ↔ t = s ∧ ∃ i, decode s = .ok i := by
  simp only [emitted]
  constructor
  · intro h
    split at h
    · cases h
      exact ⟨rfl, _, ‹_›⟩
    · cases h
  · rintro ⟨rfl, i, hi⟩
    rw [hi]

/-! ### The accepted tuples -/

theorem decodeUnary_shape {row : OpcodeRow} {o : Operand} {i : Instr} (h : decodeUnary row o = .ok i) :
    [o.shape] ∈ row.tuples := by
  cases row <;> cases o <;> simp_all [decodeUnary, Operand.asImm, Operand.asPlace, Operand.shape, OpcodeRow.tuples]

theorem decodeBinary_shape {mk : Place → Source → Instr} {o1 o2 : Operand} {i : Instr} (h : decodeBinary mk o1 o2 = .ok i) :
    [o1.shape, o2.shape] ∈ (OpcodeRow.binary mk).tuples := by
  cases o1 <;> cases o2 <;>
    simp_all [decodeBinary, Operand.asPlace, Operand.asSource, binaryTupleAllowed, Place.isReg, Operand.shape, OpcodeRow.tuples]

/-! ### Every emitted slot decodes -/

theorem assembleInstr_decodes {resolve : LabelName → Except AsmError Word} {m : String} {ops : List AstOperand} {s : Slot}
    (h : assembleInstr resolve m ops = .ok s) : ∃ i, decode s = .ok i := by
  simp only [assembleInstr, bind_ok] at h
  obtain ⟨⟨opc, row⟩, _, h⟩ := h
  split at h
  · simp only [bind_ok] at h
    obtain ⟨ps, _, h⟩ := h
    obtain ⟨rfl, hd⟩ := emitted_ok.1 h
    exact hd
  · cases h

theorem patchAll_ok {records : List LabelRecord} {ps : List PendingInstr} {slots : List Slot}
    (h : patchAll records ps = .ok slots) : slots.length = ps.length ∧ ∀ s ∈ slots, ∃ i, decode s = .ok i := by
  induction ps generalizing slots with
  | nil => cases h; simp
  | cons p ps ih =>
    simp only [patchAll, bind_ok, onLine_ok, pure_ok, Except.ok.injEq] at h
    obtain ⟨s, hs, rest, hr, rfl⟩ := h
    obtain ⟨hl, hd⟩ := ih hr
    refine ⟨by simp [hl], fun x hx => ?_⟩
    rcases List.mem_cons.1 hx with rfl | hx
    · exact assembleInstr_decodes hs
    · exact hd x hx

/-- Every slot of an assembled program passes the decoder, and the line map has an entry for each (R95, R106). -/
theorem assemble_ok {data : List DataLine} {text : List TextLine} {p : AssembledProgram} (h : assemble data text = .ok p) :
    p.slots.length = p.lines.length ∧ ∀ s ∈ p.slots, ∃ i, decode s = .ok i := by
  simp only [assemble, bind_ok, pure_ok, Except.ok.injEq] at h
  obtain ⟨⟨r1, defs⟩, _, ⟨r2, pending⟩, _, slots, hp, rfl⟩ := h
  obtain ⟨hl, hd⟩ := patchAll_ok hp
  exact ⟨by simp [hl], hd⟩

end Sys2Proof.Machine
end

