-- ==== Sys2Proof/Laws/Encoding.lean ====
section
/-! SUPPORT. What changing the width code of a slot's second descriptor leaves (30_encoding.md R73, R75). -/

namespace Sys2Proof

/-- Every other field of the slot is as it was, and the width code is the new one. -/
theorem Slot.withSecondWidthCode_fields (s : Slot) (c : BitVec 2) :
    (s.withSecondWidthCode c).opc = s.opc ∧ (s.withSecondWidthCode c).d1 = s.d1 ∧
      shapeField (s.withSecondWidthCode c).d2 = shapeField s.d2 ∧ shapeBits (s.withSecondWidthCode c).d2 = shapeBits s.d2 ∧
      widthField (s.withSecondWidthCode c).d2 = c := by
  refine ⟨?_, ?_, ?_, ?_, ?_⟩
  all_goals
    simp only [Slot.withSecondWidthCode, Slot.opc, Slot.d1, Slot.d2, shapeField, shapeBits, widthField]
    apply BitVec.eq_of_getLsbD_eq
    intro i hi
    interval_cases i <;> simp

@[simp] theorem Slot.withSecondWidthCode_w1 (s : Slot) (c : BitVec 2) : (s.withSecondWidthCode c).w1 = s.w1 := rfl
@[simp] theorem Slot.withSecondWidthCode_w2 (s : Slot) (c : BitVec 2) : (s.withSecondWidthCode c).w2 = s.w2 := rfl

end Sys2Proof
end

