-- ==== Sys2Proof/Laws/Memory.lean ====
section
/-! SUPPORT. The laws of memory: a write is read back, leaves every other byte, and keeps the canonical form. -/

namespace Sys2Proof.Machine

theorem Memory.wfFrom_cons (lo a : Nat) (b : Byte) (m : Memory) :
    Memory.wfFrom lo ((a, b) :: m) = true ↔ lo ≤ a ∧ b ≠ 0 ∧ Memory.wfFrom (a + 1) m = true := by
  simp [Memory.wfFrom, and_assoc]

theorem Memory.within_cons (size a : Nat) (b : Byte) (m : Memory) :
    Memory.within size ((a, b) :: m) = true ↔ a < size ∧ m.within size = true := by
  simp [Memory.within]

theorem Memory.wfFrom_mono {lo lo' : Nat} (m : Memory) (h : Memory.wfFrom lo m = true) (hl : lo' ≤ lo) :
    Memory.wfFrom lo' m = true := by
  cases m with
  | nil => rfl
  | cons c m =>
    obtain ⟨a, b⟩ := c
    rw [Memory.wfFrom_cons] at h ⊢
    exact ⟨by omega, h.2⟩

/-- An address below every listed one reads as 0. -/
theorem Memory.get_below {lo : Nat} (m : Memory) (h : Memory.wfFrom lo m = true) (x : Nat) (hx : x < lo) : m.get x = 0 := by
  induction m generalizing lo with
  | nil => rfl
  | cons c m ih =>
    obtain ⟨a, b⟩ := c
    simp [Memory.wfFrom] at h
    have : ¬ a = x := by omega
    simp only [Memory.get, this, if_false]
    exact ih h.2 (by omega)

/-- A write leaves every other byte as it was. -/
theorem Memory.get_set_other (m : Memory) (x y : Nat) (v : Byte) (h : x ≠ y) : (m.set x v).get y = m.get y := by
  induction m with
  | nil => simp only [Memory.set]; split <;> simp [Memory.get, h]
  | cons c m ih =>
    obtain ⟨a, b⟩ := c
    simp only [Memory.set]
    split
    · split <;> simp [Memory.get, h]
    · split
      · next h1 => subst h1; split <;> simp [Memory.get, h]
      · simp [Memory.get, ih]

/-- A write is read back. -/
theorem Memory.get_set_same {lo : Nat} (m : Memory) (hm : Memory.wfFrom lo m = true) (x : Nat) (v : Byte) :
    (m.set x v).get x = v := by
  induction m generalizing lo with
  | nil => simp only [Memory.set]; split <;> simp_all [Memory.get]
  | cons c m ih =>
    obtain ⟨a, b⟩ := c
    simp [Memory.wfFrom] at hm
    simp only [Memory.set]
    split
    · next hlt =>
      split
      · next hv =>
        have : ¬ a = x := by omega
        simp only [Memory.get, this, if_false, hv]
        exact Memory.get_below m hm.2 x (by omega)
      · simp [Memory.get]
    · split
      · next hx =>
        subst hx
        split
        · next hv => rw [hv]; exact Memory.get_below m hm.2 x (by omega)
        · simp [Memory.get]
      · next hx =>
        have : ¬ a = x := by omega
        simp only [Memory.get, this, if_false]
        exact ih hm.2

/-- A write keeps the canonical form. -/
theorem Memory.wfFrom_set {lo : Nat} (m : Memory) (h : Memory.wfFrom lo m = true) (x : Nat) (v : Byte) (hx : lo ≤ x) :
    Memory.wfFrom lo (m.set x v) = true := by
  induction m generalizing lo with
  | nil => simp only [Memory.set]; split <;> simp_all [Memory.wfFrom]
  | cons c m ih =>
    obtain ⟨a, b⟩ := c
    have h0 := h
    rw [Memory.wfFrom_cons] at h
    simp only [Memory.set]
    split
    · next hlt =>
      split
      · exact h0
      · next hv => exact (Memory.wfFrom_cons ..).2 ⟨hx, hv, (Memory.wfFrom_cons ..).2 ⟨by omega, h.2⟩⟩
    · split
      · next hx' =>
        subst hx'
        split
        · exact Memory.wfFrom_mono m h.2.2 (by omega)
        · next hv => exact (Memory.wfFrom_cons ..).2 ⟨hx, hv, h.2.2⟩
      · next hlt hne => exact (Memory.wfFrom_cons ..).2 ⟨h.1, h.2.1, ih h.2.2 (by omega)⟩

theorem Memory.wf_set (m : Memory) (h : m.wf = true) (x : Nat) (v : Byte) : (m.set x v).wf = true :=
  Memory.wfFrom_set m h x v (Nat.zero_le x)

theorem Memory.wf_setBytes (m : Memory) (h : m.wf = true) (a : Nat) (bs : List Byte) : (m.setBytes a bs).wf = true := by
  induction bs generalizing m a with
  | nil => exact h
  | cons b bs ih => exact ih _ (Memory.wf_set m h a b) _

theorem Memory.within_set (size : Nat) (m : Memory) (h : m.within size = true) (x : Nat) (v : Byte) (hx : x < size) :
    (m.set x v).within size = true := by
  induction m with
  | nil => simp only [Memory.set]; split <;> simp_all [Memory.within]
  | cons c m ih =>
    obtain ⟨a, b⟩ := c
    have h0 := h
    rw [Memory.within_cons] at h
    simp only [Memory.set]
    split
    · split
      · exact h0
      · exact (Memory.within_cons ..).2 ⟨hx, h0⟩
    · split
      · split
        · exact h.2
        · exact (Memory.within_cons ..).2 ⟨hx, h.2⟩
      · exact (Memory.within_cons ..).2 ⟨h.1, ih h.2⟩

theorem Memory.within_setBytes (size : Nat) (m : Memory) (h : m.within size = true) (a : Nat) (bs : List Byte)
    (hb : a + bs.length ≤ size) : (m.setBytes a bs).within size = true := by
  induction bs generalizing m a with
  | nil => exact h
  | cons b bs ih =>
    simp only [List.length_cons] at hb
    exact ih _ (Memory.within_set size m h a b (by omega)) _ (by omega)

/-- Bytes written from `a` upward leave every address outside them. -/
theorem Memory.get_setBytes_other (m : Memory) (a : Nat) (bs : List Byte) (x : Nat) (h : x < a ∨ a + bs.length ≤ x) :
    (m.setBytes a bs).get x = m.get x := by
  induction bs generalizing m a with
  | nil => rfl
  | cons b bs ih =>
    simp only [List.length_cons] at h
    simp only [Memory.setBytes]
    rw [ih _ _ (by omega), Memory.get_set_other m a x b (by omega)]

/-- Bytes written from `a` upward are read back. -/
theorem Memory.get_setBytes (m : Memory) (hm : m.wf = true) (a : Nat) (bs : List Byte) (k : Nat) (h : k < bs.length) :
    (m.setBytes a bs).get (a + k) = bs[k] := by
  induction bs generalizing m a k with
  | nil => simp at h
  | cons b bs ih =>
    simp only [Memory.setBytes]
    cases k with
    | zero =>
      rw [Memory.get_setBytes_other _ _ _ _ (by omega), Nat.add_zero]
      simpa using Memory.get_set_same m hm a b
    | succ k =>
      have := ih (m.set a b) (Memory.wf_set m hm a b) (a + 1) k (by simpa using h)
      have e : a + (k + 1) = a + 1 + k := by omega
      rw [e, this]
      rfl

@[simp] theorem Memory.getBytes_length (m : Memory) (a n : Nat) : (m.getBytes a n).length = n := by
  induction n generalizing a with
  | zero => rfl
  | succ n ih => simp [Memory.getBytes, ih]

theorem Memory.getElem_getBytes (m : Memory) (a n k : Nat) (h : k < (m.getBytes a n).length) :
    (m.getBytes a n)[k] = m.get (a + k) := by
  induction n generalizing a k with
  | zero => simp [Memory.getBytes] at h
  | succ n ih =>
    cases k with
    | zero => simp [Memory.getBytes]
    | succ k =>
      simp only [Memory.getBytes, List.getElem_cons_succ]
      rw [ih]
      congr 1
      omega

/-- The bytes just written are the bytes read. -/
theorem Memory.getBytes_setBytes (m : Memory) (hm : m.wf = true) (a : Nat) (bs : List Byte) :
    (m.setBytes a bs).getBytes a bs.length = bs := by
  apply List.ext_getElem (by simp)
  intro k h1 h2
  rw [Memory.getElem_getBytes, Memory.get_setBytes m hm a bs k h2]

/-- Bytes written leave a run of bytes beside them. -/
theorem Memory.getBytes_setBytes_other (m : Memory) (a : Nat) (bs : List Byte) (x n : Nat)
    (h : x + n ≤ a ∨ a + bs.length ≤ x) : (m.setBytes a bs).getBytes x n = m.getBytes x n := by
  apply List.ext_getElem (by simp)
  intro k h1 h2
  simp only [Memory.getBytes_length] at h1
  rw [Memory.getElem_getBytes, Memory.getElem_getBytes, Memory.get_setBytes_other _ _ _ _ (by omega)]

/-- The memory of reset is in canonical form. -/
theorem Memory.wf_reset : State.reset.mem.wf = true := rfl

end Sys2Proof.Machine
end

