-- ==== Sys2Proof/Laws/Ops.lean ====
section
/-! SUPPORT. What each shared operation can do, said once. -/

namespace Sys2Proof.Machine

/-! ### The bounds check -/

theorem checkAccess_ok {size : Nat} {a : Int} {n : Nat} (h : 0 < n) :
    checkAccess size a n = .ok () ↔ 0 ≤ a ∧ a + n ≤ size := by
  unfold checkAccess
  split
  · simp; omega
  · split
    · simp; omega
    · simp; omega

/-- The two memory faults, and which applies (20_memory.md R54). -/
theorem checkAccess_error {size : Nat} {a : Int} {n : Nat} {k : Fault} :
    checkAccess size a n = .error k ↔
      (k = .memoryOutOfRange ∧ (a < 0 ∨ size ≤ a)) ∨ (k = .memoryOverflow ∧ 0 ≤ a ∧ a < size ∧ size < a + n) := by
  unfold checkAccess
  split
  · next h =>
    constructor
    · rintro ⟨⟩; exact .inl ⟨rfl, h⟩
    · rintro (⟨rfl, _⟩ | ⟨_, _, _, _⟩)
      · rfl
      · omega
  · next h =>
    split
    · next h2 =>
      constructor
      · rintro ⟨⟩; exact .inr ⟨rfl, by omega, by omega, h2⟩
      · rintro (⟨_, _⟩ | ⟨rfl, _⟩)
        · omega
        · rfl
    · next h2 =>
      constructor
      · rintro ⟨⟩
      · rintro (⟨_, _⟩ | ⟨_, _, _, _⟩) <;> omega

/-! ### Memory access -/

theorem State.memRead_ok {s : State} {a : Int} {n : Nat} {v : Word} (h : 0 < n) :
    s.memRead a n = .ok v ↔ s.InBounds a n ∧ v = s.loadWord a.toNat n := by
  simp only [State.memRead, bind_ok, pure_ok, Except.ok.injEq, State.InBounds]
  constructor
  · rintro ⟨⟨⟩, hc, rfl⟩
    exact ⟨(checkAccess_ok h).1 hc, rfl⟩
  · rintro ⟨hb, rfl⟩
    exact ⟨(), (checkAccess_ok h).2 hb, rfl⟩

theorem State.memRead_error {s : State} {a : Int} {n : Nat} {k : Fault} :
    s.memRead a n = .error k ↔ checkAccess s.cfg.memSize a n = .error k := by
  simp [State.memRead, bind_error]

theorem State.memWrite_ok {s t : State} {a : Int} {n : Nat} {v : Word} (h : 0 < n) :
    s.memWrite a n v = .ok t ↔ s.InBounds a n ∧ t = s.storeWord a.toNat n v := by
  simp only [State.memWrite, bind_ok, pure_ok, Except.ok.injEq, State.InBounds]
  constructor
  · rintro ⟨⟨⟩, hc, rfl⟩
    exact ⟨(checkAccess_ok h).1 hc, rfl⟩
  · rintro ⟨hb, rfl⟩
    exact ⟨(), (checkAccess_ok h).2 hb, rfl⟩

theorem State.memWrite_error {s : State} {a : Int} {n : Nat} {v : Word} {k : Fault} :
    s.memWrite a n v = .error k ↔ checkAccess s.cfg.memSize a n = .error k := by
  simp [State.memWrite, bind_error]

theorem State.memRead_of {s : State} {a : Int} {n : Nat} (h : 0 < n) (hb : s.InBounds a n) :
    s.memRead a n = .ok (s.loadWord a.toNat n) := (State.memRead_ok h).2 ⟨hb, rfl⟩

theorem State.memWrite_of {s : State} {a : Int} {n : Nat} {v : Word} (h : 0 < n) (hb : s.InBounds a n) :
    s.memWrite a n v = .ok (s.storeWord a.toNat n v) := (State.memWrite_ok h).2 ⟨hb, rfl⟩

@[simp] theorem memoryOrder_length (e : Endian) (bs : List Byte) : (memoryOrder e bs).length = bs.length := by
  cases e <;> simp [memoryOrder]

@[simp] theorem memoryOrder_memoryOrder (e : Endian) (bs : List Byte) : memoryOrder e (memoryOrder e bs) = bs := by
  cases e <;> simp [memoryOrder]

/-- A stored value is loaded back, whatever the byte order. -/
theorem State.loadWord_storeWord (s : State) (hm : s.mem.wf = true) (a : Nat) (w : Width) (v : Word) :
    (s.storeWord a w.bytes v).loadWord a w.bytes = truncTo w v := by
  have hlen : (memoryOrder s.cfg.endian (bytesOf w.bytes v)).length = w.bytes := by simp
  have := Memory.getBytes_setBytes s.mem hm a (memoryOrder s.cfg.endian (bytesOf w.bytes v))
  rw [hlen] at this
  simp [State.loadWord, this, wordOf_bytesOf]

/-- A store leaves a load beside it. -/
theorem State.loadWord_storeWord_other (s : State) (a n x m : Nat) (v : Word) (h : x + m ≤ a ∨ a + n ≤ x) :
    (s.storeWord a n v).loadWord x m = s.loadWord x m := by
  simp only [State.loadWord, State.storeWord_mem, State.storeWord_cfg]
  rw [Memory.getBytes_setBytes_other _ _ _ _ _ (by simpa using h)]

theorem sameMemoryBut_storeWord (s : State) (a : Int) (n : Nat) (v : Word) (h : 0 ≤ a) :
    SameMemoryBut a n s (s.storeWord a.toNat n v) := by
  intro x hx
  rw [State.storeWord_mem, Memory.get_setBytes_other]
  simp
  omega

/-! ### Operands -/

theorem State.writeTarget_ok {s t : State} {w : Width} {v : Word} {g : Target} :
    s.writeTarget w v g = .ok t ↔ s.CanWrite w g ∧ t = s.written w v g := by
  cases g with
  | reg r => simp [State.writeTarget, State.CanWrite, State.written, eq_comm]
  | mem a => exact State.memWrite_ok w.bytes_pos

theorem State.writeTarget_of {s : State} {w : Width} {v : Word} {g : Target} (h : s.CanWrite w g) :
    s.writeTarget w v g = .ok (s.written w v g) := State.writeTarget_ok.2 ⟨h, rfl⟩

/-- A place resolves to its own register, or to an address. -/
theorem State.resolve_ok {s : State} {p : Place} {g : Target} (h : s.resolve p = .ok g) :
    (∃ r, p = .reg r ∧ g = .reg r) ∨ (p.isReg = false ∧ ∃ a, g = .mem a) := by
  cases p with
  | reg r => simp [State.resolve] at h; exact .inl ⟨r, rfl, h.symm⟩
  | mem w m =>
    simp only [State.resolve, bind_ok, pure_ok, Except.ok.injEq] at h
    obtain ⟨a, _, rfl⟩ := h
    exact .inr ⟨rfl, a, rfl⟩
  | deref w a => simp [State.resolve] at h; exact .inr ⟨rfl, a.toNat, h.symm⟩

/-- Every field a written target leaves. -/
theorem State.written_fields (s : State) (w : Width) (v : Word) (g : Target) :
    (s.written w v g).cfg = s.cfg ∧ (s.written w v g).ip = s.ip ∧ (s.written w v g).flags = s.flags ∧
      (s.written w v g).program = s.program ∧ (s.written w v g).definitions = s.definitions ∧
      (s.written w v g).started = s.started ∧ (s.written w v g).sched = s.sched ∧
      (s.written w v g).breakpoints = s.breakpoints ∧ (s.written w v g).visited = s.visited ∧
      (s.written w v g).pendingTick = s.pendingTick ∧ (s.written w v g).faultMark = s.faultMark ∧
      (s.written w v g).events = s.events := by
  cases g <;> exact ⟨rfl, rfl, rfl, rfl, rfl, rfl, rfl, rfl, rfl, rfl, rfl, rfl⟩

/-- A place that can be read can be written. -/
theorem State.canWrite_of_readTarget {s : State} {w : Width} {g : Target} {v : Word} (h : s.readTarget w g = .ok v) :
    s.CanWrite w g := by
  cases g with
  | reg r => trivial
  | mem a => exact ((State.memRead_ok w.bytes_pos).1 h).1

/-- Reading a resolved place depends on the registers, memory and the parameters only. -/
theorem State.readTarget_congr {s t : State} (h1 : t.regs = s.regs) (h2 : t.mem = s.mem) (h3 : t.cfg = s.cfg) (w : Width)
    (g : Target) : t.readTarget w g = s.readTarget w g := by
  cases g <;> simp [State.readTarget, State.readReg, State.memRead, State.loadWord, h1, h2, h3]

/-- A written place is read back as the low bytes of the value; a register's width is the width it is read at. -/
theorem State.readTarget_written (s : State) (hm : s.mem.wf = true) (w : Width) (g : Target) (v : Word) (hw : s.CanWrite w g)
    (hr : ∀ r, g = .reg r → r.width = w) : (s.written w v g).readTarget w g = .ok (truncTo w v) := by
  cases g with
  | reg r => simp [State.written, State.readTarget, hr r rfl]
  | mem a =>
    have hb : (s.written w v (.mem a)).InBounds a w.bytes := hw
    rw [State.readTarget, State.memRead_of w.bytes_pos hb]
    exact congrArg Except.ok (State.loadWord_storeWord s hm a.toNat w v)

theorem Target.Apart.symm {g k : Target} (h : g.Apart k) : k.Apart g := by
  cases g <;> cases k <;> simp only [Target.Apart] at *
  · exact fun e => h e.symm
  · omega

/-- A place that shares no storage with the written one is read as before. -/
theorem State.readTarget_written_apart (s : State) {g k : Target} {v x : Word} (h : g.Apart k) (hg : s.CanWrite .w4 g)
    (hx : s.readTarget .w4 k = .ok x) : (s.written .w4 v g).readTarget .w4 k = .ok x := by
  cases g with
  | reg r =>
    cases k with
    | reg q =>
      rw [State.written, State.readTarget, State.readReg_writeReg_bank _ _ _ _ fun e => h e.symm]
      exact hx
    | mem b => exact hx
  | mem a =>
    cases k with
    | reg q => exact hx
    | mem b =>
      obtain ⟨hb, rfl⟩ := (State.memRead_ok Width.w4.bytes_pos).1 hx
      have hb' : (s.written .w4 v (.mem a)).InBounds b Width.w4.bytes := hb
      rw [State.readTarget, State.memRead_of Width.w4.bytes_pos hb', State.written, State.loadWord_storeWord_other]
      have h : a + 4 ≤ b ∨ b + 4 ≤ a := h
      obtain ⟨h1, _⟩ := hb
      obtain ⟨h2, _⟩ := hg
      simp only [Width.bytes]
      omega

/-! ### The stack -/

/-- A push whose write is out of bounds. -/
theorem State.push_error {s : State} {sp v : Word} {k : Fault} (h : s.readReg .esp = .ok sp)
    (hc : checkAccess s.cfg.memSize ((sp.toNat : Int) - 4) 4 = .error k) : s.push v = .error k := by
  simp only [State.push, h, ok_bind, State.memWrite, hc, error_bind]

/-- A pop whose read is out of bounds. -/
theorem State.pop_error {s : State} {sp : Word} {k : Fault} (h : s.readReg .esp = .ok sp)
    (hc : checkAccess s.cfg.memSize sp.toNat 4 = .error k) : s.pop = .error k := by
  simp only [State.pop, h, ok_bind, State.memRead, hc, error_bind]

theorem State.push_ok {s t : State} {v : Word} :
    s.push v = .ok t ↔ ∃ sp, s.readReg .esp = .ok sp ∧ s.InBounds ((sp.toNat : Int) - 4) 4 ∧
      t = (s.storeWord ((sp.toNat : Int) - 4).toNat 4 v).writeReg .esp (BitVec.ofInt 32 ((sp.toNat : Int) - 4)) := by
  simp only [State.push, bind_ok, pure_ok, Except.ok.injEq]
  constructor
  · rintro ⟨sp, h1, s1, h2, rfl⟩
    obtain ⟨hb, rfl⟩ := (State.memWrite_ok (by decide)).1 h2
    exact ⟨sp, h1, hb, rfl⟩
  · rintro ⟨sp, h1, hb, rfl⟩
    exact ⟨sp, h1, _, State.memWrite_of (by decide) hb, rfl⟩

theorem State.pop_ok {s t : State} {v : Word} :
    s.pop = .ok (v, t) ↔ ∃ sp, s.readReg .esp = .ok sp ∧ s.InBounds sp.toNat 4 ∧ v = s.loadWord sp.toNat 4 ∧
      t = s.writeReg .esp (BitVec.ofNat 32 (sp.toNat + 4)) := by
  simp only [State.pop, bind_ok, pure_ok, Except.ok.injEq, Prod.mk.injEq]
  constructor
  · rintro ⟨sp, h1, v', h2, rfl, rfl⟩
    obtain ⟨hb, rfl⟩ := (State.memRead_ok (by decide)).1 h2
    exact ⟨sp, h1, hb, by simp, rfl⟩
  · rintro ⟨sp, h1, hb, rfl, rfl⟩
    exact ⟨sp, h1, _, State.memRead_of (by decide) hb, by simp, rfl⟩

/-! ### The breakpoint set -/

/-- An address put into the list is in it, beside those that were. -/
theorem mem_insertAddress {a b : Word} {l : List Word} : a ∈ insertAddress b l ↔ a = b ∨ a ∈ l := by
  induction l with
  | nil => simp [insertAddress]
  | cons c cs ih =>
    simp only [insertAddress]
    split
    · simp
    · split
      · next h => simp [h]
      · simp only [List.mem_cons, ih]
        exact or_left_comm

/-! ### The end of an instruction -/

@[simp] theorem settle_ok (s t : State) : settle s (.ok t) = .next t := rfl
@[simp] theorem settle_error (s : State) (k : Fault) : settle s (.error k) = .next (s.takeFault k) := rfl

/-- An instruction completes, or its fault is taken in the state before it (60_exceptions.md R223). -/
theorem settle_next {s t : State} {r : Except Fault State} :
    settle s r = .next t ↔ r = .ok t ∨ ∃ k, r = .error k ∧ t = s.takeFault k := by
  cases r <;> simp [settle, eq_comm]

/-- Every instruction answers a next state. -/
theorem settle_total (s : State) (r : Except Fault State) : ∃ t, settle s r = .next t := by
  cases r
  · exact ⟨_, rfl⟩
  · exact ⟨_, rfl⟩

end Sys2Proof.Machine
end

