-- ==== Sys2Proof/Laws/Step.lean ====
section
/-! SUPPORT. What a step can do, said once, and that every instruction answers a next state. -/

namespace Sys2Proof.Machine

theorem State.breakpointHit_eq_true {s : State} : s.breakpointHit = true ↔ s.ip ∈ s.breakpoints ∧ s.visited = false := by
  simp [State.breakpointHit]

theorem State.breakpointHit_eq_false {s : State} : s.breakpointHit = false ↔ s.ip ∉ s.breakpoints ∨ s.visited = true := by
  simp only [State.breakpointHit]; by_cases h : s.ip ∈ s.breakpoints <;> simp [h]

theorem step_badAddress {s : State} (h : 2 ^ 31 ≤ s.ip.toNat) : step s = .next (s.takeFault .badInstructionAddress) := by
  simp only [step, State.fetch, if_pos h]

theorem step_end {s : State} (h : s.ip.toNat < 2 ^ 31) (hn : s.program[s.ip.toNat]? = none) :
    step s = .next s.endOfProgram := by
  simp only [step, State.fetch, if_neg (Nat.not_le.2 h), hn]

theorem step_breakpoint {s : State} {slot : Slot} (h : s.ip.toNat < 2 ^ 31) (hn : s.program[s.ip.toNat]? = some slot)
    (hb : s.breakpointHit = true) : step s = .next s.pauseAtBreakpoint := by
  simp only [step, State.fetch, if_neg (Nat.not_le.2 h), hn, hb, if_true]

theorem step_illegal {s : State} {slot : Slot} {e : IllegalSlot} (h : s.ip.toNat < 2 ^ 31)
    (hn : s.program[s.ip.toNat]? = some slot) (hb : s.breakpointHit = false) (hd : decode slot = .error e) :
    step s = .next (State.takeFault .illegalInstruction { s with visited := false }) := by
  simp only [step, State.fetch, if_neg (Nat.not_le.2 h), hn, hb, hd, Bool.false_eq_true, if_false]

theorem step_run {s : State} {slot : Slot} {i : Instr} (h : s.ip.toNat < 2 ^ 31)
    (hn : s.program[s.ip.toNat]? = some slot) (hb : s.breakpointHit = false) (hd : decode slot = .ok i) :
    step s = exec i { s with visited := false } := by
  simp only [step, State.fetch, if_neg (Nat.not_le.2 h), hn, hb, hd, Bool.false_eq_true, if_false]

/-- Everything a step can do. -/
theorem step_cases {s t : State} (h : step s = .next t) :
    (2 ^ 31 ≤ s.ip.toNat ∧ t = s.takeFault .badInstructionAddress) ∨
    (s.ip.toNat < 2 ^ 31 ∧ s.program[s.ip.toNat]? = none ∧ t = s.endOfProgram) ∨
    (s.ip.toNat < 2 ^ 31 ∧ s.program[s.ip.toNat]?.isSome ∧ s.breakpointHit = true ∧ t = s.pauseAtBreakpoint) ∨
    (∃ slot e, s.ip.toNat < 2 ^ 31 ∧ s.program[s.ip.toNat]? = some slot ∧ s.breakpointHit = false ∧ decode slot = .error e ∧
      t = State.takeFault .illegalInstruction { s with visited := false }) ∨
    (∃ slot i, s.ip.toNat < 2 ^ 31 ∧ s.program[s.ip.toNat]? = some slot ∧ s.breakpointHit = false ∧ decode slot = .ok i ∧
      exec i { s with visited := false } = .next t) := by
  by_cases hi : 2 ^ 31 ≤ s.ip.toNat
  · rw [step_badAddress hi] at h; cases h; exact .inl ⟨hi, rfl⟩
  have hi := Nat.lt_of_not_le hi
  cases hn : s.program[s.ip.toNat]? with
  | none => rw [step_end hi hn] at h; cases h; exact .inr (.inl ⟨hi, rfl, rfl⟩)
  | some slot =>
    cases hb : s.breakpointHit with
    | true => rw [step_breakpoint hi hn hb] at h; cases h; exact .inr (.inr (.inl ⟨hi, rfl, rfl, rfl⟩))
    | false =>
      cases hd : decode slot with
      | error e => rw [step_illegal hi hn hb hd] at h; cases h; exact .inr (.inr (.inr (.inl ⟨slot, e, hi, rfl, rfl, hd, rfl⟩)))
      | ok i => rw [step_run hi hn hb hd] at h; exact .inr (.inr (.inr (.inr ⟨slot, i, hi, rfl, rfl, hd, h⟩)))

/-- Every instruction answers a next state: none is refused, and its faults are taken (60_exceptions.md R223). -/
theorem exec_total (i : Instr) (s : State) : ∃ t, exec i s = .next t := by
  cases i <;> first | exact settle_total _ _ | exact ⟨_, rfl⟩

end Sys2Proof.Machine
end

