-- ==== Sys2Proof/Laws/Exec.lean ====
section
/-! SUPPORT. What the shared bodies of the instructions can do, said once, and from them what any instruction can do outside the
registers, the flags and ip. -/

namespace Sys2Proof.Machine

/-! ### Arithmetic of ip, ESP and ECX -/

theorem branch_eq (s : State) (b : Bool) (t : Word) : s.branch b t = { s with ip := if b then t else s.ip + 1 } := by
  cases b <;> rfl

theorem ofInt_sub_one (c : Word) : BitVec.ofInt 32 ((c.toNat : Int) - 1) = c - 1 := by
  apply BitVec.eq_of_toNat_eq
  rw [BitVec.toNat_ofInt, BitVec.toNat_sub]
  have := c.isLt
  simp
  omega

theorem ofInt_sub_four (c : Word) : BitVec.ofInt 32 ((c.toNat : Int) - 4) = c - 4 := by
  apply BitVec.eq_of_toNat_eq
  rw [BitVec.toNat_ofInt, BitVec.toNat_sub]
  have := c.isLt
  simp
  omega

theorem ofNat_add_four (c : Word) : BitVec.ofNat 32 (c.toNat + 4) = c + 4 := by
  apply BitVec.eq_of_toNat_eq
  simp [BitVec.toNat_add]

/-- On 4-byte operands neither NARROW_EXT nor FLAG_WIDTH matters (41_alu.md R122). -/
theorem aluAt_w4 (cfg : Config) (op : AluOp) (a b : Word) (c : Bool) : aluAt cfg .w4 op a b c = alu op a b c := by
  have e : ∀ v : Word, v.setWidth Width.w4.bits = v := fun v => BitVec.setWidth_eq v
  cases hf : cfg.flagWidth with
  | fixed32 => cases hn : cfg.narrowExt <;> simp [aluAt, hf, hn, widenTo32, signExtendFrom]
  | operand =>
    have : aluAt cfg .w4 op a b c = (alu op (a.setWidth Width.w4.bits) (b.setWidth Width.w4.bits) c).toWord := by
      simp only [aluAt, hf]
    rw [this, e, e]
    simp [AluResult.toWord]

/-- A bounds fault of a 4-byte push reaches every instruction that pushes. -/
theorem State.pushesTake_of {s : State} {sp : Word} {k : Fault} (h : s.readReg .esp = .ok sp)
    (hc : checkAccess s.cfg.memSize ((sp.toNat : Int) - 4) 4 = .error k) : s.PushesTake k := by
  refine ⟨fun src v hv => ?_, fun c => ?_, fun bp hb => ?_⟩
  · simp only [exec, execPush, hv, ok_bind, State.push_error h hc, error_bind, settle_error]
  · simp only [exec, execCall, State.push_error h hc, error_bind, settle_error]
  · simp only [exec, execEnter, hb, h, ok_bind, State.memWrite, hc, error_bind, settle_error]

/-- A bounds fault of a 4-byte pop reaches every instruction that pops at ESP. -/
theorem State.popsTake_of {s : State} {sp : Word} {k : Fault} (h : s.readReg .esp = .ok sp)
    (hc : checkAccess s.cfg.memSize sp.toNat 4 = .error k) : s.PopsTake k := by
  refine ⟨fun dst g hg => ?_, ?_, fun hl => ?_⟩
  · simp only [exec, execPop, h, hg, ok_bind, State.memRead, hc, error_bind, settle_error]
  · simp only [exec, execRet, State.pop_error h hc, error_bind, settle_error]
  · simp only [exec, execLeave, hl, h, ok_bind, State.memRead, hc, error_bind, settle_error]

/-! ### The bodies -/

/-- A push that fits in memory. -/
theorem State.push_of {s : State} {v sp : Word} (h : s.readReg .esp = .ok sp) (h1 : 4 ≤ sp.toNat)
    (h2 : sp.toNat ≤ s.cfg.memSize) :
    s.push v = .ok ((s.storeWord (sp.toNat - 4) 4 v).writeReg .esp (sp - 4)) := by
  rw [State.push_ok]
  refine ⟨sp, h, ⟨by omega, by omega⟩, ?_⟩
  rw [ofInt_sub_four]
  congr 2
  omega

/-- A pop that fits in memory. -/
theorem State.pop_of {s : State} {sp : Word} (h : s.readReg .esp = .ok sp) (h2 : sp.toNat + 4 ≤ s.cfg.memSize) :
    s.pop = .ok (s.loadWord sp.toNat 4, s.writeReg .esp (sp + 4)) := by
  rw [State.pop_ok]
  exact ⟨sp, h, ⟨by omega, by omega⟩, rfl, by rw [ofNat_add_four]⟩

/-- The ALU part of a binary instruction: the target's place, both operands and the carry. -/
theorem State.binaryAlu_ok {s : State} {op : AluOp} {dst : Place} {src : Source} {g : Target} {r : AluResult 32} :
    s.binaryAlu op dst src = .ok (g, r) ↔ ∃ a b c, s.resolve dst = .ok g ∧ s.readTarget dst.width g = .ok a ∧
      s.readSource dst.width src = .ok b ∧ s.carryIn op = .ok c ∧ r = aluAt s.cfg dst.width op a b c := by
  simp only [State.binaryAlu, bind_ok, pure_ok, Except.ok.injEq, Prod.mk.injEq]
  constructor
  · rintro ⟨g', h1, a, h2, b, h3, c, h4, rfl, rfl⟩
    exact ⟨a, b, c, h1, h2, h3, h4, rfl⟩
  · rintro ⟨a, b, c, h1, h2, h3, h4, rfl⟩
    exact ⟨g, h1, a, h2, b, h3, c, h4, rfl, rfl⟩

/-- A binary instruction with write-back. -/
theorem State.binaryWrite_ok {s t : State} {op : AluOp} {dst : Place} {src : Source} :
    s.binaryWrite op dst src = .ok t ↔ ∃ g r, s.binaryAlu op dst src = .ok (g, r) ∧ s.CanWrite dst.width g ∧
      t = { s.written dst.width r.value g with flags := s.flags.fromAlu r, ip := s.ip + 1 } := by
  simp only [State.binaryWrite, bind_ok, pure_ok, Except.ok.injEq]
  constructor
  · rintro ⟨⟨g, r⟩, h1, s1, h2, rfl⟩
    obtain ⟨hw, rfl⟩ := State.writeTarget_ok.1 h2
    refine ⟨g, r, h1, hw, ?_⟩
    cases g <;> rfl
  · rintro ⟨g, r, h1, h2, rfl⟩
    refine ⟨⟨g, r⟩, h1, _, State.writeTarget_of h2, ?_⟩
    cases g <;> rfl

/-- INC and DEC. -/
theorem State.stepByOne_ok {s t : State} {op : AluOp} {dst : Place} :
    s.stepByOne op dst = .ok t ↔ ∃ g a, s.resolve dst = .ok g ∧ s.readTarget dst.width g = .ok a ∧ s.CanWrite dst.width g ∧
      t = { s.written dst.width (aluAt s.cfg dst.width op a 1 false).value g with
              flags := s.flags.fromIncDec s.cfg.incDecCF (aluAt s.cfg dst.width op a 1 false), ip := s.ip + 1 } := by
  simp only [State.stepByOne, bind_ok, pure_ok, Except.ok.injEq]
  constructor
  · rintro ⟨g, h1, a, h2, s1, h3, rfl⟩
    obtain ⟨hc, rfl⟩ := State.writeTarget_ok.1 h3
    refine ⟨g, a, h1, h2, hc, ?_⟩
    cases g <;> rfl
  · rintro ⟨g, a, h1, h2, h3, rfl⟩
    refine ⟨g, h1, a, h2, _, State.writeTarget_of h3, ?_⟩
    cases g <;> rfl

/-- A conditional jump on the status word. -/
theorem State.jumpIf_ok {s t : State} {cond : Cond} {c : Imm} :
    s.jumpIf cond c = .ok t ↔ ∃ b, s.flags.cond cond = .ok b ∧ t = s.branch b (immValue c) := by
  simp only [State.jumpIf, bind_ok, pure_ok, Except.ok.injEq, eq_comm (a := t)]

/-- The LOOP family after its gate is known. -/
theorem State.loopWhile_of {s : State} {gate : Bool} {t : Imm} {c : Word} (h : s.readReg .ecx = .ok c) :
    s.loopWhile gate t =
      .ok { s.writeReg .ecx (c - 1) with ip := if c ≠ 1 ∧ gate = true then immValue t else s.ip + 1 } := by
  have hne : (c - 1 != 0) = decide (c ≠ 1) := by
    by_cases h : c = 1
    · subst h; rfl
    · rw [decide_eq_true h]
      refine bne_iff_ne.2 fun h2 => h ?_
      bv_omega
  simp only [State.loopWhile, h, ok_bind, pure_ok, ofInt_sub_one, hne, branch_eq]
  by_cases h : c = 1 <;> cases gate <;> simp [h]

theorem State.loopWhile_ok {s t : State} {gate : Bool} {c : Imm} (h : s.loopWhile gate c = .ok t) :
    ∃ v, s.readReg .ecx = .ok v ∧
      t = { s.writeReg .ecx (v - 1) with ip := if v ≠ 1 ∧ gate = true then immValue c else s.ip + 1 } := by
  cases hv : s.readReg .ecx with
  | error k => simp [State.loopWhile, hv] at h
  | ok v =>
    rw [State.loopWhile_of hv] at h
    exact ⟨v, rfl, (Except.ok.inj h).symm⟩

/-- A 1-byte read in bounds. -/
theorem State.memRead_byte (s : State) (a : Nat) (h : a < s.cfg.memSize) :
    s.memRead a 1 = .ok ((s.mem.get a).setWidth 32) := by
  rw [State.memRead_of (s := s) (a := a) (n := 1) (by decide) ⟨by omega, by omega⟩]
  cases he : s.cfg.endian <;> simp [State.loadWord, he, memoryOrder, Memory.getBytes, wordOf]

/-! ### What any instruction can do -/

/-- How an instruction that takes no fault leaves everything but the registers, the flags and ip. -/
def Completed (i : Instr) (s t : State) : Prop :=
  SameFixed s t ∧ (s.mem.wf = true → t.mem.wf = true) ∧
    (s.mem.within s.cfg.memSize = true → t.mem.within s.cfg.memSize = true) ∧ t.faultMark = s.faultMark ∧
    ((t.sched = s.sched ∧ t.pendingTick = s.pendingTick ∧ ∃ es, t.events = s.events ++ es ∧ ∀ e ∈ es, e.isError = false) ∨
      (i = .hlt ∧ t.sched = .halted ∧ t.pendingTick = false ∧ t.events = s.events ++ [.exit]))

theorem Completed.of_same {i : Instr} {s t : State} (h1 : SameFixed s t) (h2 : t.mem = s.mem) (h3 : SameScheduler s t) :
    Completed i s t := by
  obtain ⟨a, b, c, d⟩ := h3
  exact ⟨h1, by rw [h2]; exact id, by rw [h2]; exact id, c, .inl ⟨a, b, [], by simp [d], by simp⟩⟩

theorem Completed.of_store {i : Instr} {s t : State} {a : Int} {w : Nat} {v : Word} (h1 : SameFixed s t) (hb : s.InBounds a w)
    (h2 : t.mem = (s.storeWord a.toNat w v).mem) (h3 : SameScheduler s t) : Completed i s t := by
  obtain ⟨x, b, c, d⟩ := h3
  obtain ⟨hb1, hb2⟩ := hb
  refine ⟨h1, ?_, ?_, c, .inl ⟨x, b, [], by simp [d], by simp⟩⟩
  · rw [h2, State.storeWord_mem]
    exact fun h => Memory.wf_setBytes _ h _ _
  · rw [h2, State.storeWord_mem]
    exact fun h => Memory.within_setBytes _ _ h _ _ (by simp; omega)

theorem Completed.of_written {i : Instr} {s t : State} {w : Width} {v : Word} {g : Target} (h1 : SameFixed s t)
    (hb : s.CanWrite w g) (h2 : t.mem = (s.written w v g).mem) (h3 : SameScheduler s t) : Completed i s t := by
  cases g with
  | reg r => exact Completed.of_same h1 h2 h3
  | mem a => exact Completed.of_store h1 hb h2 h3

theorem completed_binaryWrite {i : Instr} {s t : State} {op : AluOp} {dst : Place} {src : Source}
    (h : s.binaryWrite op dst src = .ok t) : Completed i s t := by
  obtain ⟨g, r, _, hw, rfl⟩ := State.binaryWrite_ok.1 h
  refine Completed.of_written (w := dst.width) (v := r.value) (g := g) ?_ hw rfl ?_ <;> cases g <;>
    simp [SameFixed, SameScheduler, State.written]

theorem completed_stepByOne {i : Instr} {s t : State} {op : AluOp} {dst : Place}
    (h : s.stepByOne op dst = .ok t) : Completed i s t := by
  obtain ⟨g, a, _, _, hw, rfl⟩ := State.stepByOne_ok.1 h
  refine Completed.of_written (w := dst.width) (v := (aluAt s.cfg dst.width op a 1 false).value) (g := g) ?_ hw rfl ?_ <;>
    cases g <;> simp [SameFixed, SameScheduler, State.written]

theorem completed_branch (i : Instr) (s : State) (b : Bool) (t : Word) : Completed i s (s.branch b t) :=
  Completed.of_same (by simp [SameFixed]) (by simp) (by simp [SameScheduler])

theorem completed_jumpIf {i : Instr} {s t : State} {cond : Cond} {c : Imm} (h : s.jumpIf cond c = .ok t) : Completed i s t := by
  obtain ⟨b, _, rfl⟩ := State.jumpIf_ok.1 h
  exact completed_branch ..

theorem completed_loopWhile {i : Instr} {s t : State} {gate : Bool} {c : Imm} (h : s.loopWhile gate c = .ok t) :
    Completed i s t := by
  obtain ⟨v, _, rfl⟩ := State.loopWhile_ok h
  exact Completed.of_same (by simp [SameFixed]) (by simp) (by simp [SameScheduler])

theorem completed_push {i : Instr} {s s1 t : State} {v : Word} (h : s.push v = .ok s1) (hr : SameFixed s1 t)
    (hm : t.mem = s1.mem) (hs : SameScheduler s1 t) : Completed i s t := by
  obtain ⟨sp, _, hb, rfl⟩ := State.push_ok.1 h
  exact Completed.of_store (by simpa [SameFixed] using hr) hb hm (by simpa [SameScheduler] using hs)

theorem completed_emit (i : Instr) (s : State) (e : Event) (he : e.isError = false) : Completed i s (s.emit e).advance :=
  ⟨by simp [SameFixed], id, id, rfl, .inl ⟨rfl, rfl, [e], rfl, by simpa using he⟩⟩

/-- Everything an instruction can do outside the registers, the flags and ip: it takes a fault, or it completes. -/
theorem exec_cases {i : Instr} {s t : State} (h : exec i s = .next t) : (∃ k, t = s.takeFault k) ∨ Completed i s t := by
  have key : ∀ r : Except Fault State, settle s r = .next t → (∀ u, r = .ok u → Completed i s u) →
      (∃ k, t = s.takeFault k) ∨ Completed i s t := by
    intro r hr hc
    rcases settle_next.1 hr with hr | ⟨k, _, rfl⟩
    · exact .inr (hc t hr)
    · exact .inl ⟨k, rfl⟩
  cases i
  case mov dst src =>
    refine key _ h fun u hu => ?_
    simp only [bind_ok, pure_ok, Except.ok.injEq] at hu
    obtain ⟨g, _, v, _, s1, hw, rfl⟩ := hu
    obtain ⟨hc, rfl⟩ := State.writeTarget_ok.1 hw
    refine Completed.of_written (w := dst.width) (v := v) (g := g) ?_ hc rfl ?_ <;> cases g <;>
      simp [SameFixed, SameScheduler, State.written]
  case int code =>
    refine key _ h fun u hu => ?_
    by_cases h1 : immValue code = 1
    · simp only [h1, if_true, bind_ok, pure_ok, Except.ok.injEq] at hu
      obtain ⟨v, _, rfl⟩ := hu
      exact completed_emit _ _ _ rfl
    · by_cases h2 : immValue code = 2
      · simp only [h2, if_neg (show ¬ (2 : Word) = 1 by decide), if_true, bind_ok, pure_ok, Except.ok.injEq] at hu
        obtain ⟨v, _, bs, _, rfl⟩ := hu
        exact completed_emit _ _ _ rfl
      · rw [if_neg h1, if_neg h2] at hu
        cases hu
  case hlt =>
    refine key (.ok _) h fun u hu => ?_
    cases hu
    exact ⟨by simp [SameFixed], id, id, rfl, .inr ⟨rfl, rfl, rfl, rfl⟩⟩
  case pop dst =>
    refine key _ h fun u hu => ?_
    simp only [bind_ok, pure_ok, Except.ok.injEq] at hu
    obtain ⟨sp, _, g, _, v, _, s2, hw, rfl⟩ := hu
    obtain ⟨hc, rfl⟩ := State.writeTarget_ok.1 hw
    have hc' : s.CanWrite .w4 g := by cases g <;> exact hc
    refine Completed.of_written (w := .w4) (v := v) (g := g) ?_ hc' ?_ ?_ <;> cases g <;>
      simp [SameFixed, SameScheduler, State.written]
  case push src =>
    refine key _ h fun u hu => ?_
    simp only [bind_ok, pure_ok, Except.ok.injEq] at hu
    obtain ⟨v, _, s1, hp, rfl⟩ := hu
    exact completed_push hp (by simp [SameFixed]) (by simp) (by simp [SameScheduler])
  case call c =>
    refine key _ h fun u hu => ?_
    simp only [bind_ok, pure_ok, Except.ok.injEq] at hu
    obtain ⟨s1, hp, rfl⟩ := hu
    exact completed_push hp (by simp [SameFixed]) (by simp) (by simp [SameScheduler])
  case ret =>
    refine key _ h fun u hu => ?_
    simp only [bind_ok, pure_ok, Except.ok.injEq] at hu
    obtain ⟨⟨v, s1⟩, hp, rfl⟩ := hu
    obtain ⟨sp, _, _, rfl, rfl⟩ := State.pop_ok.1 hp
    exact Completed.of_same (by simp [SameFixed]) (by simp) (by simp [SameScheduler])
  case enter =>
    refine key _ h fun u hu => ?_
    simp only [bind_ok, pure_ok, Except.ok.injEq] at hu
    obtain ⟨bp, _, sp, _, s1, hw, rfl⟩ := hu
    obtain ⟨hb, rfl⟩ := (State.memWrite_ok (by decide)).1 hw
    exact Completed.of_store (by simp [SameFixed]) hb (v := bp) rfl (by simp [SameScheduler])
  case leave =>
    refine key _ h fun u hu => ?_
    simp only [bind_ok, pure_ok, Except.ok.injEq] at hu
    obtain ⟨f, _, v, _, rfl⟩ := hu
    exact Completed.of_same (by simp [SameFixed]) (by simp) (by simp [SameScheduler])
  case imul p =>
    refine key _ h fun u hu => ?_
    simp only [bind_ok, pure_ok, Except.ok.injEq] at hu
    obtain ⟨b, _, a, _, rfl⟩ := hu
    exact Completed.of_same (by simp [SameFixed]) (by simp) (by simp [SameScheduler])
  case idiv p =>
    refine key _ h fun u hu => ?_
    simp only [bind_ok, pure_ok] at hu
    obtain ⟨d, _, lo, _, hi, _, hu⟩ := hu
    split at hu
    · cases hu
    · cases hu
    · cases hu
      exact Completed.of_same (by simp [SameFixed]) (by simp) (by simp [SameScheduler])
  case cmp dst src =>
    refine key _ h fun u hu => ?_
    simp only [bind_ok, pure_ok, Except.ok.injEq] at hu
    obtain ⟨⟨g, r⟩, _, rfl⟩ := hu
    exact Completed.of_same (by simp [SameFixed]) (by simp) (by simp [SameScheduler])
  case jcxz c =>
    refine key _ h fun u hu => ?_
    simp only [bind_ok, pure_ok, Except.ok.injEq] at hu
    obtain ⟨b, _, rfl⟩ := hu
    exact completed_branch ..
  case jecxz c =>
    refine key _ h fun u hu => ?_
    simp only [bind_ok, pure_ok, Except.ok.injEq] at hu
    obtain ⟨b, _, rfl⟩ := hu
    exact completed_branch ..
  case loop c => exact key _ h fun u hu => completed_loopWhile hu
  case loope c =>
    refine key _ h fun u hu => ?_
    simp only [bind_ok] at hu
    obtain ⟨z, _, hu⟩ := hu
    exact completed_loopWhile hu
  case loopne c =>
    refine key _ h fun u hu => ?_
    simp only [bind_ok] at hu
    obtain ⟨z, _, hu⟩ := hu
    exact completed_loopWhile hu
  all_goals first
    | exact key _ h fun u hu => completed_binaryWrite hu
    | exact key _ h fun u hu => completed_stepByOne hu
    | exact key _ h fun u hu => completed_jumpIf hu
    | (refine key (.ok _) h fun u hu => ?_
       cases hu
       exact Completed.of_same (by simp [SameFixed]) (by simp) (by simp [SameScheduler]))

end Sys2Proof.Machine
end

