-- ==== Sys2Proof/Laws/PerInstr.lean ====
section
/-! SUPPORT. A law of every instruction as syntax: the opcode map R91, read from the encoder and from the decoder. -/

namespace Sys2Proof.Laws.OpcodeField

/-- The row's maker of an instruction, applied to the instruction's own operands, gives the instruction back. -/
def rowMakes : OpcodeRow → Instr → Prop
  | .nullary j, i => i = j
  | .constant mk, i => ∃ c, i = mk c
  | .place mk, i => ∃ p, i = mk p
  | .stackPlace mk, i => ∃ p, i = mk p
  | .stackSource mk, i => ∃ s, i = mk s
  | .binary mk, i => ∃ d s, i = mk d s

/-- The opcode is in 1..47, it stands in the low six bits of the encoded slot, and the decoder's row for it makes the instruction
(30_encoding.md R73, R91). -/
def Statement (i : Instr) : Prop :=
  1 ≤ i.opcode.toNat ∧ i.opcode.toNat ≤ 47 ∧ (encode i).opc = i.opcode ∧ ∃ row, opcodeRow i.opcode = some row ∧ rowMakes row i

/-- The low six bits of a word built from two descriptors and an opcode. -/
theorem opc_of_append (a b : BitVec 13) (c : BitVec 6) : (a ++ b ++ c).extractLsb' 0 6 = c := by
  apply BitVec.eq_of_getLsbD_eq
  intro i hi
  rw [BitVec.getLsbD_extractLsb', BitVec.getLsbD_append]
  simp only [hi, Nat.zero_add, if_true, decide_true, Bool.true_and]

theorem opc_slotOf (c : BitVec 6) (ops : List Operand) : (slotOf c ops).opc = c := by
  match ops with
  | [] => exact opc_of_append _ _ _
  | [_] => exact opc_of_append _ _ _
  | _ :: _ :: _ => exact opc_of_append _ _ _

theorem opc_encode (i : Instr) : (encode i).opc = i.opcode := opc_slotOf _ _

theorem mov (a : Place) (b : Source) : Statement (.mov a b) :=
  ⟨Nat.le_of_ble_eq_true rfl, Nat.le_of_ble_eq_true rfl, opc_encode _, _, rfl, ⟨a, b, rfl⟩⟩

theorem int (a : Imm) : Statement (.int a) :=
  ⟨Nat.le_of_ble_eq_true rfl, Nat.le_of_ble_eq_true rfl, opc_encode _, _, rfl, ⟨a, rfl⟩⟩

theorem hlt : Statement .hlt :=
  ⟨Nat.le_of_ble_eq_true rfl, Nat.le_of_ble_eq_true rfl, opc_encode _, _, rfl, rfl⟩

theorem pop (a : Place) : Statement (.pop a) :=
  ⟨Nat.le_of_ble_eq_true rfl, Nat.le_of_ble_eq_true rfl, opc_encode _, _, rfl, ⟨a, rfl⟩⟩

theorem push (a : Source) : Statement (.push a) :=
  ⟨Nat.le_of_ble_eq_true rfl, Nat.le_of_ble_eq_true rfl, opc_encode _, _, rfl, ⟨a, rfl⟩⟩

theorem call (a : Imm) : Statement (.call a) :=
  ⟨Nat.le_of_ble_eq_true rfl, Nat.le_of_ble_eq_true rfl, opc_encode _, _, rfl, ⟨a, rfl⟩⟩

theorem ret : Statement .ret :=
  ⟨Nat.le_of_ble_eq_true rfl, Nat.le_of_ble_eq_true rfl, opc_encode _, _, rfl, rfl⟩

theorem enter : Statement .enter :=
  ⟨Nat.le_of_ble_eq_true rfl, Nat.le_of_ble_eq_true rfl, opc_encode _, _, rfl, rfl⟩

theorem leave : Statement .leave :=
  ⟨Nat.le_of_ble_eq_true rfl, Nat.le_of_ble_eq_true rfl, opc_encode _, _, rfl, rfl⟩

theorem loop (a : Imm) : Statement (.loop a) :=
  ⟨Nat.le_of_ble_eq_true rfl, Nat.le_of_ble_eq_true rfl, opc_encode _, _, rfl, ⟨a, rfl⟩⟩

theorem loope (a : Imm) : Statement (.loope a) :=
  ⟨Nat.le_of_ble_eq_true rfl, Nat.le_of_ble_eq_true rfl, opc_encode _, _, rfl, ⟨a, rfl⟩⟩

theorem loopne (a : Imm) : Statement (.loopne a) :=
  ⟨Nat.le_of_ble_eq_true rfl, Nat.le_of_ble_eq_true rfl, opc_encode _, _, rfl, ⟨a, rfl⟩⟩

theorem jmp (a : Imm) : Statement (.jmp a) :=
  ⟨Nat.le_of_ble_eq_true rfl, Nat.le_of_ble_eq_true rfl, opc_encode _, _, rfl, ⟨a, rfl⟩⟩

theorem jo (a : Imm) : Statement (.jo a) :=
  ⟨Nat.le_of_ble_eq_true rfl, Nat.le_of_ble_eq_true rfl, opc_encode _, _, rfl, ⟨a, rfl⟩⟩

theorem jno (a : Imm) : Statement (.jno a) :=
  ⟨Nat.le_of_ble_eq_true rfl, Nat.le_of_ble_eq_true rfl, opc_encode _, _, rfl, ⟨a, rfl⟩⟩

theorem js (a : Imm) : Statement (.js a) :=
  ⟨Nat.le_of_ble_eq_true rfl, Nat.le_of_ble_eq_true rfl, opc_encode _, _, rfl, ⟨a, rfl⟩⟩

theorem jns (a : Imm) : Statement (.jns a) :=
  ⟨Nat.le_of_ble_eq_true rfl, Nat.le_of_ble_eq_true rfl, opc_encode _, _, rfl, ⟨a, rfl⟩⟩

theorem je (a : Imm) : Statement (.je a) :=
  ⟨Nat.le_of_ble_eq_true rfl, Nat.le_of_ble_eq_true rfl, opc_encode _, _, rfl, ⟨a, rfl⟩⟩

theorem jne (a : Imm) : Statement (.jne a) :=
  ⟨Nat.le_of_ble_eq_true rfl, Nat.le_of_ble_eq_true rfl, opc_encode _, _, rfl, ⟨a, rfl⟩⟩

theorem jb (a : Imm) : Statement (.jb a) :=
  ⟨Nat.le_of_ble_eq_true rfl, Nat.le_of_ble_eq_true rfl, opc_encode _, _, rfl, ⟨a, rfl⟩⟩

theorem jnb (a : Imm) : Statement (.jnb a) :=
  ⟨Nat.le_of_ble_eq_true rfl, Nat.le_of_ble_eq_true rfl, opc_encode _, _, rfl, ⟨a, rfl⟩⟩

theorem jbe (a : Imm) : Statement (.jbe a) :=
  ⟨Nat.le_of_ble_eq_true rfl, Nat.le_of_ble_eq_true rfl, opc_encode _, _, rfl, ⟨a, rfl⟩⟩

theorem ja (a : Imm) : Statement (.ja a) :=
  ⟨Nat.le_of_ble_eq_true rfl, Nat.le_of_ble_eq_true rfl, opc_encode _, _, rfl, ⟨a, rfl⟩⟩

theorem jl (a : Imm) : Statement (.jl a) :=
  ⟨Nat.le_of_ble_eq_true rfl, Nat.le_of_ble_eq_true rfl, opc_encode _, _, rfl, ⟨a, rfl⟩⟩

theorem jge (a : Imm) : Statement (.jge a) :=
  ⟨Nat.le_of_ble_eq_true rfl, Nat.le_of_ble_eq_true rfl, opc_encode _, _, rfl, ⟨a, rfl⟩⟩

theorem jle (a : Imm) : Statement (.jle a) :=
  ⟨Nat.le_of_ble_eq_true rfl, Nat.le_of_ble_eq_true rfl, opc_encode _, _, rfl, ⟨a, rfl⟩⟩

theorem jg (a : Imm) : Statement (.jg a) :=
  ⟨Nat.le_of_ble_eq_true rfl, Nat.le_of_ble_eq_true rfl, opc_encode _, _, rfl, ⟨a, rfl⟩⟩

theorem jp (a : Imm) : Statement (.jp a) :=
  ⟨Nat.le_of_ble_eq_true rfl, Nat.le_of_ble_eq_true rfl, opc_encode _, _, rfl, ⟨a, rfl⟩⟩

theorem jnp (a : Imm) : Statement (.jnp a) :=
  ⟨Nat.le_of_ble_eq_true rfl, Nat.le_of_ble_eq_true rfl, opc_encode _, _, rfl, ⟨a, rfl⟩⟩

theorem jcxz (a : Imm) : Statement (.jcxz a) :=
  ⟨Nat.le_of_ble_eq_true rfl, Nat.le_of_ble_eq_true rfl, opc_encode _, _, rfl, ⟨a, rfl⟩⟩

theorem jecxz (a : Imm) : Statement (.jecxz a) :=
  ⟨Nat.le_of_ble_eq_true rfl, Nat.le_of_ble_eq_true rfl, opc_encode _, _, rfl, ⟨a, rfl⟩⟩

theorem cmp (a : Place) (b : Source) : Statement (.cmp a b) :=
  ⟨Nat.le_of_ble_eq_true rfl, Nat.le_of_ble_eq_true rfl, opc_encode _, _, rfl, ⟨a, b, rfl⟩⟩

theorem add (a : Place) (b : Source) : Statement (.add a b) :=
  ⟨Nat.le_of_ble_eq_true rfl, Nat.le_of_ble_eq_true rfl, opc_encode _, _, rfl, ⟨a, b, rfl⟩⟩

theorem adc (a : Place) (b : Source) : Statement (.adc a b) :=
  ⟨Nat.le_of_ble_eq_true rfl, Nat.le_of_ble_eq_true rfl, opc_encode _, _, rfl, ⟨a, b, rfl⟩⟩

theorem sub (a : Place) (b : Source) : Statement (.sub a b) :=
  ⟨Nat.le_of_ble_eq_true rfl, Nat.le_of_ble_eq_true rfl, opc_encode _, _, rfl, ⟨a, b, rfl⟩⟩

theorem sbb (a : Place) (b : Source) : Statement (.sbb a b) :=
  ⟨Nat.le_of_ble_eq_true rfl, Nat.le_of_ble_eq_true rfl, opc_encode _, _, rfl, ⟨a, b, rfl⟩⟩

theorem idiv (a : Place) : Statement (.idiv a) :=
  ⟨Nat.le_of_ble_eq_true rfl, Nat.le_of_ble_eq_true rfl, opc_encode _, _, rfl, ⟨a, rfl⟩⟩

theorem imul (a : Place) : Statement (.imul a) :=
  ⟨Nat.le_of_ble_eq_true rfl, Nat.le_of_ble_eq_true rfl, opc_encode _, _, rfl, ⟨a, rfl⟩⟩

theorem dec (a : Place) : Statement (.dec a) :=
  ⟨Nat.le_of_ble_eq_true rfl, Nat.le_of_ble_eq_true rfl, opc_encode _, _, rfl, ⟨a, rfl⟩⟩

theorem inc (a : Place) : Statement (.inc a) :=
  ⟨Nat.le_of_ble_eq_true rfl, Nat.le_of_ble_eq_true rfl, opc_encode _, _, rfl, ⟨a, rfl⟩⟩

theorem and (a : Place) (b : Source) : Statement (.and a b) :=
  ⟨Nat.le_of_ble_eq_true rfl, Nat.le_of_ble_eq_true rfl, opc_encode _, _, rfl, ⟨a, b, rfl⟩⟩

theorem or (a : Place) (b : Source) : Statement (.or a b) :=
  ⟨Nat.le_of_ble_eq_true rfl, Nat.le_of_ble_eq_true rfl, opc_encode _, _, rfl, ⟨a, b, rfl⟩⟩

theorem xor (a : Place) (b : Source) : Statement (.xor a b) :=
  ⟨Nat.le_of_ble_eq_true rfl, Nat.le_of_ble_eq_true rfl, opc_encode _, _, rfl, ⟨a, b, rfl⟩⟩

theorem std : Statement .std :=
  ⟨Nat.le_of_ble_eq_true rfl, Nat.le_of_ble_eq_true rfl, opc_encode _, _, rfl, rfl⟩

theorem cld : Statement .cld :=
  ⟨Nat.le_of_ble_eq_true rfl, Nat.le_of_ble_eq_true rfl, opc_encode _, _, rfl, rfl⟩

theorem stc : Statement .stc :=
  ⟨Nat.le_of_ble_eq_true rfl, Nat.le_of_ble_eq_true rfl, opc_encode _, _, rfl, rfl⟩

theorem clc : Statement .clc :=
  ⟨Nat.le_of_ble_eq_true rfl, Nat.le_of_ble_eq_true rfl, opc_encode _, _, rfl, rfl⟩

end Sys2Proof.Laws.OpcodeField
end

