-- ==== Sys2Proof/Tests/Slice0.lean ====
section
/-! SUPPORT. The model's own tests: ill-formed terms refused, slots written out from the encoding tables decoded, single steps of
the spec's vectors (95_test_vectors.md, which names the rule each is derived from), and a witness for the hypotheses of every
statement that has some. -/

namespace Sys2Proof.Tests

open Sys2Proof Sys2Proof.Machine

/-! ### Helpers -/

/-- A constructed machine with the named registers written. -/
def machine (cfg : Config) (regs : List (Reg × Word)) : State :=
  regs.foldl (fun s p => s.writeReg p.1 p.2) (State.construct cfg [] [])

/-- The same under the default parameters. -/
def regs (l : List (Reg × Word)) : State := machine Config.default l

/-- The same with 4-byte words stored in memory. -/
def regsMem (l : List (Reg × Word)) (m : List (Nat × Word)) : State :=
  m.foldl (fun s p => s.storeWord p.1 4 p.2) (regs l)

/-- The state with CF, ZF, SF, OF and PF set, in the order of 95_test_vectors.md; DF stays. -/
def flagged (s : State) (c z g o p : Bool) : State :=
  { s with flags := { s.flags with CF := .val c, ZF := .val z, SF := .val g, OF := .val o, PF := .val p } }

/-- The state after a next outcome. -/
def after (i : Instr) (s : State) : State :=
  match exec i s with
  | .next t => t
  | .fault _ => s
  | .refused _ => s

/-- The state after a step. -/
def stepped (s : State) : State :=
  match step s with
  | .next t => t
  | .fault _ => s
  | .refused _ => s

/-- CF, ZF, SF, OF, PF, in the order of 95_test_vectors.md. -/
def five (s : State) : List Flag := [s.flags.CF, s.flags.ZF, s.flags.SF, s.flags.OF, s.flags.PF]

/-- Five flags that hold values. -/
def vals (c z g o p : Bool) : List Flag := [.val c, .val z, .val g, .val o, .val p]

/-- The operand `EAX`. -/
def eax : Place := .reg .eax

/-! ### Ill-formed terms are refused by WellFormed -/

theorem test_wf_memory_to_memory : (Instr.mov (.deref .w4 0) (.place (.deref .w4 4))).WellFormed = false := by decide
theorem test_wf_widths_differ : (Instr.add (.reg .eax) (.place (.reg .bl))).WellFormed = false := by decide
theorem test_wf_push_width : (Instr.push (.place (.reg .ax))).WellFormed = false := by decide
theorem test_wf_pop_width : (Instr.pop (.deref .w2 0)).WellFormed = false := by decide
theorem test_wf_accepts : (Instr.mov (.mem .w1 ⟨.eax, none, 0⟩) (.place (.reg .ah))).WellFormed = true := by decide

/-! ### Decoding: one slot written out for every constructor

A constant of width 4 has the descriptor 0x00A, which stands in W0 bits 18:6 as 0x280. -/

theorem test_decode_data_movement :
    decode ⟨0x00505001, 0, 0xFF⟩ = .ok (.mov (.reg .ah) (.const 0xFF)) ∧
    decode ⟨0x00001244, 0, 0⟩ = .ok (.pop (.mem .w4 ⟨.esp, none, 0⟩)) ∧
    decode ⟨0x00000285, 0x1234, 0⟩ = .ok (.push (.const 0x1234)) := by decide
theorem test_decode_alu :
    decode ⟨0x005002E0, 0x10, 0⟩ = .ok (.cmp (.deref .w4 0x10) (.const 0)) ∧
    decode ⟨0x01C00221, 0, 0⟩ = .ok (.add eax (.place (.reg .ebx))) ∧
    decode ⟨0x00500A22, 0, 0⟩ = .ok (.adc (.reg .edx) (.const 0)) ∧
    decode ⟨0x01C00223, 0, 0⟩ = .ok (.sub eax (.place (.reg .ebx))) ∧
    decode ⟨0x00500224, 0, 4⟩ = .ok (.sbb eax (.const 4)) ∧
    decode ⟨0x00500229, 0, 0x80000001⟩ = .ok (.and eax (.const 0x80000001)) ∧
    decode ⟨0x0050022A, 0, 1⟩ = .ok (.or eax (.const 1)) ∧
    decode ⟨0x01400A2B, 0, 0⟩ = .ok (.xor (.reg .edx) (.place (.reg .edx))) ∧
    decode ⟨0x00000627, 0, 0⟩ = .ok (.dec (.reg .ecx)) ∧ decode ⟨0x00000628, 0, 0⟩ = .ok (.inc (.reg .ecx)) := by decide
theorem test_decode_multiply_divide_flags :
    decode ⟨0x00004C26, 0, 0⟩ = .ok (.imul (.reg .bl)) ∧ decode ⟨0x00000E25, 0, 0⟩ = .ok (.idiv (.reg .ebx)) ∧
    decode ⟨0x0000002C, 0, 0⟩ = .ok .std ∧ decode ⟨0x0000002D, 0, 0⟩ = .ok .cld ∧ decode ⟨0x0000002E, 0, 0⟩ = .ok .stc ∧
    decode ⟨0x0000002F, 0, 0⟩ = .ok .clc := by decide
theorem test_decode_jumps :
    decode ⟨0x0000028D, 7, 0⟩ = .ok (.jmp ⟨.w4, 7⟩) ∧ decode ⟨0x0000028E, 2, 0⟩ = .ok (.jo ⟨.w4, 2⟩) ∧
    decode ⟨0x0000028F, 2, 0⟩ = .ok (.jno ⟨.w4, 2⟩) ∧ decode ⟨0x00000290, 2, 0⟩ = .ok (.js ⟨.w4, 2⟩) ∧
    decode ⟨0x00000291, 2, 0⟩ = .ok (.jns ⟨.w4, 2⟩) ∧ decode ⟨0x00000292, 2, 0⟩ = .ok (.je ⟨.w4, 2⟩) ∧
    decode ⟨0x00000293, 1, 0⟩ = .ok (.jne ⟨.w4, 1⟩) ∧ decode ⟨0x00000294, 2, 0⟩ = .ok (.jb ⟨.w4, 2⟩) ∧
    decode ⟨0x00000295, 2, 0⟩ = .ok (.jnb ⟨.w4, 2⟩) ∧ decode ⟨0x00000296, 2, 0⟩ = .ok (.jbe ⟨.w4, 2⟩) := by decide
theorem test_decode_more_jumps :
    decode ⟨0x00000297, 0xB, 0⟩ = .ok (.ja ⟨.w4, 0xB⟩) ∧ decode ⟨0x00000298, 2, 0⟩ = .ok (.jl ⟨.w4, 2⟩) ∧
    decode ⟨0x00000299, 6, 0⟩ = .ok (.jge ⟨.w4, 6⟩) ∧ decode ⟨0x0000029A, 2, 0⟩ = .ok (.jle ⟨.w4, 2⟩) ∧
    decode ⟨0x0000029B, 2, 0⟩ = .ok (.jg ⟨.w4, 2⟩) ∧ decode ⟨0x0000029C, 2, 0⟩ = .ok (.jp ⟨.w4, 2⟩) ∧
    decode ⟨0x0000029D, 2, 0⟩ = .ok (.jnp ⟨.w4, 2⟩) ∧ decode ⟨0x0000029E, 4, 0⟩ = .ok (.jcxz ⟨.w4, 4⟩) ∧
    decode ⟨0x0000029F, 4, 0⟩ = .ok (.jecxz ⟨.w4, 4⟩) := by decide
theorem test_decode_loops_and_calls :
    decode ⟨0x0000028A, 2, 0⟩ = .ok (.loop ⟨.w4, 2⟩) ∧ decode ⟨0x0000028B, 2, 0⟩ = .ok (.loope ⟨.w4, 2⟩) ∧
    decode ⟨0x0000028C, 0, 0⟩ = .ok (.loopne ⟨.w4, 0⟩) ∧ decode ⟨0x00000286, 9, 0⟩ = .ok (.call ⟨.w4, 9⟩) ∧
    decode ⟨0x00000007, 0, 0⟩ = .ok .ret ∧ decode ⟨0x00000008, 0, 0⟩ = .ok .enter ∧
    decode ⟨0x00000009, 0, 0⟩ = .ok .leave := by decide
theorem test_decode_system :
    decode ⟨0x00000282, 1, 0⟩ = .ok (.int ⟨.w4, 1⟩) ∧ decode ⟨0x00000003, 0, 0⟩ = .ok .hlt := by decide

/-- The width code of a binary instruction's constant is not checked (R87, R93): two slots, one instruction. -/
theorem test_decode_unchecked_width_code : decode ⟨0x00105001, 0, 0xFF⟩ = decode ⟨0x00505001, 0, 0xFF⟩ := by decide

/-- Illegal slots of 95_test_vectors.md section 2.11, each with its reason. -/
theorem test_illegal_opcodes_and_unused :
    decode ⟨0, 0, 0⟩ = .error .unassignedOpcode ∧ decode ⟨0x30, 0, 0⟩ = .error .unassignedOpcode ∧
    decode ⟨0x3F, 0, 0⟩ = .error .unassignedOpcode ∧ decode ⟨0x03, 1, 0⟩ = .error .unusedOperandNonzero ∧
    decode ⟨0x43, 0, 0⟩ = .error .unusedOperandNonzero := by decide
theorem test_illegal_operands :
    decode ⟨0x00000382, 1, 0⟩ = .error .badWidthCode ∧ decode ⟨0x00006205, 0, 0⟩ = .error .badRegister ∧
    decode ⟨0x00008205, 0, 0⟩ = .error .badRegister ∧ decode ⟨0x00000205, 1, 0⟩ = .error .badRegister ∧
    decode ⟨0x00000028, 0, 0⟩ = .error .badRegister ∧ decode ⟨0x09C80201, 0, 0⟩ = .error .badMemoryIndex ∧
    decode ⟨0x00000682, 1, 0⟩ = .error .badConstantBits := by decide
theorem test_illegal_tuples_and_widths :
    decode ⟨0x00400281, 5, 0⟩ = .error .tupleNotAllowed ∧ decode ⟨0x03480E41, 0, 0⟩ = .error .tupleNotAllowed ∧
    decode ⟨0x0000020D, 0, 0⟩ = .error .tupleNotAllowed ∧ decode ⟨0x000002A6, 3, 0⟩ = .error .tupleNotAllowed ∧
    decode ⟨0x09800221, 0, 0⟩ = .error .widthRule ∧ decode ⟨0x00000085, 5, 0⟩ = .error .widthRule := by decide

/-- The table's bit numbering: W1 is bits 63:32 and W2 bits 95:64. -/
theorem test_decode_table_word :
    decodeTableWord 96 0x000000050000000000500201 = some (.mov eax (.const 5)) ∧ decodeTableWord 32 0x03 = some .hlt ∧
    decodeTableWord 32 0 = none := by decide

/-! ### Data movement (40_data_movement.md) -/

theorem test_mov_high_byte :
    (after (.mov (.reg .ah) (.const 0xAA)) (regs [(.eax, 0x11223344)])).readReg .eax = .ok 0x1122AA44 := by decide
theorem test_mov_memory :
    (after (.mov (.mem .w4 ⟨.ebp, none, 0xFFFFFFFC⟩) (.place eax)) (regs [(.eax, 7)])).memRead 60 4 = .ok 7 := by decide
theorem test_mov_undef_source : after (.mov eax (.place eax)) (regs []) = (regs []).takeFault .unwrittenRead := by decide

/-- Program P7 of 95_test_vectors.md: after `MOV AL, 5` at reset AL is 5, and `ADD EAX, 1` faults on the bytes still `undef`. -/
theorem test_p7_partly_written_register :
    (after (.mov (.reg .al) (.const 5)) (regs [])).readReg .al = .ok 5 ∧
    after (.add eax (.const 1)) (regs [(.al, 5)]) = (regs [(.al, 5)]).takeFault .unwrittenRead := by decide
theorem test_push_esp :
    (after (.push (.place (.reg .esp))) (regs [])).memRead 60 4 = .ok 0x40 ∧
    (after (.push (.place (.reg .esp))) (regs [])).readReg .esp = .ok 60 := by decide
theorem test_push_bounds :
    after (.push (.const 1)) (regs [(.esp, 2)]) = (regs [(.esp, 2)]).takeFault .memoryOutOfRange ∧
    after (.push (.const 1)) (regs [(.esp, 66)]) = (regs [(.esp, 66)]).takeFault .memoryOverflow ∧
    after (.push (.const 1)) (regs [(.esp, 68)]) = (regs [(.esp, 68)]).takeFault .memoryOutOfRange := by decide
theorem test_pop_esp : (after (.pop (.reg .esp)) (regsMem [(.esp, 60)] [(60, 0x30)])).readReg .esp = .ok 0x30 := by decide
theorem test_pop_at_esp :
    (after (.pop (.mem .w4 ⟨.esp, none, 0⟩)) (regsMem [(.esp, 56)] [(56, 9)])).memRead 56 4 = .ok 9 ∧
    (after (.pop (.mem .w4 ⟨.esp, none, 0⟩)) (regsMem [(.esp, 56)] [(56, 9)])).readReg .esp = .ok 60 := by decide

/-! ### The ALU (41_alu.md) -/

theorem test_add :
    (after (.add eax (.const 1)) (regs [(.eax, 0x7FFFFFFF)])).readReg .eax = .ok 0x80000000 ∧
    five (after (.add eax (.const 1)) (regs [(.eax, 0x7FFFFFFF)])) = vals false false true true true := by decide
theorem test_add_carry :
    five (after (.add eax (.const 0x80000000)) (regs [(.eax, 0x80000000)])) = vals true true false true true := by decide
theorem test_adc :
    (after (.adc eax (.const 0xFFFFFFFF)) (flagged (regs [(.eax, 0xFFFFFFFF)]) true false false false false)).readReg .eax
      = .ok 0xFFFFFFFF ∧
    five (after (.adc eax (.const 0xFFFFFFFF)) (flagged (regs [(.eax, 0xFFFFFFFF)]) true false false false false))
      = vals true false true false true := by decide
theorem test_adc_reads_carry : after (.adc eax (.const 0)) (regs [(.eax, 1)]) = (regs [(.eax, 1)]).takeFault .unwrittenRead := by
  decide
theorem test_sub :
    (after (.sub eax (.const 0xFFFFFFFF)) (regs [(.eax, 0x7FFFFFFF)])).readReg .eax = .ok 0x80000000 ∧
    five (after (.sub eax (.const 0xFFFFFFFF)) (regs [(.eax, 0x7FFFFFFF)])) = vals true false true true true := by decide
theorem test_sbb :
    (after (.sbb eax (.const 0xFFFFFFFF)) (flagged (regs [(.eax, 0)]) true false false false false)).readReg .eax = .ok 0 ∧
    five (after (.sbb eax (.const 0xFFFFFFFF)) (flagged (regs [(.eax, 0)]) true false false false false))
      = vals true true false false true := by decide
theorem test_cmp :
    (after (.cmp eax (.const 2)) (regs [(.eax, 0xFFFFFFFD)])).readReg .eax = .ok 0xFFFFFFFD ∧
    five (after (.cmp eax (.const 2)) (regs [(.eax, 0xFFFFFFFD)])) = vals false false true false false := by decide
theorem test_and :
    five (after (.and eax (.const 0x0F0F0F0F)) (regs [(.eax, 0xF0F0F0F0)])) = vals false true false false true := by decide
theorem test_or :
    (after (.or eax (.const 1)) (regs [(.eax, 0x80000000)])).readReg .eax = .ok 0x80000001 ∧
    five (after (.or eax (.const 1)) (regs [(.eax, 0x80000000)])) = vals false false true false false := by decide
theorem test_xor :
    (after (.xor eax (.const 1)) (regs [(.eax, 0xFF)])).readReg .eax = .ok 0xFE ∧
    five (after (.xor eax (.const 1)) (regs [(.eax, 0xFF)])) = vals false false false false false := by decide
theorem test_inc : five (after (.inc eax) (regs [(.eax, 0xFFFFFFFF)])) = vals true true false false true := by decide
theorem test_inc_preserves_carry :
    five (after (.inc eax) (machine { Config.default with incDecCF := .preserved } [(.eax, 0xFFFFFFFF)]))
      = [.undef, .val true, .val false, .val false, .val true] := by decide
theorem test_dec : five (after (.dec eax) (regs [(.eax, 0)])) = vals true false true false true := by decide

/-- 41_alu.md R137: `ADD AX, AX` at EAX = 0x1234C001, and `ADD AH, AL`. -/
theorem test_add_same_storage :
    (after (.add (.reg .ax) (.place (.reg .ax))) (regs [(.eax, 0x1234C001)])).readReg .eax = .ok 0x12348002 ∧
    (after (.add (.reg .ah) (.place (.reg .al))) (regs [(.eax, 0x201)])).readReg .eax = .ok 0x301 := by decide

/-- 95_test_vectors.md section 2.2, `ADD AL, 1` at 0xFF under the three settings. -/
theorem test_narrow_add :
    five (after (.add (.reg .al) (.const 1)) (regs [(.eax, 0xFF)])) = vals false false false false true ∧
    five (after (.add (.reg .al) (.const 1)) (machine { Config.default with narrowExt := .sign } [(.eax, 0xFF)]))
      = vals true true false false true ∧
    five (after (.add (.reg .al) (.const 1)) (machine { Config.default with flagWidth := .operand } [(.eax, 0xFF)]))
      = vals true true false false true := by decide
/-- 95_test_vectors.md section 2.2, `SUB AL, 1` at 0x80 under the three settings. -/
theorem test_narrow_sub :
    five (after (.sub (.reg .al) (.const 1)) (regs [(.eax, 0x80)])) = vals false false false false false ∧
    five (after (.sub (.reg .al) (.const 1)) (machine { Config.default with narrowExt := .sign } [(.eax, 0x80)]))
      = vals false false true false false ∧
    five (after (.sub (.reg .al) (.const 1)) (machine { Config.default with flagWidth := .operand } [(.eax, 0x80)]))
      = vals false false false true false := by decide

/-! ### Multiply and divide (42_multiply_divide.md) -/

theorem test_imul :
    (after (.imul (.reg .ebx)) (regs [(.eax, 0xFFFFFFFE), (.ebx, 3)])).readReg .eax = .ok 0xFFFFFFFA ∧
    (after (.imul (.reg .ebx)) (regs [(.eax, 0xFFFFFFFE), (.ebx, 3)])).readReg .edx = .ok 0xFFFFFFFF ∧
    five (after (.imul (.reg .ebx)) (regs [(.eax, 0xFFFFFFFE), (.ebx, 3)])) = [.undef, .undef, .undef, .undef, .undef] := by
  decide
theorem test_imul_narrow :
    (after (.imul (.reg .bl)) (regs [(.eax, 2), (.bl, 0xFF)])).readReg .eax = .ok 0x1FE ∧
    (after (.imul (.reg .bl)) (machine { Config.default with narrowExt := .sign } [(.eax, 2), (.bl, 0xFF)])).readReg .edx
      = .ok 0xFFFFFFFF := by decide
theorem test_idiv :
    (after (.idiv (.reg .ebx)) (regs [(.edx, 0xFFFFFFFF), (.eax, 0xFFFFFFF9), (.ebx, 2)])).readReg .eax = .ok 0xFFFFFFFD ∧
    (after (.idiv (.reg .ebx)) (regs [(.edx, 0xFFFFFFFF), (.eax, 0xFFFFFFF9), (.ebx, 2)])).readReg .edx = .ok 0xFFFFFFFF ∧
    (after (.idiv (.reg .ebx)) (regs [(.edx, 0), (.eax, 0x80000000), (.ebx, 0xFFFFFFFF)])).readReg .eax = .ok 0x80000000 := by
  decide
theorem test_idiv_faults :
    after (.idiv (.reg .ebx)) (regs [(.edx, 0), (.eax, 0x80000000), (.ebx, 1)])
      = (regs [(.edx, 0), (.eax, 0x80000000), (.ebx, 1)]).takeFault .divideOverflow ∧
    after (.idiv (.reg .ebx)) (regs [(.edx, 0), (.eax, 10), (.ebx, 0)])
      = (regs [(.edx, 0), (.eax, 10), (.ebx, 0)]).takeFault .divideByZero ∧
    after (.idiv (.reg .ebx)) (regs [(.eax, 10), (.ebx, 0)]) = (regs [(.eax, 10), (.ebx, 0)]).takeFault .unwrittenRead := by
  decide

/-! ### Flag control and control flow (43_flag_control.md, 44_control_flow.md) -/

theorem test_flag_control :
    (after .std (regs [])).flags.DF = .val true ∧ (after .cld (regs [])).flags.DF = .val false ∧
    (after .stc (regs [])).flags.CF = .val true ∧ (after .clc (regs [])).flags.CF = .val false := by decide

/-- The predicate table of 95_test_vectors.md section 2.6, row `CMP −3, 2`: the jumps that are taken. -/
theorem test_jumps_taken :
    [Instr.jne ⟨.w4, 9⟩, .jnb ⟨.w4, 9⟩, .ja ⟨.w4, 9⟩, .jl ⟨.w4, 9⟩, .jle ⟨.w4, 9⟩, .js ⟨.w4, 9⟩, .jno ⟨.w4, 9⟩, .jnp ⟨.w4, 9⟩,
      .jmp ⟨.w4, 9⟩].all (fun i => (after i (flagged (regs []) false false true false false)).ip = 9) = true := by decide
/-- The same row: the jumps that are not taken. -/
theorem test_jumps_not_taken :
    [Instr.je ⟨.w4, 9⟩, .jb ⟨.w4, 9⟩, .jbe ⟨.w4, 9⟩, .jge ⟨.w4, 9⟩, .jg ⟨.w4, 9⟩, .jns ⟨.w4, 9⟩, .jo ⟨.w4, 9⟩,
      .jp ⟨.w4, 9⟩].all (fun i => (after i (flagged (regs []) false false true false false)).ip = 1) = true := by decide
/-- The same table, row `CMP 1, 0x80000000`, where signed and unsigned orders differ. -/
theorem test_jumps_other_row :
    [Instr.jb ⟨.w4, 9⟩, .jbe ⟨.w4, 9⟩, .jge ⟨.w4, 9⟩, .jg ⟨.w4, 9⟩, .jo ⟨.w4, 9⟩].all
      (fun i => (after i (flagged (regs []) true false true true false)).ip = 9) = true ∧
    [Instr.jnb ⟨.w4, 9⟩, .ja ⟨.w4, 9⟩, .jl ⟨.w4, 9⟩, .jle ⟨.w4, 9⟩, .jno ⟨.w4, 9⟩].all
      (fun i => (after i (flagged (regs []) true false true true false)).ip = 1) = true := by decide
theorem test_jump_reads_every_flag :
    after (.jbe ⟨.w4, 9⟩) { regs [] with flags := ⟨.val true, .undef, .undef, .undef, .undef, .undef⟩ }
      = State.takeFault .unwrittenRead { regs [] with flags := ⟨.val true, .undef, .undef, .undef, .undef, .undef⟩ } := by decide
theorem test_jcxz_jecxz :
    (after (.jcxz ⟨.w4, 9⟩) (regs [(.ecx, 0x10000)])).ip = 1 ∧ (after (.jecxz ⟨.w4, 9⟩) (regs [(.ecx, 0)])).ip = 9 ∧
    (after (.jcxz ⟨.w4, 9⟩) (machine { Config.default with cxzWidth := .bits16 } [(.ecx, 0x10000)])).ip = 9 := by decide
theorem test_loop :
    (after (.loop ⟨.w4, 2⟩) { regs [(.ecx, 1)] with ip := 3 }).ip = 4 ∧
    (after (.loop ⟨.w4, 2⟩) { regs [(.ecx, 0)] with ip := 3 }).ip = 2 ∧
    (after (.loop ⟨.w4, 2⟩) (regs [(.ecx, 0)])).readReg .ecx = .ok 0xFFFFFFFF := by decide
theorem test_loope_loopne :
    (after (.loope ⟨.w4, 2⟩) { flagged (regs [(.ecx, 5)]) false true false false false with ip := 3 }).ip = 2 ∧
    (after (.loope ⟨.w4, 2⟩) { flagged (regs [(.ecx, 1)]) false true false false false with ip := 3 }).ip = 4 ∧
    (after (.loopne ⟨.w4, 2⟩) { flagged (regs [(.ecx, 5)]) false true false false false with ip := 3 }).ip = 4 ∧
    (after (.loopne ⟨.w4, 2⟩) { flagged (regs [(.ecx, 5)]) false false false false false with ip := 3 }).ip = 2 := by decide
theorem test_call_ret :
    (after (.call ⟨.w4, 9⟩) { regs [(.esp, 60)] with ip := 2 }).memRead 56 4 = .ok 3 ∧
    (after (.call ⟨.w4, 9⟩) { regs [(.esp, 60)] with ip := 2 }).ip = 9 ∧
    (after .ret (regsMem [(.esp, 56)] [(56, 3)])).ip = 3 ∧
    (after .ret (regsMem [(.esp, 56)] [(56, 3)])).readReg .esp = .ok 60 := by decide
theorem test_ret_bounds :
    after .ret (regs [(.esp, 64)]) = (regs [(.esp, 64)]).takeFault .memoryOutOfRange ∧
    after .ret (regs [(.esp, 62)]) = (regs [(.esp, 62)]).takeFault .memoryOverflow := by decide
theorem test_enter :
    (after .enter (regs [(.esp, 56)])).memRead 52 4 = .ok 0x40 ∧ (after .enter (regs [(.esp, 56)])).readReg .esp = .ok 52 ∧
    (after .enter (regs [(.esp, 56)])).readReg .ebp = .ok 52 := by decide
theorem test_leave :
    (after .leave (regsMem [(.ebp, 52), (.esp, 44)] [(52, 64)])).readReg .ebp = .ok 64 ∧
    (after .leave (regsMem [(.ebp, 52), (.esp, 44)] [(52, 64)])).readReg .esp = .ok 56 := by decide
theorem test_leave_pop_only :
    (after .leave { regsMem [(.ebp, 52), (.esp, 44)] [(52, 64)] with
      cfg := { Config.default with leaveMode := .popOnly } }).readReg .ebp = .ok 0 ∧
    (after .leave { regsMem [(.ebp, 52), (.esp, 44)] [(52, 64)] with
      cfg := { Config.default with leaveMode := .popOnly } }).readReg .esp = .ok 48 := by decide

/-! ### INT and HLT (45_system.md) -/

theorem test_int_print :
    (after (.int ⟨.w1, 0x101⟩) (regs [(.eax, 0xF)])).events = [.print 0xF] ∧
    (after (.int ⟨.w4, 3⟩) (regs [])).events = [.error .unknownInterrupt 0] := by decide
theorem test_int_string :
    (after (.int ⟨.w4, 2⟩) (regsMem [(.eax, 0)] [(0, 0x6948)])).events = [.printString [0x48, 0x69]] ∧
    (after (.int ⟨.w4, 2⟩) (regsMem [(.eax, 60)] [(60, 0x01010101)])).events = [.error .memoryOutOfRange 0] := by decide
theorem test_hlt :
    (after .hlt { regs [] with ip := 5, sched := .running, pendingTick := true }).ip = 6 ∧
    (after .hlt { regs [] with sched := .running, pendingTick := true }).sched = .halted ∧
    (after .hlt { regs [] with sched := .running, pendingTick := true }).pendingTick = false ∧
    (after .hlt (regs [])).events = [.exit] := by decide

/-! ### The step (60_exceptions.md) -/

/-- 95_test_vectors.md V1. -/
theorem test_step_mov :
    (stepped (State.reset.withFetchWord 96 0x000000050000000000500201)).readReg .eax = .ok 5 ∧
    (stepped (State.reset.withFetchWord 96 0x000000050000000000500201)).ip = 1 := by decide
/-- 95_test_vectors.md section 2.9: the ends, the bad address, an illegal slot. -/
theorem test_step_special :
    (stepped State.reset).events = [.exit] ∧ (stepped { State.reset with ip := 5 }).ip = 5 ∧
    (stepped { State.reset with ip := 0x80000000 }).events = [.error .badInstructionAddress 0x80000000] ∧
    (stepped (State.reset.withFetchWord 32 0)).events = [.error .illegalInstruction 0] := by decide
/-- 95_test_vectors.md V8, steps 2 and 3. -/
theorem test_step_breakpoint :
    (stepped ((State.construct Config.default [encode .std] []).setBreakpoints [0])).visited = true ∧
    (stepped ((State.construct Config.default [encode .std] []).setBreakpoints [0])).ip = 0 ∧
    (stepped (stepped ((State.construct Config.default [encode .std] []).setBreakpoints [0]))).ip = 1 := by decide

/-! ### Boot and the assembler (70_reset_and_hazards.md R262; 30_encoding.md R95 to R106) -/

/-- The loaded state of a start, or the state of a refusal. -/
def started (s : State) : State :=
  match s.bootLoad with
  | .loaded t => t
  | .loadError t => t

/-- 95_test_vectors.md V9. -/
theorem test_boot_data :
    (started (State.construct Config.default [] [⟨0, .w4, 1⟩, ⟨4, .w4, 2⟩, ⟨8, .w4, 3⟩])).mem.getBytes 0 12
      = [1, 0, 0, 0, 2, 0, 0, 0, 3, 0, 0, 0] ∧
    (started (State.construct Config.default [] [⟨62, .w4, 1⟩])).started = false := by decide

/-- The slots of an assembled program, or none. -/
def slotsOf (data : List DataLine) (text : List TextLine) : List Slot :=
  match assemble data text with
  | .ok p => p.slots
  | .error _ => []

/-- 95_test_vectors.md V5. -/
theorem test_assemble_forward :
    slotsOf [] [⟨none, some ("JMP", [.const none (.label (.global "later"))]), 1⟩,
      ⟨none, some ("MOV", [.reg none "EAX", .const none (.number 1)]), 2⟩, ⟨some (.global "later"), some ("HLT", []), 3⟩]
      = [⟨0x28D, 2, 0⟩, ⟨0x500201, 0, 1⟩, ⟨3, 0, 0⟩] := by decide

/-- 95_test_vectors.md V6: the two jumps to `.end`. -/
theorem test_assemble_local :
    slotsOf [] [⟨some (.global "procA"), some ("JMP", [.const none (.label (.local "end"))]), 1⟩,
      ⟨some (.local "end"), some ("RET", []), 2⟩,
      ⟨some (.global "procB"), some ("JMP", [.const none (.label (.local "end"))]), 3⟩,
      ⟨some (.local "end"), some ("RET", []), 4⟩]
      = [⟨0x28D, 1, 0⟩, ⟨7, 0, 0⟩, ⟨0x28D, 3, 0⟩, ⟨7, 0, 0⟩] := by decide

/-- The failure of a text that does not assemble, or none. -/
def failureOf (text : List TextLine) : Option AssemblyException :=
  match assemble [] text with
  | .ok _ => none
  | .error e => some e

/-- 95_test_vectors.md section 2.11: an uncast constant has width code 2, and a cast one (R99) the slot with width code 0. -/
theorem test_assemble_constant_cast :
    slotsOf [] [⟨none, some ("MOV", [.reg none "AH", .const none (.number 0xFF)]), 1⟩,
      ⟨none, some ("MOV", [.reg none "AH", .const (some .w1) (.number 0xFF)]), 2⟩]
      = [⟨0x505001, 0, 0xFF⟩, ⟨0x105001, 0, 0xFF⟩] := by decide

/-- R98: the received and the accepted shapes, with the line (R95). -/
theorem test_assemble_shapes :
    failureOf [⟨none, some ("STC", []), 1⟩, ⟨none, some ("INC", [.const none (.number 1)]), 3⟩]
      = some ⟨.operandShapes [.C] [[.R], [.M], [.D]], 3⟩ := by decide

/-- R99: two explicit widths that differ, and the refusal of `MOV AL, [EBX]`. -/
theorem test_assemble_widths :
    failureOf [⟨none, some ("MOV", [.reg none "AL", .const (some .w4) (.number 5)]), 7⟩] = some ⟨.wrongSizeOfOperands, 7⟩ ∧
    failureOf [⟨none, some ("MOV", [.reg none "AL", .mem none "EBX" none 0]), 7⟩] = some ⟨.operandWidth, 7⟩ := by decide

/-- R100: an unresolved label fails on the line of its reference. -/
theorem test_assemble_unresolved :
    failureOf [⟨some (.global "a"), none, 1⟩, ⟨none, some ("JMP", [.const none (.label (.local "b"))]), 2⟩]
      = some ⟨.unresolvedLabel, 2⟩ := by decide

/-! ### Witnesses: concrete states and operands that meet the hypotheses of each statement -/

/-- A machine with EAX, ECX, EDX, EBX defined, every flag defined, ESP = 60 and EBP = 56. -/
def full (cfg : Config) : State :=
  { flagged (machine cfg [(.eax, 5), (.ecx, 1), (.edx, 0), (.ebx, 3), (.esp, 60), (.ebp, 56)]) true false true false true with
    flags := ⟨.val true, .val false, .val false, .val true, .val true, .val false⟩ }

/-- The parameters with big-endian memory. -/
def bigEndian : Config := { Config.default with endian := .big }

/-- A machine that holds a program. -/
def holding (p : List Slot) : State := State.construct Config.default p []

theorem exec_after (i : Instr) (s : State) : exec i s = .next (after i s) := by
  obtain ⟨t, h⟩ := exec_total i s
  simp only [after, h]

theorem witness_DecodeEncodeAgree : (Instr.mov (.mem .w2 ⟨.edi, some (.esi, .s8), 0xFFFFFFFF⟩) (.const 1)).WellFormed = true := by
  decide
theorem witness_DecodedSlotIsItsEncoding :
    decode ⟨0x00105001, 0, 0xFF⟩ = .ok (.mov (.reg .ah) (.const 0xFF)) ∧
    hasUncheckedWidthCode (.mov (.reg .ah) (.const 0xFF)) = true ∧
    decode ((⟨0x00105001, 0, 0xFF⟩ : Slot).withSecondWidthCode 3) = .error .badWidthCode ∧
    decode ⟨0x00000286, 9, 0⟩ = .ok (.call ⟨.w4, 9⟩) ∧ hasUncheckedWidthCode (.call ⟨.w4, 9⟩) = false := by decide
theorem witness_UnusedOperandPositionsAreZero :
    decode ⟨0x00000286, 9, 0⟩ = .ok (.call ⟨.w4, 9⟩) ∧ (Instr.call ⟨.w4, 9⟩).operands.length < 2 ∧
    decode ⟨0x00000003, 0, 0⟩ = .ok .hlt ∧ Instr.hlt.operands.length < 1 := by decide
theorem witness_StepRunsDecodedInstruction :
    (holding [encode .std]).ip.toNat < 2 ^ 31 ∧ (holding [encode .std]).program[0]? = some (encode .std) ∧
    (holding [encode .std]).ip ∉ (holding [encode .std]).breakpoints ∧ decode (encode .std) = .ok .std := by decide
theorem witness_StepsThatExecuteNothing :
    2 ^ 31 ≤ (0x80000000 : Word).toNat ∧ (0x7FFFFFFF : Word).toNat < 2 ^ 31 ∧
    (holding [⟨0, 0, 0⟩]).program.length ≤ (0x7FFFFFFF : Word).toNat ∧
    (0 : Word).toNat < (holding [⟨0, 0, 0⟩]).program.length ∧
    (0 : Word) ∈ ((holding [⟨0, 0, 0⟩]).setBreakpoints [0]).breakpoints ∧ (holding [⟨0, 0, 0⟩]).visited = false ∧
    decode ⟨0, 0, 0⟩ = .error .unassignedOpcode := by decide
theorem witness_FaultsArePrecise : ∃ t, exec .ret (full Config.default) = .next t := ⟨_, exec_after _ _⟩
theorem witness_SteppingAfterFaultFaultsAgain :
    ∃ t, step (holding [⟨0, 0, 0⟩]) = .next t ∧
      t.events = (holding [⟨0, 0, 0⟩]).events ++ [.error .illegalInstruction (holding [⟨0, 0, 0⟩]).ip] ∧
      (holding [⟨0, 0, 0⟩]).ip ∉ (holding [⟨0, 0, 0⟩]).breakpoints := ⟨_, rfl, rfl, by decide⟩
theorem witness_BreakpointPausesOnceThenRuns :
    ((holding [encode .std]).setBreakpoints [0]).ip.toNat < 2 ^ 31 ∧
    ((holding [encode .std]).setBreakpoints [0]).program[0]? = some (encode .std) ∧ decode (encode .std) = .ok .std ∧
    ((holding [encode .std]).setBreakpoints [0]).ip ∈ ((holding [encode .std]).setBreakpoints [0]).breakpoints ∧
    ((holding [encode .std]).setBreakpoints [0]).visited = false := by decide
theorem witness_InvariantAtReset :
    { Config.default with memSize := 8 }.wf ∧ { Config.default with memSize := 2 ^ 31 }.wf ∧
    ([] : List Slot).length ≤ 2 ^ 31 - 1 := by decide

/-- The invariant holds of a machine with a program, memory, breakpoints, a set fault mark, or a pending tick. -/
theorem witness_Inv :
    { holding [⟨0, 0, 0⟩] with mem := [(3, 7)], breakpoints := [0, 5], faultMark := true, sched := .running,
                               pendingTick := true, events := [.error .divideByZero 3] }.Inv := by
  constructor <;> decide
theorem witness_StepKeepsInvariant : (holding [encode .std]).Inv ∧ ∃ t, step (holding [encode .std]) = .next t :=
  ⟨by constructor <;> decide, _, rfl⟩
theorem witness_HostCallsKeepInvariant :
    (∃ t, (holding [encode .std]).tick = .next t) ∧
    (∃ t, (holding [encode .hlt]).runSync 1 = .next (.returned t)) ∧
    (∃ t, (holding []).bootLoad = .loaded t) ∧
    (∃ t, (State.construct Config.default [] [⟨61, .w4, 1⟩]).bootLoad = .loadError t) :=
  ⟨⟨_, rfl⟩, ⟨_, rfl⟩, ⟨_, rfl⟩, ⟨_, rfl⟩⟩
theorem witness_StepKeepsProgramAndAppendsEvents : ∃ t, step (holding [encode .hlt]) = .next t := ⟨_, rfl⟩
theorem witness_HiddenBanksAreUnobservable : ∃ t, step (holding [encode .stc]) = .next t := ⟨_, rfl⟩
theorem witness_DirectionFlagIsReadByNoInstruction :
    (∃ t, exec .cld (full Config.default) = .next t) ∧
    (∃ t, exec (.inc eax) (full Config.default) = .next t ∧ Instr.inc eax ≠ .std ∧ Instr.inc eax ≠ .cld) :=
  ⟨⟨_, exec_after _ _⟩, ⟨_, exec_after _ _, by decide, by decide⟩⟩
theorem witness_ProgramSeesNoHostState :
    SameProgramView (full Config.default) { full Config.default with sched := .running, pendingTick := true, events := [.exit] } ∧
    ∃ t, exec (.push (.place eax)) (full Config.default) = .next t := ⟨⟨rfl, rfl, rfl, rfl, rfl⟩, ⟨_, exec_after _ _⟩⟩
theorem witness_WrittenStaysDefined :
    (∃ t, step (full Config.default) = .next t) ∧ ((full Config.default).regs.byte 0 3).isVal = true ∧
    (∃ t, exec (.inc eax) (full Config.default) = .next t) ∧ (∀ p, Instr.inc eax ≠ .imul p) ∧ (∀ p, Instr.inc eax ≠ .idiv p) ∧
    (full Config.default).flags.CF.isVal = true ∧ (full Config.default).flags.DF.isVal = true :=
  ⟨⟨_, rfl⟩, by decide, ⟨_, exec_after _ _⟩, nofun, nofun, by decide, by decide⟩
theorem witness_ProcessStartLoadsTheDataSegment :
    (∀ d ∈ [(⟨60, .w4, 1⟩ : MemDef)], d.addr + d.size.bytes ≤ 64) ∧ (∀ d ∈ [(⟨60, .w4, 1⟩ : MemDef)], ¬ d.Holds 59) ∧
    (∃ d ∈ [(⟨61, .w4, 1⟩ : MemDef)], 64 < d.addr + d.size.bytes) ∧
    [(⟨60, .w4, 1⟩ : MemDef)] = [] ++ ⟨60, .w4, 1⟩ :: [] := by
  refine ⟨by decide, ?_, by decide, rfl⟩
  intro d h
  obtain rfl : d = ⟨60, .w4, 1⟩ := by simpa using h
  simp [MemDef.Holds]
theorem witness_SchedulerCalls :
    (∃ t, step { full Config.default with pendingTick := false } = .next t) ∧ { full Config.default with sched := .running }.sched = .running ∧
    (full Config.default).sched ≠ .running ∧ (full Config.default).setBreakpoints [3, 1, 3] = { full Config.default with breakpoints := [1, 3] } ∧
    (∃ t, (holding [encode .hlt]).runSync 1 = .next (.returned t)) ∧
    (∃ t, (holding [encode .stc]).runSync 1 = .next (.didNotEnd t)) := ⟨⟨_, rfl⟩, rfl, by decide, by decide, ⟨_, rfl⟩, ⟨_, rfl⟩⟩
theorem witness_ReadingARegisterView :
    (∀ k, Reg.ah.view.Covers Reg.ah.view.bank k → ((full Config.default).regs.byte Reg.ah.view.bank k).isVal = true) ∧
    (∃ k, Reg.edi.view.Covers Reg.edi.view.bank k ∧ (full Config.default).regs.byte Reg.edi.view.bank k = .undef) := by decide

/-- MEM_SIZE = 64: below 0, at the end, the last 4-byte access, and one byte further. -/
theorem witness_MemoryBoundsCheck :
    (-1 : Int) < 0 ∧ ((full Config.default).cfg.memSize : Int) ≤ 64 ∧ (61 : Int) < (full Config.default).cfg.memSize ∧
    ((full Config.default).cfg.memSize : Int) < 61 + 4 ∧ (60 : Int) + 4 ≤ (full Config.default).cfg.memSize := by decide
theorem witness_MemoryReadAssemblesBytes :
    checkAccess (full Config.default).cfg.memSize 61 4 = .error .memoryOverflow ∧ 60 + 4 ≤ (full Config.default).cfg.memSize ∧ (full Config.default).cfg.endian = .little ∧ (full bigEndian).cfg.endian = .big := by
  decide
theorem witness_MemoryWriteStoresBytes :
    checkAccess (full Config.default).cfg.memSize (-1) 4 = .error .memoryOutOfRange ∧ 60 + Width.w4.bytes ≤ (full Config.default).cfg.memSize ∧ (full Config.default).mem.wf = true ∧
    (full Config.default).cfg.endian = .little ∧ (full bigEndian).cfg.endian = .big := by decide
theorem witness_EffectiveAddresses :
    (full Config.default).readReg Reg32.eax.reg = .ok 5 ∧ (full Config.default).readReg Reg32.ebx.reg = .ok 3 ∧
    (full Config.default).readReg Reg32.edi.reg = .error .unwrittenRead := by decide
/-- The narrowest and the default ALU width, for CarryAndOverflowAreExact and ResultZeroSignAndParity. -/
theorem witness_AluWidths : 0 < 1 ∧ 0 < 32 := by decide
theorem witness_FlagWidthSelectsTheAluWidth :
    Config.default.flagWidth = .fixed32 ∧ Config.default.narrowExt = .zero ∧
    { Config.default with narrowExt := .sign }.narrowExt = .sign ∧ { Config.default with flagWidth := .operand }.flagWidth = .operand := by
  decide
theorem witness_MovCompletes :
    (full Config.default).resolve (.mem .w4 ⟨.ebp, none, 4⟩) = .ok (.mem 60) ∧
    (full Config.default).readSource .w4 (.place eax) = .ok 5 ∧ (full Config.default).CanWrite .w4 (.mem 60) ∧
    (full Config.default).resolve eax = .ok (.reg .eax) ∧ (full Config.default).CanWrite .w4 (.reg .eax) :=
  ⟨by decide, by decide, by simp [State.CanWrite]; decide, rfl, trivial⟩
theorem witness_AluInstructionsComplete :
    (full Config.default).resolve eax = .ok (.reg .eax) ∧ (full Config.default).readTarget .w4 (.reg .eax) = .ok 5 ∧
    (full Config.default).readSource .w4 (.const 1) = .ok 1 ∧ (full Config.default).CanWrite .w4 (.reg .eax) ∧
    (full Config.default).flags.CF = .val true := ⟨rfl, by decide, by decide, trivial, by decide⟩
theorem witness_CmpCompletes :
    (full Config.default).readPlace .w4 eax = .ok 5 ∧ (full Config.default).readSource .w4 (.place (.reg .ebx)) = .ok 3 := by decide
theorem witness_IncAndDecComplete :
    (full Config.default).resolve (.deref .w1 63) = .ok (.mem 63) ∧ (full Config.default).readTarget .w1 (.mem 63) = .ok 0 ∧
    (full Config.default).CanWrite .w1 (.mem 63) := ⟨by decide, by decide, by simp [State.CanWrite]; decide⟩
theorem witness_ImulGivesTheExactProduct :
    (full Config.default).readPlace .w4 (.reg .ebx) = .ok 3 ∧ (full Config.default).readReg .eax = .ok 5 ∧
    (full Config.default).readPlace .w4 (.reg .edi) = .error .unwrittenRead ∧ (regs [(.ebx, 3)]).readPlace .w4 (.reg .ebx) = .ok 3 ∧
    (regs [(.ebx, 3)]).readReg .eax = .error .unwrittenRead := by decide
theorem witness_DividePathTruncatesTowardZero :
    (0 : Word).toNat = 0 ∧ (1 : Word).toNat ≠ 0 ∧ div64 0x80000000 1 = .divOverflow ∧ div64 0x7FFFFFFF 1 = .ok 0x7FFFFFFF 0 := by
  decide
theorem witness_IdivCompletesOrFaults :
    (full Config.default).readPlace .w4 (.reg .ebx) = .ok 3 ∧ (full Config.default).readReg .eax = .ok 5 ∧
    (full Config.default).readReg .edx = .ok 0 ∧ div64 5 3 = .ok 1 2 ∧ div64 5 0 = .divZero ∧ div64 0x300000000 3 = .divOverflow ∧
    (regs [(.eax, 5), (.ebx, 3)]).readReg .edx = .error .unwrittenRead := by decide
theorem witness_JumpsComplete :
    (full Config.default).flags = ⟨.val true, .val false, .val false, .val true, .val true, .val false⟩ := by decide
theorem witness_JumpOnUndefFlagFaults :
    Content.undef ∈ Cond.be.inputs ⟨.val true, .undef, .undef, .undef, .undef, .undef⟩ := by decide
theorem witness_CounterJumpsComplete :
    (full Config.default).readReg .ecx = .ok 1 ∧ (full Config.default).cfg.cxzWidth = .bits32 ∧
    (full { Config.default with cxzWidth := .bits16 }).cfg.cxzWidth = .bits16 ∧
    (full { Config.default with cxzWidth := .bits16 }).readReg .cx = .ok 1 ∧
    (regs []).readReg .ecx = .error .unwrittenRead ∧
    (machine { Config.default with cxzWidth := .bits16 } []).readReg .cx = .error .unwrittenRead := by decide
theorem witness_LoopsComplete :
    (full Config.default).readReg .ecx = .ok 1 ∧ (full Config.default).flags.ZF = .val false ∧
    (regs []).readReg .ecx = .error .unwrittenRead ∧ (regs []).flags.ZF = .undef := by decide
theorem witness_PushCompletes :
    (regs []).readSource .w4 (.const 7) = .ok 7 ∧ (regs []).readReg .esp = .ok 64 ∧ 64 ≤ (regs []).cfg.memSize ∧
    (regs [(.esp, 4)]).readReg .esp = .ok 4 ∧ 4 ≤ (4 : Word).toNat := by decide
theorem witness_PopCompletes :
    (full Config.default).readReg .esp = .ok 60 ∧ 60 + 4 ≤ (full Config.default).cfg.memSize ∧
    (full Config.default).resolve (.mem .w4 ⟨.esp, none, 0⟩) = .ok (.mem 60) ∧ (full Config.default).CanWrite .w4 (.mem 60) :=
  ⟨by decide, by decide, by decide, by simp [State.CanWrite]; decide⟩
theorem witness_CallAndRetComplete :
    (full Config.default).readReg .esp = .ok 60 ∧ 4 ≤ (60 : Word).toNat ∧ 60 + 4 ≤ (full Config.default).cfg.memSize := by decide
theorem witness_EnterAndLeaveComplete :
    (full Config.default).readReg .esp = .ok 60 ∧ (full Config.default).readReg .ebp = .ok 56 ∧
    (full Config.default).cfg.leaveMode = .x86 ∧ 56 + 4 ≤ (full Config.default).cfg.memSize ∧
    (full { Config.default with leaveMode := .popOnly }).cfg.leaveMode = .popOnly ∧
    (full { Config.default with leaveMode := .popOnly }).readReg .esp = .ok 60 := by decide
theorem witness_OperandFaultsAreTaken :
    (full Config.default).resolve (.mem .w4 ⟨.edi, none, 0⟩) = .error .unwrittenRead ∧
    (full Config.default).readPlace .w4 (.deref .w4 61) = .error .memoryOverflow ∧
    (full Config.default).readSource .w4 (.place (.deref .w4 64)) = .error .memoryOutOfRange ∧
    (full Config.default).readTarget .w4 (.reg .eax) = .ok 5 ∧
    (full Config.default).resolve (.deref .w4 61) = .ok (.mem 61) := by decide
theorem witness_MoveWriteFaultIsTaken : (full Config.default).memWrite 61 4 5 = .error .memoryOverflow := by decide
theorem witness_CarryFaultIsTaken :
    (regs [(.eax, 1)]).resolve eax = .ok (.reg .eax) ∧ (regs [(.eax, 1)]).readTarget .w4 (.reg .eax) = .ok 1 ∧
    (regs [(.eax, 1)]).readSource .w4 (.const 0) = .ok 0 ∧ (regs [(.eax, 1)]).flags.CF = .undef := by decide

/-- A state whose ESP and EBP have `undef` bytes. -/
def noStack (m : LeaveMode) : State :=
  { State.construct { Config.default with leaveMode := m } [] [] with
    regs := { RegFile.afterReset 64 with
      bank4 := ⟨.val 0, .val 0, .undef, .val 0⟩, bank5 := ⟨.undef, .undef, .undef, .undef⟩ } }

theorem witness_UndefStackRegisters :
    (noStack .popOnly).readReg .esp = .error .unwrittenRead ∧ (noStack .popOnly).cfg.leaveMode = .popOnly ∧
    (noStack .x86).readReg .ebp = .error .unwrittenRead ∧ (noStack .x86).cfg.leaveMode = .x86 ∧
    (noStack .x86).readSource .w4 (.const 1) = .ok 1 ∧
    { noStack .x86 with regs := { (noStack .x86).regs with bank5 := (regs []).regs.bank5 } }.readReg .ebp = .ok 64 := by decide
theorem witness_PushAndPopOperandFaults :
    (full Config.default).readSource .w4 (.place (.deref .w4 64)) = .error .memoryOutOfRange ∧
    (full Config.default).readReg .esp = .ok 60 ∧ (full Config.default).resolve (.mem .w4 ⟨.edi, none, 0⟩) = .error .unwrittenRead ∧
    (60 : Word).toNat + 4 ≤ (full Config.default).cfg.memSize ∧ (full Config.default).resolve (.deref .w4 61) = .ok (.mem 61) ∧
    checkAccess (full Config.default).cfg.memSize 61 4 = .error .memoryOverflow := by decide

/-- MEM_SIZE = 64: a push at 3, 65, 67 and 68, a pop at 61 and 64, and LEAVE's frame there. -/
theorem witness_StackFaultsAreTaken :
    (regs [(.esp, 3)]).readReg .esp = .ok 3 ∧ (3 : Word).toNat < 4 ∧ (regs [(.esp, 3)]).readReg .ebp = .ok 64 ∧
    (regs [(.esp, 65)]).readReg .esp = .ok 65 ∧ (regs []).cfg.memSize < (65 : Word).toNat ∧
    (regs [(.esp, 67)]).readReg .esp = .ok 67 ∧ (67 : Word).toNat < (regs []).cfg.memSize + 4 ∧
    (regs [(.esp, 68)]).readReg .esp = .ok 68 ∧ (regs []).cfg.memSize + 4 ≤ (68 : Word).toNat ∧
    (regs [(.esp, 64)]).readReg .esp = .ok 64 ∧ (regs []).cfg.memSize ≤ (64 : Word).toNat ∧
    (regs [(.esp, 61)]).readReg .esp = .ok 61 ∧ (61 : Word).toNat < (regs []).cfg.memSize ∧ (regs []).cfg.memSize < 61 + 4 ∧
    (regs [(.esp, 61)]).resolve eax = .ok (.reg .eax) ∧ (regs []).cfg.leaveMode = .x86 ∧ (regs []).readReg .ebp = .ok 64 ∧
    (regs [(.ebp, 61)]).readReg .ebp = .ok 61 := by decide
theorem witness_IntCompletesOrFaults :
    immValue ⟨.w1, 0x101⟩ = 1 ∧ immValue ⟨.w4, 2⟩ = 2 ∧ immValue ⟨.w4, 0⟩ ≠ 1 ∧ immValue ⟨.w4, 0⟩ ≠ 2 ∧
    (full Config.default).readReg .eax = .ok 5 ∧ (full Config.default).mem.get (5 + 0) = 0 ∧ 5 + 0 < (full Config.default).cfg.memSize ∧
    (regs []).readReg .eax = .error .unwrittenRead := by decide

/-- INT 2 at EAX = MEM_SIZE: no zero byte lies at or above it. -/
theorem witness_IntStringFault :
    (regs [(.eax, 64)]).readReg .eax = .ok 64 ∧
    ∀ x, 64 ≤ x → x < (regs [(.eax, 64)]).cfg.memSize → (regs [(.eax, 64)]).mem.get x ≠ 0 :=
  ⟨by decide, fun x h1 h2 => absurd h2 (Nat.not_lt.2 h1)⟩
theorem witness_FrameOfWriteBackInstructions :
    (∃ t, exec (.mov (.deref .w4 60) (.place eax)) (full Config.default) = .next t) ∧
    (∃ t, exec (AluOp.sbb.instr eax (.const 1)) (full Config.default) = .next t) ∧
    (∃ t, exec (.dec eax) (full { Config.default with incDecCF := .preserved }) = .next t) :=
  ⟨⟨_, exec_after _ _⟩, ⟨_, exec_after _ _⟩, ⟨_, exec_after _ _⟩⟩
theorem witness_FrameOfInstructionsThatStoreNothing :
    (∃ t, exec (.cmp (.deref .w4 60) (.place eax)) (full Config.default) = .next t) ∧
    (∃ t, exec (Cond.le.instr ⟨.w4, 2⟩) (full Config.default) = .next t) ∧ (∃ t, exec .std (full Config.default) = .next t) ∧
    (∃ t, exec .clc (full Config.default) = .next t) :=
  ⟨⟨_, exec_after _ _⟩, ⟨_, exec_after _ _⟩, ⟨_, exec_after _ _⟩, ⟨_, exec_after _ _⟩⟩
theorem witness_FrameOfMultiplyDivideAndLoops :
    (∃ t, exec (.imul (.reg .ebx)) (full Config.default) = .next t) ∧ (∃ t, exec (.loopne ⟨.w4, 2⟩) (full Config.default) = .next t) :=
  ⟨⟨_, exec_after _ _⟩, ⟨_, exec_after _ _⟩⟩
theorem witness_FrameOfPushingInstructions :
    (∃ t, exec (.push (.place eax)) (full Config.default) = .next t) ∧ (∃ t, exec .enter (full Config.default) = .next t) ∧
    (full Config.default).readReg .esp = .ok 60 := ⟨⟨_, exec_after _ _⟩, ⟨_, exec_after _ _⟩, by decide⟩
theorem witness_FrameOfPoppingInstructions :
    (∃ t, exec (.pop (.mem .w4 ⟨.esp, none, 0⟩)) (full Config.default) = .next t) ∧ (∃ t, exec .ret (full Config.default) = .next t) ∧
    (∃ t, exec .leave (full Config.default) = .next t) :=
  ⟨⟨_, exec_after _ _⟩, ⟨_, exec_after _ _⟩, ⟨_, exec_after _ _⟩⟩
theorem witness_FrameOfSystemInstructions :
    (∃ t, exec (.int ⟨.w4, 1⟩) (full Config.default) = .next t) ∧ (∃ t, exec .hlt (full Config.default) = .next t) :=
  ⟨⟨_, exec_after _ _⟩, ⟨_, exec_after _ _⟩⟩
theorem witness_CompareThenJump :
    eax.width = .w4 ∧ (full Config.default).readPlace .w4 eax = .ok 5 ∧
    (full Config.default).readSource .w4 (.const 0xFFFFFFFF) = .ok 0xFFFFFFFF := by decide
theorem witness_AddThenAdcIsTheSixtyFourBitSum :
    (full Config.default).mem.wf = true ∧ (full Config.default).resolve eax = .ok (.reg .eax) ∧
    (full Config.default).resolve (.deref .w4 60) = .ok (.mem 60) ∧ (full Config.default).readTarget .w4 (.reg .eax) = .ok 5 ∧
    (full Config.default).readTarget .w4 (.mem 60) = .ok 0 ∧ (full Config.default).readSource .w4 (.place (.reg .ebx)) = .ok 3 ∧
    (full Config.default).readSource .w4 (.const 1) = .ok 1 ∧
    (after (.add eax (.place (.reg .ebx))) (full Config.default)).resolve (.deref .w4 60) = .ok (.mem 60) ∧
    (after (.add eax (.place (.reg .ebx))) (full Config.default)).readSource .w4 (.const 1) = .ok 1 := by decide

/-- A register and memory, two registers, and two runs of memory that meet at their ends share no storage. -/
theorem witness_Apart :
    (Target.reg .eax).Apart (.mem 60) ∧ (Target.reg .eax).Apart (.reg .edx) ∧ (Target.mem 56).Apart (.mem 60) :=
  ⟨trivial, by simp [Target.Apart]; decide, by simp [Target.Apart]⟩
theorem witness_StackRoundTrips :
    (full Config.default).mem.wf = true ∧ (full Config.default).readReg .esp = .ok 60 ∧ 4 ≤ (60 : Word).toNat ∧
    (60 : Word).toNat ≤ (full Config.default).cfg.memSize ∧ Reg.ecx.width = .w4 ∧ Reg.ecx ≠ .esp ∧
    (full Config.default).readSource .w4 (.place eax) = .ok 5 ∧ (full Config.default).readReg .ebp = .ok 56 := by decide

end Sys2Proof.Tests
end

section
/-! The invariant of the machine: it holds of every constructed machine, and every step keeps it (00_scope.md R7). -/

namespace Sys2Proof.Machine

/-! ### The last Error event -/

/-- A run has a last Error exactly when its channel holds one (60_exceptions.md R245). -/
theorem lastError_isSome_iff {es : List Event} : (lastError es).isSome = true ↔ ∃ e ∈ es, e.isError = true := by
  induction es with
  | nil => simp [lastError]
  | cons e es ih =>
    cases hl : lastError es with
    | some r =>
      have hes : ∃ e ∈ es, e.isError = true := ih.1 (by rw [hl]; rfl)
      simp only [lastError, hl, Option.isSome_some, List.exists_mem_cons_iff, true_iff]
      exact .inr hes
    | none =>
      have hes : ¬ ∃ e ∈ es, e.isError = true := fun h => by simpa [hl] using ih.2 h
      simp only [lastError, hl, List.exists_mem_cons_iff, hes, or_false]
      cases e <;> simp [Event.isError]

/-- The channel only grows, so an Error behind a fault mark stays behind it (10_state.md R40). -/
theorem lastError_isSome_append {es : List Event} (h : (lastError es).isSome = true) (fs : List Event) :
    (lastError (es ++ fs)).isSome = true := by
  obtain ⟨e, he, hErr⟩ := lastError_isSome_iff.1 h
  exact lastError_isSome_iff.2 ⟨e, List.mem_append_left fs he, hErr⟩

theorem lastError_isSome_append_error (es : List Event) (k : Fault) (ip : Word) :
    (lastError (es ++ [.error k ip])).isSome = true :=
  lastError_isSome_iff.2 ⟨.error k ip, List.mem_append_right es (List.mem_singleton_self _), rfl⟩

/-! ### The invariant at construction -/

theorem State.construct_inv {cfg : Config} {program : List Slot} (hcfg : cfg.wf) (hlen : program.length ≤ 2 ^ 31 - 1)
    (definitions : List MemDef) : (State.construct cfg program definitions).Inv where
  config := hcfg
  programLength := hlen
  memoryForm := rfl
  memoryBounds := rfl
  breakpointForm := rfl
  tickWhileRunning := nofun
  markHasError := nofun

theorem Config.default_wf : Config.default.wf := by decide

/-! ### What keeps the invariant -/

theorem State.Inv.takeFault {s : State} (h : s.Inv) (k : Fault) : (s.takeFault k).Inv :=
  { h with
    tickWhileRunning := nofun
    markHasError := fun _ => lastError_isSome_append_error s.events k s.ip }

theorem State.Inv.endOfProgram {s : State} (h : s.Inv) : s.endOfProgram.Inv :=
  { h with
    tickWhileRunning := nofun
    markHasError := fun hm => lastError_isSome_append (h.markHasError hm) _ }

theorem State.Inv.pauseAtBreakpoint {s : State} (h : s.Inv) : s.pauseAtBreakpoint.Inv :=
  { h with tickWhileRunning := nofun }

theorem State.Inv.leaveBreakpoint {s : State} (h : s.Inv) : State.Inv { s with visited := false } := { h with }

/-- An instruction that takes no fault leaves the fields the invariant reads, or halts. -/
theorem State.Inv.completed {i : Instr} {s t : State} (h : s.Inv) (hc : Completed i s t) : t.Inv := by
  obtain ⟨⟨hcfg, hprog, _, _, hbp, _⟩, hform, hbounds, hmark, hend⟩ := hc
  have htick : t.pendingTick = true → t.sched = .running := by
    rcases hend with ⟨hsched, htick, _⟩ | ⟨_, _, htick, _⟩
    · rw [hsched, htick]; exact h.tickWhileRunning
    · rw [htick]; exact nofun
  have hgrow : ∃ es, t.events = s.events ++ es := by
    rcases hend with ⟨_, _, es, hes, _⟩ | ⟨_, _, _, hes⟩
    · exact ⟨es, hes⟩
    · exact ⟨_, hes⟩
  obtain ⟨es, hes⟩ := hgrow
  exact {
    config := hcfg ▸ h.config
    programLength := hprog ▸ h.programLength
    memoryForm := hform h.memoryForm
    memoryBounds := by rw [hcfg]; exact hbounds h.memoryBounds
    breakpointForm := hbp ▸ h.breakpointForm
    tickWhileRunning := htick
    markHasError := fun hm => by rw [hes]; exact lastError_isSome_append (h.markHasError (hmark ▸ hm)) es }

theorem State.Inv.exec {i : Instr} {s t : State} (h : s.Inv) (hx : exec i s = .next t) : t.Inv := by
  rcases exec_cases hx with ⟨k, rfl⟩ | hc
  · exact h.takeFault k
  · exact h.completed hc

theorem State.Inv.step {s t : State} (h : s.Inv) (hs : step s = .next t) : t.Inv := by
  rcases step_cases hs with ⟨_, rfl⟩ | ⟨_, _, rfl⟩ | ⟨_, _, _, rfl⟩ | ⟨_, _, _, _, _, _, rfl⟩ | ⟨_, _, _, _, _, _, hx⟩
  · exact h.takeFault _
  · exact h.endOfProgram
  · exact h.pauseAtBreakpoint
  · exact h.leaveBreakpoint.takeFault _
  · exact h.leaveBreakpoint.exec hx

/-! ### The obligations -/

/-- Settles O12, by the five ways a step can go (60_exceptions.md R231). -/
theorem stepKeepsInvariant : Obligations.StepKeepsInvariant := fun _ _ h hs => h.step hs

/-- Settles O11; State.reset is the machine constructed at the default parameters with an empty program. -/
theorem invariantAtReset : Obligations.InvariantAtReset :=
  ⟨fun _ _ definitions hcfg hlen => State.construct_inv hcfg hlen definitions,
    State.construct_inv Config.default_wf (Nat.zero_le _) []⟩

end Sys2Proof.Machine
end

section
/-! The instructions by the pseudocode they share, so that a claim about every instruction has one case for each body and not one
for each of the 47 mnemonics. -/

namespace Sys2Proof.Machine

/-- The seven ALU instructions share the binary template (41_alu.md R126), and the sixteen flag jumps the conditional jump
(44_control_flow.md R173); every other instruction stands by itself. -/
theorem instr_cases {motive : Instr → Prop}
    (mov : ∀ dst src, motive (.mov dst src)) (push : ∀ src, motive (.push src)) (pop : ∀ dst, motive (.pop dst))
    (alu : ∀ (op : AluOp) dst src, motive (op.instr dst src)) (cmp : ∀ dst src, motive (.cmp dst src))
    (inc : ∀ dst, motive (.inc dst)) (dec : ∀ dst, motive (.dec dst))
    (imul : ∀ p, motive (.imul p)) (idiv : ∀ p, motive (.idiv p))
    (jmp : ∀ c, motive (.jmp c)) (jump : ∀ (cond : Cond) c, motive (cond.instr c))
    (jcxz : ∀ c, motive (.jcxz c)) (jecxz : ∀ c, motive (.jecxz c))
    (loop : ∀ c, motive (.loop c)) (loope : ∀ c, motive (.loope c)) (loopne : ∀ c, motive (.loopne c))
    (call : ∀ c, motive (.call c)) (ret : motive .ret) (enter : motive .enter) (leave : motive .leave)
    (std : motive .std) (cld : motive .cld) (stc : motive .stc) (clc : motive .clc)
    (int : ∀ code, motive (.int code)) (hlt : motive .hlt) : ∀ i, motive i
  | .mov dst src => mov dst src | .push src => push src | .pop dst => pop dst
  | .add dst src => alu .add dst src | .adc dst src => alu .adc dst src | .sub dst src => alu .sub dst src
  | .sbb dst src => alu .sbb dst src | .and dst src => alu .and dst src | .or dst src => alu .or dst src
  | .xor dst src => alu .xor dst src | .cmp dst src => cmp dst src | .inc dst => inc dst | .dec dst => dec dst
  | .imul p => imul p | .idiv p => idiv p
  | .jo c => jump .o c | .jno c => jump .no c | .js c => jump .s c | .jns c => jump .ns c
  | .je c => jump .e c | .jne c => jump .ne c | .jb c => jump .b c | .jnb c => jump .nb c
  | .jbe c => jump .be c | .ja c => jump .a c | .jl c => jump .l c | .jge c => jump .ge c
  | .jle c => jump .le c | .jg c => jump .g c | .jp c => jump .p c | .jnp c => jump .np c
  | .jmp c => jmp c | .jcxz c => jcxz c | .jecxz c => jecxz c
  | .loop c => loop c | .loope c => loope c | .loopne c => loopne c
  | .call c => call c | .ret => ret | .enter => enter | .leave => leave
  | .std => std | .cld => cld | .stc => stc | .clc => clc | .int code => int code | .hlt => hlt

theorem exec_alu (op : AluOp) (dst : Place) (src : Source) (s : State) :
    exec (op.instr dst src) s = settle s (s.binaryWrite op dst src) := by cases op <;> rfl

theorem exec_jump (cond : Cond) (c : Imm) (s : State) : exec (cond.instr c) s = settle s (s.jumpIf cond c) := by
  cases cond <;> rfl

end Sys2Proof.Machine
end

section
/-! Two runs of one instruction. A relation of states that keeps everything an instruction reads, and that every operation of an
instruction keeps, is kept by the instruction: what the relation lets differ is not observed. -/

namespace Sys2Proof.Machine

/-! ### Reads that answer alike -/

/-- Everything an instruction can read is the same in both states: DF is not among it (10_state.md R36), nor is the host's state. -/
structure SameReads (s u : State) : Prop where
  cfg : u.cfg = s.cfg
  ip : u.ip = s.ip
  mem : u.mem = s.mem
  readReg : ∀ r, u.readReg r = s.readReg r
  flags : u.flags = { s.flags with DF := u.flags.DF }

namespace SameReads

variable {s u : State} (h : SameReads s u)
include h

theorem readCF : u.flags.CF.read = s.flags.CF.read := congrArg (·.CF.read) h.flags

theorem readZF : u.flags.ZF.read = s.flags.ZF.read := congrArg (·.ZF.read) h.flags

theorem cond (c : Cond) : u.flags.cond c = s.flags.cond c := by
  rw [h.flags]; cases c <;> rfl

theorem loadWord (a n : Nat) : u.loadWord a n = s.loadWord a n := by
  simp only [State.loadWord, h.cfg, h.mem]

theorem memRead (a : Int) (n : Nat) : u.memRead a n = s.memRead a n := by
  simp only [State.memRead, h.cfg, h.loadWord]

theorem indexTerm (i : Option (Reg32 × Scale)) : u.indexTerm i = s.indexTerm i := by
  cases i <;> simp only [State.indexTerm, h.readReg]

theorem resolve (p : Place) : u.resolve p = s.resolve p := by
  cases p <;> simp only [State.resolve, State.effectiveAddress, h.readReg, h.indexTerm]

theorem readTarget (w : Width) (g : Target) : u.readTarget w g = s.readTarget w g := by
  cases g <;> simp only [State.readTarget, h.readReg, h.memRead]

theorem readPlace (w : Width) (p : Place) : u.readPlace w p = s.readPlace w p := by
  simp only [State.readPlace, h.resolve, h.readTarget]

theorem readSource (w : Width) (src : Source) : u.readSource w src = s.readSource w src := by
  cases src <;> simp only [State.readSource, h.readPlace]

theorem carryIn (op : AluOp) : u.carryIn op = s.carryIn op := by
  cases op <;> simp only [State.carryIn, h.readCF]

theorem binaryAlu (op : AluOp) (dst : Place) (src : Source) : u.binaryAlu op dst src = s.binaryAlu op dst src := by
  simp only [State.binaryAlu, h.cfg, h.resolve, h.readTarget, h.readSource, h.carryIn]

theorem condCxz : u.condCxz = s.condCxz := by simp only [State.condCxz, h.cfg, h.readReg]

theorem condEcxz : u.condEcxz = s.condEcxz := by simp only [State.condEcxz, h.readReg]

theorem readWidened (p : Place) : u.readWidened p = s.readWidened p := by
  simp only [State.readWidened, h.cfg, h.readPlace]

theorem scanString (fuel a : Nat) : u.scanString fuel a = s.scanString fuel a := by
  induction fuel generalizing a with
  | zero => rfl
  | succ fuel ih => simp only [State.scanString, h.memRead, ih]

end SameReads

/-! ### Runs that answer alike -/

/-- Two runs end in the same fault, or complete with related results. -/
inductive Alike {α β : Type} (R : α → β → Prop) : Except Fault α → Except Fault β → Prop
  | ok {a : α} {b : β} (h : R a b) : Alike R (.ok a) (.ok b)
  | error (k : Fault) : Alike R (.error k) (.error k)

theorem Alike.bind {α β γ δ : Type} {R : α → β → Prop} {Q : γ → δ → Prop} {x : Except Fault α} {y : Except Fault β}
    {f : α → Except Fault γ} {g : β → Except Fault δ} (h : Alike R x y) (hf : ∀ {a b}, R a b → Alike Q (f a) (g b)) :
    Alike Q (x >>= f) (y >>= g) := by
  cases h with
  | ok h => exact hf h
  | error k => exact .error k

/-- Both runs begin with a read that answers alike. -/
theorem Alike.read {α γ δ : Type} {Q : γ → δ → Prop} {x y : Except Fault α} {f : α → Except Fault γ} {g : α → Except Fault δ}
    (h : y = x) (hf : ∀ a, Alike Q (f a) (g a)) : Alike Q (x >>= f) (y >>= g) := by
  subst h
  cases y with
  | ok a => exact hf a
  | error k => exact .error k

/-! ### Relations that no instruction observes -/

/-- An operation on the flags that neither reads DF nor writes it. -/
def IgnoresDF (g : Flags → Flags) : Prop := ∀ f d, g { f with DF := d } = { g f with DF := d }

theorem ignoresDF_fromAlu (r : AluResult 32) : IgnoresDF (·.fromAlu r) := fun _ _ => rfl

theorem ignoresDF_fromIncDec (mode : IncDecCF) (r : AluResult 32) : IgnoresDF (·.fromIncDec mode r) := by
  intro f d; cases mode <;> rfl

theorem ignoresDF_afterMulDiv : IgnoresDF (·.afterMulDiv) := fun _ _ => rfl

theorem ignoresDF_setCF (b : Bool) : IgnoresDF fun f => { f with CF := .val b } := fun _ _ => rfl

/-- Related states are read alike, and every operation an instruction makes on both of them, but a write of DF, leaves them
related. -/
structure Unobserved (R : State → State → Prop) : Prop where
  reads {s u : State} : R s u → SameReads s u
  writeReg {s u : State} (r : Reg) (v : Word) : R s u → R (s.writeReg r v) (u.writeReg r v)
  setMem {s u : State} (m : Memory) : R s u → R { s with mem := m } { u with mem := m }
  jumpTo {s u : State} (x : Word) : R s u → R (s.jumpTo x) (u.jumpTo x)
  setFlags {s u : State} {g : Flags → Flags} (hg : IgnoresDF g) :
    R s u → R { s with flags := g s.flags } { u with flags := g u.flags }
  emit {s u : State} (e : Event) : R s u → R (s.emit e) (u.emit e)
  takeFault {s u : State} (k : Fault) : R s u → R (s.takeFault k) (u.takeFault k)
  endOfProgram {s u : State} : R s u → R s.endOfProgram u.endOfProgram

namespace Unobserved

variable {R : State → State → Prop} (hR : Unobserved R) {s u : State} (h : R s u)
include hR h

theorem advance : R s.advance u.advance := by
  simp only [State.advance, (hR.reads h).ip]
  exact hR.jumpTo _ h

theorem branch (b : Bool) (x : Word) : R (s.branch b x) (u.branch b x) := by
  cases b
  · exact hR.advance h
  · exact hR.jumpTo x h

theorem storeWord (a n : Nat) (v : Word) : R (s.storeWord a n v) (u.storeWord a n v) := by
  have hm : u.mem.setBytes a (memoryOrder u.cfg.endian (bytesOf n v)) =
      s.mem.setBytes a (memoryOrder s.cfg.endian (bytesOf n v)) := by rw [(hR.reads h).mem, (hR.reads h).cfg]
  rw [State.storeWord, State.storeWord, hm]
  exact hR.setMem _ h

theorem memWrite (a : Int) (n : Nat) (v : Word) : Alike R (s.memWrite a n v) (u.memWrite a n v) :=
  .read (by rw [(hR.reads h).cfg]) fun _ => .ok (hR.storeWord h _ _ _)

theorem writeTarget (w : Width) (v : Word) (g : Target) : Alike R (s.writeTarget w v g) (u.writeTarget w v g) := by
  cases g with
  | reg r => exact .ok (hR.writeReg r v h)
  | mem a => exact hR.memWrite h a _ v

theorem push (v : Word) : Alike R (s.push v) (u.push v) :=
  .read ((hR.reads h).readReg .esp) fun _ => (hR.memWrite h _ _ _).bind fun h1 => .ok (hR.writeReg _ _ h1)

theorem pop : Alike (fun p q => q.1 = p.1 ∧ R p.2 q.2) s.pop u.pop :=
  .read ((hR.reads h).readReg .esp) fun _ => .read ((hR.reads h).memRead _ _) fun _ => .ok ⟨rfl, hR.writeReg _ _ h⟩

theorem binaryWrite (op : AluOp) (dst : Place) (src : Source) :
    Alike R (s.binaryWrite op dst src) (u.binaryWrite op dst src) :=
  .read ((hR.reads h).binaryAlu op dst src) fun (_, r) => (hR.writeTarget h _ _ _).bind fun h1 =>
    .ok (hR.advance (hR.setFlags (ignoresDF_fromAlu r) h1))

theorem stepByOne (op : AluOp) (dst : Place) : Alike R (s.stepByOne op dst) (u.stepByOne op dst) := by
  simp only [State.stepByOne, (hR.reads h).cfg]
  exact .read ((hR.reads h).resolve dst) fun _ => .read ((hR.reads h).readTarget _ _) fun _ =>
    (hR.writeTarget h _ _ _).bind fun h1 => .ok (hR.advance (hR.setFlags (ignoresDF_fromIncDec _ _) h1))

theorem jumpIf (cond : Cond) (c : Imm) : Alike R (s.jumpIf cond c) (u.jumpIf cond c) :=
  .read ((hR.reads h).cond cond) fun b => .ok (hR.branch h b _)

theorem loopWhile (gate : Bool) (c : Imm) : Alike R (s.loopWhile gate c) (u.loopWhile gate c) :=
  .read ((hR.reads h).readReg .ecx) fun _ => .ok (hR.branch (hR.writeReg _ _ h) _ _)

theorem writePair (lo hi : Word) : R (s.writePair lo hi) (u.writePair lo hi) :=
  hR.setFlags ignoresDF_afterMulDiv (hR.writeReg .edx hi (hR.writeReg .eax lo h))

theorem setCF (b : Bool) : R (s.setCF b) (u.setCF b) := hR.setFlags (ignoresDF_setCF b) h

/-- Runs that answer alike settle in related states. -/
theorem settle {x y : Except Fault State} (hxy : Alike R x y) {t : State} (hx : settle s x = .next t) :
    ∃ t', Machine.settle u y = .next t' ∧ R t t' := by
  cases hxy with
  | ok h1 => cases hx; exact ⟨_, rfl, h1⟩
  | error k => cases hx; exact ⟨_, rfl, hR.takeFault k h⟩

end Unobserved

/-- An instruction keeps every relation that its operations keep; STD and CLD need that a write of DF keeps it too. -/
theorem exec_related {R : State → State → Prop} (hR : Unobserved R) (i : Instr)
    (hDF : i = .std ∨ i = .cld → ∀ {s u : State} (b : Bool), R s u → R (s.setDF b) (u.setDF b)) {s u t : State} (h : R s u)
    (hx : exec i s = .next t) : ∃ t', exec i u = .next t' ∧ R t t' := by
  have same := hR.reads h
  induction i using instr_cases with
  | mov dst src =>
    refine hR.settle h ?_ hx
    exact .read (same.resolve dst) fun _ => .read (same.readSource _ src) fun _ =>
      (hR.writeTarget h _ _ _).bind fun h1 => .ok (hR.advance h1)
  | push src =>
    refine hR.settle h ?_ hx
    exact .read (same.readSource _ src) fun _ => (hR.push h _).bind fun h1 => .ok (hR.advance h1)
  | pop dst =>
    refine hR.settle h ?_ hx
    exact .read (same.readReg .esp) fun _ => .read (same.resolve dst) fun _ => .read (same.memRead _ _) fun _ =>
      (hR.writeTarget (hR.writeReg _ _ h) _ _ _).bind fun h1 => .ok (hR.advance h1)
  | alu op dst src =>
    rw [exec_alu] at hx ⊢
    exact hR.settle h (hR.binaryWrite h op dst src) hx
  | cmp dst src =>
    refine hR.settle h ?_ hx
    exact .read (same.binaryAlu .sub dst src) fun (_, r) =>
      .ok (hR.advance (hR.setFlags (ignoresDF_fromAlu r) h))
  | inc dst => exact hR.settle h (hR.stepByOne h .add dst) hx
  | dec dst => exact hR.settle h (hR.stepByOne h .sub dst) hx
  | imul p =>
    refine hR.settle h ?_ hx
    exact .read (same.readWidened p) fun _ => .read (same.readReg .eax) fun _ =>
      .ok (hR.advance (hR.writePair h _ _))
  | idiv p =>
    refine hR.settle h ?_ hx
    refine .read (same.readWidened p) fun d => .read (same.readReg .eax) fun lo =>
      .read (same.readReg .edx) fun hi => ?_
    cases div64 (hi ++ lo) d with
    | divZero => exact .error _
    | divOverflow => exact .error _
    | ok q r => exact .ok (hR.advance (hR.writePair h q r))
  | jmp c => cases hx; exact ⟨_, rfl, hR.jumpTo _ h⟩
  | jump cond c =>
    rw [exec_jump] at hx ⊢
    exact hR.settle h (hR.jumpIf h cond c) hx
  | jcxz c => exact hR.settle h (.read same.condCxz fun b => .ok (hR.branch h b _)) hx
  | jecxz c => exact hR.settle h (.read same.condEcxz fun b => .ok (hR.branch h b _)) hx
  | loop c => exact hR.settle h (hR.loopWhile h true c) hx
  | loope c => exact hR.settle h (.read same.readZF fun z => hR.loopWhile h z c) hx
  | loopne c => exact hR.settle h (.read same.readZF fun z => hR.loopWhile h (!z) c) hx
  | call c =>
    refine hR.settle h ?_ hx
    refine .bind ?_ fun h1 => .ok (hR.jumpTo _ h1)
    rw [same.ip]
    exact hR.push h _
  | ret =>
    refine hR.settle h ?_ hx
    exact (hR.pop h).bind fun {p q} ⟨e, h1⟩ => .ok (e ▸ hR.jumpTo p.1 h1)
  | enter =>
    refine hR.settle h ?_ hx
    exact .read (same.readReg .ebp) fun _ => .read (same.readReg .esp) fun _ =>
      (hR.memWrite h _ _ _).bind fun h1 => .ok (hR.advance (hR.writeReg .ebp _ (hR.writeReg .esp _ h1)))
  | leave =>
    refine hR.settle h ?_ hx
    exact .read (by rw [same.cfg, same.readReg]) fun _ => .read (same.memRead _ _) fun _ =>
      .ok (hR.advance (hR.writeReg .ebp _ (hR.writeReg .esp _ h)))
  | std => cases hx; exact ⟨_, rfl, hR.advance (hDF (.inl rfl) true h)⟩
  | cld => cases hx; exact ⟨_, rfl, hR.advance (hDF (.inr rfl) false h)⟩
  | stc => cases hx; exact ⟨_, rfl, hR.advance (hR.setCF h true)⟩
  | clc => cases hx; exact ⟨_, rfl, hR.advance (hR.setCF h false)⟩
  | int code =>
    refine hR.settle h ?_ hx
    by_cases h1 : immValue code = 1
    · rw [if_pos h1, if_pos h1]
      exact .read (same.readReg .eax) fun v => .ok (hR.advance (hR.emit _ h))
    · rw [if_neg h1, if_neg h1]
      by_cases h2 : immValue code = 2
      · rw [if_pos h2, if_pos h2]
        exact .read (same.readReg .eax) fun a => .read (by rw [same.cfg, same.scanString]) fun bs =>
          .ok (hR.advance (hR.emit _ h))
      · rw [if_neg h2, if_neg h2]
        exact .error _
  | hlt => cases hx; exact ⟨_, rfl, hR.advance (hR.endOfProgram h)⟩

end Sys2Proof.Machine
end

section
/-! What is not observed: banks 8 and 9, DF, and the host's state (10_state.md R26, R36, R38, R41; 60_exceptions.md R244). -/

namespace Sys2Proof.Machine

/-! ### Banks 8 and 9 -/

theorem State.byte_withHiddenBanks (s : State) (b8 b9 : Bank) (n : Fin 10) (k : Fin 4) :
    (s.withHiddenBanks b8 b9).regs.byte n k = if n = 8 then b8.byte k else if n = 9 then b9.byte k else s.regs.byte n k := by
  fin_cases n <;> rfl

/-- Every byte of a named view keeps its content when banks 8 and 9 get others. -/
theorem State.byte_withHiddenBanks_of_covers {r : Reg} {n : Fin 10} {k : Fin 4} (h : r.view.Covers n k) (s : State)
    (b8 b9 : Bank) : (s.withHiddenBanks b8 b9).regs.byte n k = s.regs.byte n k := by
  obtain ⟨rfl, _⟩ := h
  have hlt := Reg.view_bank_lt r
  rw [byte_withHiddenBanks, if_neg (by intro e; simp [e] at hlt), if_neg (by intro e; simp [e] at hlt)]

theorem State.readReg_withHiddenBanks (s : State) (b8 b9 : Bank) (r : Reg) :
    (s.withHiddenBanks b8 b9).readReg r = s.readReg r :=
  RegFile.readView_congr _ _ _ (Reg.view_fits r) fun _ hk => State.byte_withHiddenBanks_of_covers hk s b8 b9

/-- Writing a register and replacing banks 8 and 9 commute. -/
theorem State.writeReg_withHiddenBanks (s : State) (b8 b9 : Bank) (r : Reg) (v : Word) :
    (s.withHiddenBanks b8 b9).writeReg r v = (s.writeReg r v).withHiddenBanks b8 b9 := by
  have hregs : (s.withHiddenBanks b8 b9).regs.writeView r.view v = ((s.writeReg r v).withHiddenBanks b8 b9).regs := by
    refine RegFile.ext_byte _ _ fun n k => ?_
    rw [RegFile.byte_writeView _ _ _ (Reg.view_fits r)]
    by_cases h : r.view.Covers n k
    · rw [if_pos h, byte_withHiddenBanks_of_covers h, writeReg_regs, RegFile.byte_writeView _ _ _ (Reg.view_fits r), if_pos h]
    · rw [if_neg h, byte_withHiddenBanks, byte_withHiddenBanks, writeReg_regs, RegFile.byte_writeView _ _ _ (Reg.view_fits r),
        if_neg h]
  exact congrArg (fun f => { s with regs := f }) hregs

theorem unobserved_hiddenBanks (b8 b9 : Bank) : Unobserved fun s u => u = s.withHiddenBanks b8 b9 where
  reads := by rintro s _ rfl; exact ⟨rfl, rfl, rfl, s.readReg_withHiddenBanks b8 b9, rfl⟩
  writeReg r v := by rintro rfl; exact State.writeReg_withHiddenBanks _ b8 b9 r v
  setMem _ := by rintro rfl; rfl
  jumpTo _ := by rintro rfl; rfl
  setFlags _ := by rintro rfl; rfl
  emit _ := by rintro rfl; rfl
  takeFault _ := by rintro rfl; rfl
  endOfProgram := by rintro _ _ rfl; rfl

theorem exec_withHiddenBanks {i : Instr} {s t : State} (h : exec i s = .next t) (b8 b9 : Bank) :
    exec i (s.withHiddenBanks b8 b9) = .next (t.withHiddenBanks b8 b9) := by
  have hDF : i = .std ∨ i = .cld → ∀ {s u : State} (b : Bool), u = s.withHiddenBanks b8 b9 →
      u.setDF b = (s.setDF b).withHiddenBanks b8 b9 := by rintro - s _ b rfl; rfl
  obtain ⟨_, hx, rfl⟩ := exec_related (unobserved_hiddenBanks b8 b9) i hDF rfl h
  exact hx

/-! ### DF -/

theorem unobserved_DF (d : Flag) : Unobserved fun s u => u = s.withDF d where
  reads := by rintro s _ rfl; exact ⟨rfl, rfl, rfl, fun _ => rfl, rfl⟩
  writeReg _ _ := by rintro rfl; rfl
  setMem _ := by rintro rfl; rfl
  jumpTo _ := by rintro rfl; rfl
  setFlags {s _ _} hg := by rintro rfl; exact congrArg (fun f => { s with flags := f }) (hg s.flags d)
  emit _ := by rintro rfl; rfl
  takeFault _ := by rintro rfl; rfl
  endOfProgram := by rintro _ _ rfl; rfl

/-! ### The host's state -/

theorem unobserved_hostState : Unobserved SameProgramView where
  reads := fun ⟨hcfg, hregs, hip, hflags, hmem⟩ =>
    ⟨hcfg, hip, hmem, State.readReg_congr hregs, by rw [hflags]⟩
  writeReg r v := fun ⟨hcfg, hregs, hip, hflags, hmem⟩ => ⟨hcfg, congrArg (·.writeView r.view v) hregs, hip, hflags, hmem⟩
  setMem _ := fun ⟨hcfg, hregs, hip, hflags, _⟩ => ⟨hcfg, hregs, hip, hflags, rfl⟩
  jumpTo _ := fun ⟨hcfg, hregs, _, hflags, hmem⟩ => ⟨hcfg, hregs, rfl, hflags, hmem⟩
  setFlags {_ _ g} _ := fun ⟨hcfg, hregs, hip, hflags, hmem⟩ => ⟨hcfg, hregs, hip, congrArg g hflags, hmem⟩
  emit _ := id
  takeFault _ := id
  endOfProgram := id

/-! ### The obligations -/

/-- Settles O15, by the five ways a step can go (60_exceptions.md R231): the fetch does not look at a register, and an instruction
reads and writes banks 0 to 7 only. -/
theorem hiddenBanksAreUnobservable : Obligations.HiddenBanksAreUnobservable := by
  intro s t b8 b9 h
  rcases step_cases h with ⟨hip, rfl⟩ | ⟨hip, hn, rfl⟩ | ⟨hip, hn, hb, rfl⟩ | ⟨slot, e, hip, hn, hb, hd, rfl⟩ |
    ⟨slot, i, hip, hn, hb, hd, hx⟩
  · exact step_badAddress hip
  · exact step_end hip hn
  · obtain ⟨slot, hn⟩ := Option.isSome_iff_exists.1 hn
    exact step_breakpoint hip hn hb
  · exact step_illegal hip hn hb hd
  · exact (step_run (s := s.withHiddenBanks b8 b9) hip hn hb hd).trans (exec_withHiddenBanks hx b8 b9)

/-- Settles O16: no instruction observes DF, and STD and CLD overwrite it. -/
theorem directionFlagIsReadByNoInstruction : Obligations.DirectionFlagIsReadByNoInstruction := by
  refine fun i s t d h => ⟨fun hstd hcld => ?_, ?_⟩
  · obtain ⟨_, hx, rfl⟩ := exec_related (unobserved_DF d) i (fun hi => (hi.elim hstd hcld).elim) rfl h
    exact hx
  · rintro (rfl | rfl) <;> exact h

/-- Settles O17: every operation of an instruction keeps the program's view. -/
theorem programSeesNoHostState : Obligations.ProgramSeesNoHostState := by
  intro i s s' t hview h
  refine exec_related unobserved_hostState i (fun _ _ _ b hv => ?_) hview h
  obtain ⟨hcfg, hregs, hip, hflags, hmem⟩ := hv
  exact ⟨hcfg, hregs, hip, congrArg (fun f : Flags => { f with DF := .val b }) hflags, hmem⟩

end Sys2Proof.Machine
end

section
/-! The register file: which contents a view can be read with, and what reset leaves in it (10_state.md R27, R28, R44). -/

namespace Sys2Proof.Machine

/-! ### Reading a view -/

theorem Content.isVal_iff {α : Type} {c : Content α} : c.isVal = true ↔ ∃ a, c = .val a := by
  cases c <;> simp [Content.isVal]

/-- A joined value has no bit above its bytes. -/
theorem wordOf_lt (bs : List Byte) : (wordOf bs).toNat < 2 ^ (8 * bs.length) := by
  induction bs with
  | nil => decide
  | cons b bs ih =>
    rw [wordOf, BitVec.toNat_or, BitVec.toNat_shiftLeft, Nat.shiftLeft_eq, List.length_cons]
    have hsplit : 2 ^ (8 * (bs.length + 1)) = 2 ^ (8 * bs.length) * 2 ^ 8 := by rw [← Nat.pow_add]; rfl
    have hb : (b.setWidth 32).toNat < 2 ^ (8 * (bs.length + 1)) := by
      have := b.isLt
      have := Nat.pow_le_pow_right (n := 2) (by decide) (show 8 ≤ 8 * (bs.length + 1) by omega)
      rw [BitVec.toNat_setWidth]
      omega
    refine Nat.or_lt_two_pow ((Nat.mod_le _ _).trans_lt ?_) hb
    rw [hsplit]
    exact Nat.mul_lt_mul_of_pos_right ih (by decide)

/-- A run of bytes that all hold values can be read. -/
theorem RegFile.readBytes_of_isVal (f : RegFile) (n : Fin 10) (o c : Nat)
    (h : ∀ j < c, (f.byte n (byteIndex (o + j))).isVal = true) : ∃ bs, f.readBytes n o c = .ok bs := by
  induction c generalizing o with
  | zero => exact ⟨[], rfl⟩
  | succ c ih =>
    obtain ⟨b, hb⟩ := Content.isVal_iff.1 (h 0 (Nat.succ_pos c))
    obtain ⟨bs, hbs⟩ := ih (o + 1) fun j hj => by
      rw [Nat.add_right_comm]; exact h (j + 1) (Nat.succ_lt_succ hj)
    exact ⟨b :: bs, by rw [readBytes, show f.byte n (byteIndex o) = .val b from hb, hbs]; rfl⟩

/-- The byte of a view at a distance from its low end. -/
theorem Reg.covers_byteIndex (r : Reg) {j : Nat} (h : j < r.view.width.bytes) :
    r.view.Covers r.view.bank (byteIndex (r.view.offset + j)) := by
  have := Reg.view_fits r
  refine ⟨rfl, ?_, ?_⟩ <;> rw [byteIndex_val, Nat.mod_eq_of_lt (by omega)] <;> omega

/-- A view all of whose bytes hold values can be read. -/
theorem State.readReg_of_isVal {s : State} {r : Reg}
    (h : ∀ k, r.view.Covers r.view.bank k → (s.regs.byte r.view.bank k).isVal = true) : ∃ v, s.readReg r = .ok v := by
  obtain ⟨bs, hbs⟩ := RegFile.readBytes_of_isVal s.regs r.view.bank r.view.offset r.view.width.bytes fun j hj =>
    h _ (Reg.covers_byteIndex r hj)
  exact ⟨wordOf bs, State.readReg_ok.2 ⟨bs, hbs, rfl⟩⟩

/-- What a read answers: no bit above the view's width, and each byte of the view as 8 of its bits (10_state.md R27). -/
theorem State.readReg_bytes {s : State} {r : Reg} {v : Word} (h : s.readReg r = .ok v) :
    v.toNat < 2 ^ (8 * r.width.bytes) ∧ ∀ k : Fin 4, r.view.Covers r.view.bank k →
      s.regs.byte r.view.bank k = .val (v.extractLsb' (8 * (k.val - r.view.offset)) 8) := by
  obtain ⟨bs, hbs, rfl⟩ := State.readReg_ok.1 h
  obtain ⟨hlen, hbyte⟩ := (RegFile.readBytes_ok _ _ _ _ _).1 hbs
  refine ⟨lt_of_lt_of_eq (wordOf_lt bs) (by rw [hlen, Reg.width]), fun k ⟨_, hlo, hhi⟩ => ?_⟩
  have hj : k.val - r.view.offset < bs.length := by omega
  have hk : byteIndex (r.view.offset + (k.val - r.view.offset)) = k :=
    (byteIndex_eq_iff _ (by omega) k).2 (by omega)
  rw [extract_wordOf bs _ hj (by omega), ← hbyte _ hj, hk]

/-! ### Reset -/

theorem Bank.byte_ofWord (v : Word) (k : Fin 4) : (Bank.ofWord v).byte k = .val (v.extractLsb' (8 * k.val) 8) := by
  fin_cases k <;> rfl

theorem RegFile.byte_afterReset (memSize : Nat) (n : Fin 10) (k : Fin 4) :
    (RegFile.afterReset memSize).byte n k =
      if n = 4 ∨ n = 5 then (Bank.ofWord (BitVec.ofNat 32 memSize)).byte k else .undef := by
  fin_cases n <;> fin_cases k <;> rfl

/-- A 32-bit register whose four bytes are those of a value reads as that value. -/
theorem State.readReg_of_bytes {s : State} {r : Reg} {v : Word} (hw : r.view.width = .w4)
    (h : ∀ k : Fin 4, s.regs.byte r.view.bank k = .val (v.extractLsb' (8 * k.val) 8)) : s.readReg r = .ok v := by
  have ho : r.view.offset = 0 := by have := Reg.view_fits r; rw [hw] at this; simp only [Width.bytes] at this; omega
  have hbs : s.regs.readBytes r.view.bank 0 4 = .ok (bytesOf 4 v) := by
    refine (RegFile.readBytes_ok _ _ _ _ _).2 ⟨bytesOf_length 4 v, fun k hk => ?_⟩
    rw [bytesOf_length] at hk
    rw [h, getElem_bytesOf, byteIndex_val, Nat.zero_add, Nat.mod_eq_of_lt hk]
  refine State.readReg_ok.2 ⟨bytesOf 4 v, ?_, (wordOf_bytesOf_four v).symm⟩
  rw [ho, hw]
  exact hbs

/-- After reset ESP and EBP hold MEM_SIZE (10_state.md R44). -/
theorem State.readReg_resetCall (s : State) {r : Reg} (hr : r = .esp ∨ r = .ebp) :
    s.resetCall.readReg r = .ok (BitVec.ofNat 32 s.cfg.memSize) := by
  have hbank : r.view.bank = 4 ∨ r.view.bank = 5 := by rcases hr with rfl | rfl <;> decide
  refine State.readReg_of_bytes (by rcases hr with rfl | rfl <;> rfl) fun k => ?_
  exact (RegFile.byte_afterReset _ _ k).trans ((if_pos hbank).trans (Bank.byte_ofWord _ k))

/-! ### The obligations -/

/-- Settles O22: a read answers the view's bytes, or finds one that is `undef`. -/
theorem readingARegisterView : Obligations.ReadingARegisterView := by
  refine fun s r => ⟨fun hval => ?_, fun ⟨k, hk, hundef⟩ => ?_⟩
  · obtain ⟨v, hv⟩ := State.readReg_of_isVal hval
    exact ⟨v, hv, State.readReg_bytes hv⟩
  · cases hv : s.readReg r with
    | error e => rw [State.readReg_error hv]
    | ok v =>
      have hbyte := (State.readReg_bytes hv).2 k hk
      rw [hundef] at hbyte
      cases hbyte

/-- Settles O23: a write of a view sets the bytes the view covers and no other. -/
theorem writingARegisterView : Obligations.WritingARegisterView := by
  refine fun s r v => ⟨fun k hk => ?_, sameRegsBut_writeReg s r v, rfl⟩
  rw [State.writeReg_regs, RegFile.byte_writeView _ _ _ (Reg.view_fits r), if_pos hk]

/-- Settles O19: reset() writes MEM_SIZE to ESP and EBP, and construction gives what reset() leaves. -/
theorem resetAndConstructionValues : Obligations.ResetAndConstructionValues := by
  refine ⟨fun s => ⟨rfl, s.readReg_resetCall (.inl rfl), s.readReg_resetCall (.inr rfl), fun n k h4 h5 => ?_, rfl, rfl, rfl,
    rfl, rfl, rfl, rfl, rfl, rfl, rfl⟩, fun cfg program definitions => ⟨rfl, rfl, rfl, fun _ => rfl, rfl⟩⟩
  exact (RegFile.byte_afterReset s.cfg.memSize n k).trans (if_neg (not_or_intro h4 h5))

end Sys2Proof.Machine
end

section
/-! What an instruction that takes no fault leaves: one inversion lemma for each body, from which the frames follow. -/

namespace Sys2Proof.Machine

variable {s t : State}

/-- An outcome of an instruction is its fault, or the state its body gives. -/
theorem settle_cases {x : Except Fault State} (h : settle s x = .next t) : FaultTaken s t ∨ x = .ok t :=
  (settle_next.1 h).symm.imp_left fun ⟨k, _, ht⟩ => ⟨k, ht⟩

/-! ### Instructions that write a destination -/

theorem exec_mov_next {dst : Place} {src : Source} (h : exec (.mov dst src) s = .next t) :
    FaultTaken s t ∨ ∃ g v, s.resolve dst = .ok g ∧ s.CanWrite dst.width g ∧
      t = (s.written dst.width v g).advance := by
  refine (settle_cases h).imp_right fun hx => ?_
  simp only [bind_ok, pure_ok, Except.ok.injEq] at hx
  obtain ⟨g, hg, v, _, s1, hw, rfl⟩ := hx
  obtain ⟨hcan, rfl⟩ := State.writeTarget_ok.1 hw
  exact ⟨g, v, hg, hcan, rfl⟩

theorem exec_alu_next {op : AluOp} {dst : Place} {src : Source} (h : exec (op.instr dst src) s = .next t) :
    FaultTaken s t ∨ ∃ g r, s.resolve dst = .ok g ∧ s.CanWrite dst.width g ∧
      t = { s.written dst.width r.value g with flags := s.flags.fromAlu r, ip := s.ip + 1 } := by
  rw [exec_alu] at h
  refine (settle_cases h).imp_right fun hx => ?_
  obtain ⟨g, r, halu, hcan, rfl⟩ := State.binaryWrite_ok.1 hx
  obtain ⟨_, _, _, hg, _⟩ := State.binaryAlu_ok.1 halu
  exact ⟨g, r, hg, hcan, rfl⟩

theorem exec_incDec_next {dst : Place} (h : exec (.inc dst) s = .next t ∨ exec (.dec dst) s = .next t) :
    FaultTaken s t ∨ ∃ g r, s.resolve dst = .ok g ∧ s.CanWrite dst.width g ∧
      t = { s.written dst.width r.value g with flags := s.flags.fromIncDec s.cfg.incDecCF r, ip := s.ip + 1 } := by
  obtain ⟨op, h⟩ : ∃ op, settle s (s.stepByOne op dst) = .next t := h.elim (⟨_, ·⟩) (⟨_, ·⟩)
  refine (settle_cases h).imp_right fun hx => ?_
  obtain ⟨g, a, hg, _, hcan, rfl⟩ := State.stepByOne_ok.1 hx
  exact ⟨g, _, hg, hcan, rfl⟩

theorem exec_pop_next {dst : Place} (h : exec (.pop dst) s = .next t) :
    FaultTaken s t ∨ ∃ g v x, s.resolve dst = .ok g ∧ s.CanWrite .w4 g ∧
      t = ((s.writeReg .esp x).written .w4 v g).advance := by
  refine (settle_cases h).imp_right fun hx => ?_
  simp only [bind_ok, pure_ok, Except.ok.injEq] at hx
  obtain ⟨sp, _, g, hg, v, _, s2, hw, rfl⟩ := hx
  obtain ⟨hcan, rfl⟩ := State.writeTarget_ok.1 hw
  refine ⟨g, v, _, hg, ?_, rfl⟩
  cases g <;> exact hcan

/-! ### Instructions that store nothing -/

theorem exec_cmp_next {dst : Place} {src : Source} (h : exec (.cmp dst src) s = .next t) :
    FaultTaken s t ∨ ∃ r, t = { s with flags := s.flags.fromAlu r, ip := s.ip + 1 } := by
  refine (settle_cases h).imp_right fun hx => ?_
  simp only [bind_ok, pure_ok, Except.ok.injEq] at hx
  obtain ⟨⟨g, r⟩, _, rfl⟩ := hx
  exact ⟨r, rfl⟩

theorem exec_jump_next {c : Imm} (h : exec (.jmp c) s = .next t ∨ (∃ cond : Cond, exec (cond.instr c) s = .next t) ∨
    exec (.jcxz c) s = .next t ∨ exec (.jecxz c) s = .next t) : FaultTaken s t ∨ ∃ x, t = s.jumpTo x := by
  have hbranch : ∀ {x : Except Fault Bool}, settle s (x >>= fun b => .ok (s.branch b (immValue c))) = .next t →
      FaultTaken s t ∨ ∃ x, t = s.jumpTo x := fun h => (settle_cases h).imp_right fun hx => by
    obtain ⟨b, _, hb⟩ := bind_ok.1 hx
    exact ⟨_, (Except.ok.inj hb).symm.trans (branch_eq s b _)⟩
  rcases h with h | ⟨cond, h⟩ | h | h
  · cases h; exact .inr ⟨_, rfl⟩
  · rw [exec_jump] at h; exact hbranch h
  · exact hbranch h
  · exact hbranch h

theorem exec_mulDiv_next {p : Place} (h : exec (.imul p) s = .next t ∨ exec (.idiv p) s = .next t) :
    FaultTaken s t ∨ ∃ lo hi, t = (s.writePair lo hi).advance := by
  rcases h with h | h <;> refine (settle_cases h).imp_right fun hx => ?_
  · simp only [bind_ok, pure_ok, Except.ok.injEq] at hx
    obtain ⟨b, _, a, _, rfl⟩ := hx
    exact ⟨_, _, rfl⟩
  · simp only [bind_ok, pure_ok] at hx
    obtain ⟨d, _, lo, _, hi, _, hx⟩ := hx
    cases hd : div64 (hi ++ lo) d with
    | divZero => simp only [hd, reduceCtorEq] at hx
    | divOverflow => simp only [hd, reduceCtorEq] at hx
    | ok q r =>
      rw [hd] at hx
      exact ⟨q, r, (Except.ok.inj hx).symm⟩

theorem exec_loop_next {c : Imm} (h : exec (.loop c) s = .next t ∨ exec (.loope c) s = .next t ∨
    exec (.loopne c) s = .next t) : FaultTaken s t ∨ ∃ v x, t = (s.writeReg .ecx v).jumpTo x := by
  have hloop : ∀ {gate}, s.loopWhile gate c = .ok t → ∃ v x, t = (s.writeReg .ecx v).jumpTo x := fun hx => by
    obtain ⟨v, _, rfl⟩ := State.loopWhile_ok hx
    exact ⟨_, _, rfl⟩
  rcases h with h | h | h <;> refine (settle_cases h).imp_right fun hx => ?_
  · exact hloop hx
  · obtain ⟨z, _, hx⟩ := bind_ok.1 hx
    exact hloop hx
  · obtain ⟨z, _, hx⟩ := bind_ok.1 hx
    exact hloop hx

/-! ### The stack -/

theorem exec_push_next (h : (∃ src, exec (.push src) s = .next t) ∨ ∃ c, exec (.call c) s = .next t) :
    FaultTaken s t ∨ ∃ sp v x y, s.readReg .esp = .ok sp ∧ s.InBounds ((sp.toNat : Int) - 4) 4 ∧
      t = ((s.storeWord ((sp.toNat : Int) - 4).toNat 4 v).writeReg .esp x).jumpTo y := by
  have hpush : ∀ {v u y}, s.push v = .ok u → t = u.jumpTo y → ∃ sp v x y, s.readReg .esp = .ok sp ∧
      s.InBounds ((sp.toNat : Int) - 4) 4 ∧
      t = ((s.storeWord ((sp.toNat : Int) - 4).toNat 4 v).writeReg .esp x).jumpTo y := fun hp ht => by
    obtain ⟨sp, hsp, hb, rfl⟩ := State.push_ok.1 hp
    exact ⟨sp, _, _, _, hsp, hb, ht⟩
  rcases h with ⟨_, h⟩ | ⟨_, h⟩ <;> refine (settle_cases h).imp_right fun hx => ?_ <;>
    simp only [bind_ok, pure_ok, Except.ok.injEq] at hx
  · obtain ⟨v, _, u, hp, rfl⟩ := hx
    exact hpush hp rfl
  · obtain ⟨u, hp, rfl⟩ := hx
    exact hpush hp rfl

theorem exec_enter_next (h : exec .enter s = .next t) :
    FaultTaken s t ∨ ∃ sp v x y, s.readReg .esp = .ok sp ∧ s.InBounds ((sp.toNat : Int) - 4) 4 ∧
      t = (((s.storeWord ((sp.toNat : Int) - 4).toNat 4 v).writeReg .esp x).writeReg .ebp y).advance := by
  refine (settle_cases h).imp_right fun hx => ?_
  simp only [bind_ok, pure_ok, Except.ok.injEq] at hx
  obtain ⟨bp, _, sp, hsp, u, hw, rfl⟩ := hx
  obtain ⟨hb, rfl⟩ := (State.memWrite_ok (by decide)).1 hw
  exact ⟨sp, bp, _, _, hsp, hb, rfl⟩

theorem exec_ret_next (h : exec .ret s = .next t) : FaultTaken s t ∨ ∃ v x, t = (s.writeReg .esp v).jumpTo x := by
  refine (settle_cases h).imp_right fun hx => ?_
  simp only [bind_ok, pure_ok, Except.ok.injEq] at hx
  obtain ⟨⟨v, u⟩, hp, rfl⟩ := hx
  obtain ⟨sp, _, _, _, rfl⟩ := State.pop_ok.1 hp
  exact ⟨_, v, rfl⟩

theorem exec_leave_next (h : exec .leave s = .next t) :
    FaultTaken s t ∨ ∃ v x, t = ((s.writeReg .esp v).writeReg .ebp x).advance := by
  refine (settle_cases h).imp_right fun hx => ?_
  simp only [bind_ok, pure_ok, Except.ok.injEq] at hx
  obtain ⟨f, _, v, _, rfl⟩ := hx
  exact ⟨_, v, rfl⟩

/-! ### INT -/

theorem exec_int_next {code : Imm} (h : exec (.int code) s = .next t) : FaultTaken s t ∨ ∃ e, t = (s.emit e).advance := by
  refine (settle_cases h).imp_right fun hx => ?_
  by_cases h1 : immValue code = 1
  · simp only [if_pos h1, bind_ok, pure_ok, Except.ok.injEq] at hx
    obtain ⟨v, _, rfl⟩ := hx
    exact ⟨_, rfl⟩
  · rw [if_neg h1] at hx
    by_cases h2 : immValue code = 2
    · simp only [if_pos h2, bind_ok, pure_ok, Except.ok.injEq] at hx
      obtain ⟨a, _, bs, _, rfl⟩ := hx
      exact ⟨_, rfl⟩
    · rw [if_neg h2] at hx
      cases hx

end Sys2Proof.Machine
end

section
/-! The frame of every instruction: its destination, the flags its rules name and ip change, and nothing else (10_state.md R34). -/

namespace Sys2Proof.Machine

variable {s t u : State}

/-! ### Frames of the shared operations -/

theorem SameRegsBut.mono {rs qs : List Reg} (h : SameRegsBut rs s t) (hsub : rs ⊆ qs) : SameRegsBut qs s t :=
  fun n k hn => h n k fun r hr => hn r (hsub hr)

theorem sameRegsBut_refl (rs : List Reg) (s : State) : SameRegsBut rs s s := fun _ _ _ => rfl

theorem sameRegsBut_writeReg_writeReg (s : State) (r q : Reg) (x y : Word) :
    SameRegsBut [r, q] s ((s.writeReg r x).writeReg q y) :=
  (sameRegsBut_writeReg s r x).trans (sameRegsBut_writeReg (s.writeReg r x) q y)

/-- A written target changes no field but the registers and memory. -/
theorem sameFixed_written (s : State) (w : Width) (v : Word) (g : Target) : SameFixed s (s.written w v g) := by
  cases g <;> exact ⟨rfl, rfl, rfl, rfl, rfl, rfl⟩

theorem sameScheduler_written (s : State) (w : Width) (v : Word) (g : Target) : SameScheduler s (s.written w v g) := by
  cases g <;> exact ⟨rfl, rfl, rfl, rfl⟩

theorem State.written_flags (s : State) (w : Width) (v : Word) (g : Target) : (s.written w v g).flags = s.flags := by
  cases g <;> rfl

/-- A write of a resolved place, after writes of other registers, changes the place and those registers. -/
theorem onlyDestination_written {w : Width} {dst : Place} {others : List Reg} {g : Target} (v : Word)
    (hg : s.resolve dst = .ok g) (hcan : s.CanWrite w g) (hregs : SameRegsBut others s u) (hmem : SameMemory s u) :
    OnlyDestination w dst others s (u.written w v g) := by
  refine ⟨fun r hr => ?_, fun a ha => ?_⟩
  · subst hr
    cases hg
    exact ⟨(hregs.trans (sameRegsBut_writeReg u r v)).mono (by simp), hmem⟩
  · obtain rfl : .mem a = g := Except.ok.inj (ha.symm.trans hg)
    exact ⟨hregs, fun x hx => (sameMemoryBut_storeWord u a w.bytes v hcan.1 x hx).trans (hmem x)⟩

/-- A store of 4 bytes below an ESP that was read leaves every other byte. -/
theorem sameMemoryBut_push {sp q v : Word} (hsp : s.readReg .esp = .ok sp) (hb : s.InBounds ((sp.toNat : Int) - 4) 4)
    (hmem : t.mem = (s.storeWord ((sp.toNat : Int) - 4).toNat 4 v).mem) (hq : s.readReg .esp = .ok q) :
    SameMemoryBut ((q.toNat : Int) - 4) 4 s t := by
  obtain rfl : sp = q := Except.ok.inj (hsp.symm.trans hq)
  exact fun x hx => (congrArg (·.get x) hmem).trans (sameMemoryBut_storeWord s _ 4 v hb.1 x hx)

theorem Flags.fromIncDec_DF (f : Flags) (mode : IncDecCF) (r : AluResult 32) : (f.fromIncDec mode r).DF = f.DF := by
  cases mode <;> rfl

/-! ### The obligations -/

/-- Settles O51: the last write of each is the one of its destination. -/
theorem frameOfWriteBackInstructions : Obligations.FrameOfWriteBackInstructions := by
  refine fun s t dst src op => ⟨fun h => (exec_mov_next h).imp_right ?_, fun h => (exec_alu_next h).imp_right ?_,
    fun h => (exec_incDec_next h).imp_right ?_⟩
  · rintro ⟨g, v, hg, hcan, rfl⟩
    exact ⟨onlyDestination_written v hg hcan (sameRegsBut_refl [] s) fun _ => rfl, s.written_flags dst.width v g,
      sameFixed_written s dst.width v g, sameScheduler_written s dst.width v g⟩
  · rintro ⟨g, r, hg, hcan, rfl⟩
    exact ⟨onlyDestination_written r.value hg hcan (sameRegsBut_refl [] s) fun _ => rfl, rfl,
      sameFixed_written s dst.width r.value g, sameScheduler_written s dst.width r.value g⟩
  · rintro ⟨g, r, hg, hcan, rfl⟩
    exact ⟨onlyDestination_written r.value hg hcan (sameRegsBut_refl [] s) fun _ => rfl, s.flags.fromIncDec_DF _ r,
      fun hmode => by simp only [hmode, Flags.fromIncDec],
      sameFixed_written s dst.width r.value g, sameScheduler_written s dst.width r.value g⟩

/-- Settles O52: CMP writes flags and ip, a jump writes ip, and a flag-control instruction writes its flag and ip. -/
theorem frameOfInstructionsThatStoreNothing : Obligations.FrameOfInstructionsThatStoreNothing := by
  refine fun s t dst src cond c => ⟨fun h => (exec_cmp_next h).imp_right ?_,
    fun h => (exec_jump_next (h.imp_right (.imp_left fun hc => ⟨cond, hc⟩))).imp_right ?_, ?_, ?_⟩
  · rintro ⟨r, rfl⟩
    exact ⟨sameRegsBut_refl [] s, fun _ => rfl, rfl, ⟨rfl, rfl, rfl, rfl, rfl, rfl⟩, rfl, rfl, rfl, rfl⟩
  · rintro ⟨x, rfl⟩
    exact ⟨sameRegsBut_refl [] s, fun _ => rfl, rfl, ⟨rfl, rfl, rfl, rfl, rfl, rfl⟩, rfl, rfl, rfl, rfl⟩
  all_goals
    rintro (h | h) <;> cases h <;>
      exact ⟨sameRegsBut_refl [] s, fun _ => rfl, rfl, ⟨rfl, rfl, rfl, rfl, rfl, rfl⟩, rfl, rfl, rfl, rfl⟩

/-- Settles O53: IMUL and IDIV write the pair EDX:EAX, and the loops write ECX. -/
theorem frameOfMultiplyDivideAndLoops : Obligations.FrameOfMultiplyDivideAndLoops := by
  refine fun s t p c => ⟨fun h => (exec_mulDiv_next h).imp_right ?_, fun h => (exec_loop_next h).imp_right ?_⟩
  · rintro ⟨lo, hi, rfl⟩
    exact ⟨sameRegsBut_writeReg_writeReg s .eax .edx lo hi, by simp [SameMemory], by simp [Flags.afterMulDiv],
      by simp [SameFixed], by simp [SameScheduler]⟩
  · rintro ⟨v, x, rfl⟩
    exact ⟨sameRegsBut_writeReg s .ecx v, by simp [SameMemory], by simp, by simp [SameFixed], by simp [SameScheduler]⟩

/-- Settles O54: the store of each is the 4 bytes below the ESP it read. -/
theorem frameOfPushingInstructions : Obligations.FrameOfPushingInstructions := by
  refine fun s t src c => ⟨fun h => (exec_push_next (h.imp (⟨src, ·⟩) (⟨c, ·⟩))).imp_right ?_,
    fun h => (exec_enter_next h).imp_right ?_⟩
  · rintro ⟨sp, v, x, y, hsp, hb, rfl⟩
    exact ⟨sameRegsBut_writeReg s .esp x, by simp, by simp [SameFixed], by simp [SameScheduler],
      fun q hq => sameMemoryBut_push (v := v) hsp hb (by simp) hq⟩
  · rintro ⟨sp, v, x, y, hsp, hb, rfl⟩
    exact ⟨sameRegsBut_writeReg_writeReg s .esp .ebp x y, by simp, by simp [SameFixed], by simp [SameScheduler],
      fun q hq => sameMemoryBut_push (v := v) hsp hb (by simp) hq⟩

/-- Settles O55: POP writes ESP and then its destination; RET and LEAVE write registers only. -/
theorem frameOfPoppingInstructions : Obligations.FrameOfPoppingInstructions := by
  refine fun s t dst => ⟨fun h => (exec_pop_next h).imp_right ?_, fun h => (exec_ret_next h).imp_right ?_,
    fun h => (exec_leave_next h).imp_right ?_⟩
  · rintro ⟨g, v, x, hg, hcan, rfl⟩
    exact ⟨onlyDestination_written v hg hcan (sameRegsBut_writeReg s .esp x) fun _ => rfl,
      (s.writeReg .esp x).written_flags .w4 v g, sameFixed_written (s.writeReg .esp x) .w4 v g,
      sameScheduler_written (s.writeReg .esp x) .w4 v g⟩
  · rintro ⟨v, x, rfl⟩
    exact ⟨sameRegsBut_writeReg s .esp v, by simp [SameMemory], by simp, by simp [SameFixed], by simp [SameScheduler]⟩
  · rintro ⟨v, x, rfl⟩
    exact ⟨sameRegsBut_writeReg_writeReg s .esp .ebp v x, by simp [SameMemory], by simp, by simp [SameFixed],
      by simp [SameScheduler]⟩

/-- Settles O56: INT emits one event and advances; HLT ends the run and advances. -/
theorem frameOfSystemInstructions : Obligations.FrameOfSystemInstructions := by
  refine fun s t code => ⟨fun h => (exec_int_next h).imp_right ?_, ?_⟩
  · rintro ⟨e, rfl⟩
    exact ⟨sameRegsBut_refl [] s, fun _ => rfl, rfl, ⟨rfl, rfl, rfl, rfl, rfl, rfl⟩, rfl, rfl, rfl, e, rfl⟩
  · rintro ⟨⟩
    exact ⟨sameRegsBut_refl [] s, fun _ => rfl, rfl, ⟨rfl, rfl, rfl, rfl, rfl, rfl⟩, rfl⟩

end Sys2Proof.Machine
end

section
/-! What holds along every step: the program and the parameters stay, events are appended, and what has been written stays
defined (10_state.md R28, R34, R39, R40, R43). -/

namespace Sys2Proof.Machine

/-! ### Register bytes -/

/-- Every register byte that holds a value in the one file holds one in the other. -/
def RegFile.StaysDefined (f g : RegFile) : Prop := ∀ n k, (f.byte n k).isVal = true → (g.byte n k).isVal = true

theorem RegFile.StaysDefined.refl (f : RegFile) : f.StaysDefined f := fun _ _ => id

theorem RegFile.StaysDefined.trans {f g e : RegFile} (h1 : f.StaysDefined g) (h2 : g.StaysDefined e) : f.StaysDefined e :=
  fun n k h => h2 n k (h1 n k h)

/-- A write puts values into the bytes of its view and leaves the others. -/
theorem State.writeReg_staysDefined (s : State) (r : Reg) (v : Word) : s.regs.StaysDefined (s.writeReg r v).regs := by
  intro n k h
  rw [State.writeReg_regs, RegFile.byte_writeView _ _ _ (Reg.view_fits r)]
  split
  · rfl
  · exact h

theorem State.writeReg_writeReg_staysDefined (s : State) (r q : Reg) (x y : Word) :
    s.regs.StaysDefined ((s.writeReg r x).writeReg q y).regs :=
  (s.writeReg_staysDefined r x).trans ((s.writeReg r x).writeReg_staysDefined q y)

theorem State.written_staysDefined (s : State) (w : Width) (v : Word) (g : Target) :
    s.regs.StaysDefined (s.written w v g).regs := by
  cases g with
  | reg r => exact s.writeReg_staysDefined r v
  | mem a => exact .refl _

/-! ### Flags -/

/-- Every flag that holds a value in the one status word holds one in the other. -/
structure Flags.StaysDefined (f g : Flags) : Prop where
  CF : f.CF.isVal = true → g.CF.isVal = true
  ZF : f.ZF.isVal = true → g.ZF.isVal = true
  OF : f.OF.isVal = true → g.OF.isVal = true
  SF : f.SF.isVal = true → g.SF.isVal = true
  PF : f.PF.isVal = true → g.PF.isVal = true
  DF : f.DF.isVal = true → g.DF.isVal = true

theorem Flags.StaysDefined.refl (f : Flags) : f.StaysDefined f := ⟨id, id, id, id, id, id⟩

theorem Flags.fromAlu_staysDefined (f : Flags) (r : AluResult 32) : f.StaysDefined (f.fromAlu r) :=
  ⟨fun _ => rfl, fun _ => rfl, fun _ => rfl, fun _ => rfl, fun _ => rfl, id⟩

theorem Flags.fromIncDec_staysDefined (f : Flags) (mode : IncDecCF) (r : AluResult 32) :
    f.StaysDefined (f.fromIncDec mode r) := by
  cases mode with
  | computed => exact f.fromAlu_staysDefined r
  | preserved => exact ⟨id, fun _ => rfl, fun _ => rfl, fun _ => rfl, fun _ => rfl, id⟩

/-! ### Every instruction -/

/-- What an instruction from `s` to `t` leaves defined: every register byte, and every flag but for IMUL and IDIV, whose rules make
flags `undef` (R152, R154). -/
def KeepsDefined (i : Instr) (s t : State) : Prop :=
  s.regs.StaysDefined t.regs ∧ ((∀ p, i ≠ .imul p) → (∀ p, i ≠ .idiv p) → s.flags.StaysDefined t.flags)

theorem KeepsDefined.of_same_flags {i : Instr} {s t : State} (hregs : s.regs.StaysDefined t.regs) (hflags : t.flags = s.flags) :
    KeepsDefined i s t := ⟨hregs, fun _ _ => hflags ▸ .refl _⟩

theorem KeepsDefined.of_fault {i : Instr} {s t : State} (h : FaultTaken s t) : KeepsDefined i s t := by
  obtain ⟨k, rfl⟩ := h
  exact .of_same_flags (.refl _) rfl

/-- A jump writes no register and no flag. -/
theorem KeepsDefined.of_jumpTo {i : Instr} {s t : State} (h : FaultTaken s t ∨ ∃ x, t = s.jumpTo x) : KeepsDefined i s t := by
  refine h.elim .of_fault ?_
  rintro ⟨x, rfl⟩
  exact .of_same_flags (.refl _) rfl

/-- The loops and RET write one register and no flag. -/
theorem KeepsDefined.of_writeReg_jumpTo {i : Instr} {s t : State} {r : Reg}
    (h : FaultTaken s t ∨ ∃ v x, t = (s.writeReg r v).jumpTo x) : KeepsDefined i s t := by
  refine h.elim .of_fault ?_
  rintro ⟨v, x, rfl⟩
  exact .of_same_flags (s.writeReg_staysDefined r v) (by simp)

theorem exec_keepsDefined {i : Instr} {s t : State} (h : exec i s = .next t) : KeepsDefined i s t := by
  induction i using instr_cases with
  | mov dst src =>
    refine (exec_mov_next h).elim .of_fault ?_
    rintro ⟨g, v, _, _, rfl⟩
    exact .of_same_flags (s.written_staysDefined dst.width v g) (s.written_flags dst.width v g)
  | push src =>
    refine (exec_push_next (.inl ⟨src, h⟩)).elim .of_fault ?_
    rintro ⟨sp, v, x, y, _, _, rfl⟩
    exact .of_same_flags (s.writeReg_staysDefined .esp x) (by simp)
  | pop dst =>
    refine (exec_pop_next h).elim .of_fault ?_
    rintro ⟨g, v, x, _, _, rfl⟩
    exact .of_same_flags ((s.writeReg_staysDefined .esp x).trans ((s.writeReg .esp x).written_staysDefined .w4 v g))
      ((s.writeReg .esp x).written_flags .w4 v g)
  | alu op dst src =>
    refine (exec_alu_next h).elim .of_fault ?_
    rintro ⟨g, r, _, _, rfl⟩
    exact ⟨s.written_staysDefined dst.width r.value g, fun _ _ => s.flags.fromAlu_staysDefined r⟩
  | cmp dst src =>
    refine (exec_cmp_next h).elim .of_fault ?_
    rintro ⟨r, rfl⟩
    exact ⟨.refl _, fun _ _ => s.flags.fromAlu_staysDefined r⟩
  | inc dst =>
    refine (exec_incDec_next (.inl h)).elim .of_fault ?_
    rintro ⟨g, r, _, _, rfl⟩
    exact ⟨s.written_staysDefined dst.width r.value g, fun _ _ => s.flags.fromIncDec_staysDefined _ r⟩
  | dec dst =>
    refine (exec_incDec_next (.inr h)).elim .of_fault ?_
    rintro ⟨g, r, _, _, rfl⟩
    exact ⟨s.written_staysDefined dst.width r.value g, fun _ _ => s.flags.fromIncDec_staysDefined _ r⟩
  | imul p =>
    refine (exec_mulDiv_next (.inl h)).elim .of_fault ?_
    rintro ⟨lo, hi, rfl⟩
    exact ⟨s.writeReg_writeReg_staysDefined .eax .edx lo hi, fun hp _ => (hp p rfl).elim⟩
  | idiv p =>
    refine (exec_mulDiv_next (.inr h)).elim .of_fault ?_
    rintro ⟨lo, hi, rfl⟩
    exact ⟨s.writeReg_writeReg_staysDefined .eax .edx lo hi, fun _ hp => (hp p rfl).elim⟩
  | jmp c => exact .of_jumpTo (exec_jump_next (.inl h))
  | jump cond c => exact .of_jumpTo (exec_jump_next (.inr (.inl ⟨cond, h⟩)))
  | jcxz c => exact .of_jumpTo (exec_jump_next (.inr (.inr (.inl h))))
  | jecxz c => exact .of_jumpTo (exec_jump_next (.inr (.inr (.inr h))))
  | loop c => exact .of_writeReg_jumpTo (exec_loop_next (.inl h))
  | loope c => exact .of_writeReg_jumpTo (exec_loop_next (.inr (.inl h)))
  | loopne c => exact .of_writeReg_jumpTo (exec_loop_next (.inr (.inr h)))
  | call c =>
    refine (exec_push_next (.inr ⟨c, h⟩)).elim .of_fault ?_
    rintro ⟨sp, v, x, y, _, _, rfl⟩
    exact .of_same_flags (s.writeReg_staysDefined .esp x) (by simp)
  | ret => exact .of_writeReg_jumpTo (exec_ret_next h)
  | enter =>
    refine (exec_enter_next h).elim .of_fault ?_
    rintro ⟨sp, v, x, y, _, _, rfl⟩
    exact .of_same_flags (s.writeReg_writeReg_staysDefined .esp .ebp x y) (by simp)
  | leave =>
    refine (exec_leave_next h).elim .of_fault ?_
    rintro ⟨v, x, rfl⟩
    exact .of_same_flags (s.writeReg_writeReg_staysDefined .esp .ebp v x) (by simp)
  | std => cases h; exact ⟨.refl _, fun _ _ => ⟨id, id, id, id, id, fun _ => rfl⟩⟩
  | cld => cases h; exact ⟨.refl _, fun _ _ => ⟨id, id, id, id, id, fun _ => rfl⟩⟩
  | stc => cases h; exact ⟨.refl _, fun _ _ => ⟨fun _ => rfl, id, id, id, id, id⟩⟩
  | clc => cases h; exact ⟨.refl _, fun _ _ => ⟨fun _ => rfl, id, id, id, id, id⟩⟩
  | int code =>
    refine (exec_int_next h).elim .of_fault ?_
    rintro ⟨e, rfl⟩
    exact .of_same_flags (.refl _) rfl
  | hlt => cases h; exact .of_same_flags (.refl _) rfl

/-- A step that runs no instruction leaves the registers as they are; every other one is its instruction. -/
theorem step_regsStayDefined {s t : State} (h : step s = .next t) : s.regs.StaysDefined t.regs := by
  rcases step_cases h with ⟨_, rfl⟩ | ⟨_, _, rfl⟩ | ⟨_, _, _, rfl⟩ | ⟨_, _, _, _, _, _, rfl⟩ | ⟨_, _, _, _, _, _, hx⟩
  · exact .refl _
  · exact .refl _
  · exact .refl _
  · exact .refl _
  · exact (exec_keepsDefined hx).1

/-- What an instruction that takes no fault has emitted stands at the end of the channel. -/
theorem Completed.events_append {i : Instr} {s t : State} (h : Completed i s t) : ∃ es, t.events = s.events ++ es := by
  obtain ⟨_, _, _, _, ⟨_, _, es, hes, _⟩ | ⟨_, _, _, hes⟩⟩ := h
  · exact ⟨es, hes⟩
  · exact ⟨_, hes⟩

/-! ### The obligations -/

/-- Settles O18: every write of a register puts values there, and the ALU gives a value for every flag it writes. -/
theorem writtenStaysDefined : Obligations.WrittenStaysDefined := by
  refine ⟨fun s t n k h => step_regsStayDefined h n k, fun i s t h himul hidiv => ?_⟩
  obtain ⟨hCF, hZF, hOF, hSF, hPF, hDF⟩ := (exec_keepsDefined h).2 himul hidiv
  exact ⟨hCF, hZF, hOF, hSF, hPF, hDF⟩

/-- Settles O14, by the five ways a step can go (60_exceptions.md R231). -/
theorem stepKeepsProgramAndAppendsEvents : Obligations.StepKeepsProgramAndAppendsEvents := by
  intro s t h
  rcases step_cases h with ⟨_, rfl⟩ | ⟨_, _, rfl⟩ | ⟨_, _, _, rfl⟩ | ⟨_, _, _, _, _, _, rfl⟩ | ⟨_, _, _, _, _, _, hx⟩
  · exact ⟨rfl, rfl, rfl, rfl, rfl, _, rfl⟩
  · exact ⟨rfl, rfl, rfl, rfl, rfl, _, rfl⟩
  · exact ⟨rfl, rfl, rfl, rfl, rfl, [], (List.append_nil _).symm⟩
  · exact ⟨rfl, rfl, rfl, rfl, rfl, _, rfl⟩
  · rcases exec_cases hx with ⟨k, rfl⟩ | hc
    · exact ⟨rfl, rfl, rfl, rfl, rfl, _, rfl⟩
    · obtain ⟨hcfg, hprog, hdefs, hstarted, hbp, _⟩ := hc.1
      exact ⟨hcfg, hprog, hdefs, hstarted, hbp, hc.events_append⟩

end Sys2Proof.Machine
end

section
/-! Accesses to memory: which are in bounds, the bytes a read assembles and a write stores, and the addresses of operands
(20_memory.md R54 to R58). -/

namespace Sys2Proof.Machine

/-! ### The byte order -/

/-- How far above the first address of an `n`-byte access the byte of a value stands that is `k`th from the least significant
(20_memory.md R57). -/
def memoryOffset (e : Endian) (n k : Nat) : Nat :=
  match e with
  | .little => k
  | .big => n - 1 - k

theorem memoryOffset_lt (e : Endian) {n k : Nat} (h : k < n) : memoryOffset e n k < n := by
  cases e
  · exact h
  · exact Nat.sub_one_sub_lt_of_lt h

theorem memoryOffset_memoryOffset (e : Endian) {n k : Nat} (h : k < n) : memoryOffset e n (memoryOffset e n k) = k := by
  cases e
  · rfl
  · exact Nat.sub_sub_self (Nat.le_sub_one_of_lt h)

theorem getElem_memoryOrder (e : Endian) (bs : List Byte) (k : Nat) (h : k < (memoryOrder e bs).length) :
    (memoryOrder e bs)[k] = bs[memoryOffset e bs.length k]'(memoryOffset_lt e (memoryOrder_length e bs ▸ h)) := by
  cases e
  · rfl
  · exact List.getElem_reverse h

/-! ### Reads and writes in bounds -/

/-- A read value has no bit above the width of the access. -/
theorem State.loadWord_lt (s : State) (a n : Nat) : (s.loadWord a n).toNat < 2 ^ (8 * n) :=
  (wordOf_lt _).trans_eq (by rw [memoryOrder_length, Memory.getBytes_length])

/-- Each byte of a read value is the byte of memory that the byte order gives it (20_memory.md R55). -/
theorem State.extract_loadWord (s : State) (a : Nat) {n k : Nat} (hk : k < n) (hn : n ≤ 4) :
    (s.loadWord a n).extractLsb' (8 * k) 8 = s.mem.get (a + memoryOffset s.cfg.endian n k) := by
  have hlen : k < (memoryOrder s.cfg.endian (s.mem.getBytes a n)).length := by
    rwa [memoryOrder_length, Memory.getBytes_length]
  rw [loadWord, extract_wordOf _ k hlen (by omega), getElem_memoryOrder, Memory.getElem_getBytes, Memory.getBytes_length]

/-- Each byte of memory that a store writes is the byte of the value that the byte order gives it (20_memory.md R56). -/
theorem State.get_storeWord (s : State) (hm : s.mem.wf = true) (a : Nat) {n k : Nat} (v : Word) (hk : k < n) :
    (s.storeWord a n v).mem.get (a + memoryOffset s.cfg.endian n k) = v.extractLsb' (8 * k) 8 := by
  have hlen : memoryOffset s.cfg.endian n k < (memoryOrder s.cfg.endian (bytesOf n v)).length := by
    rw [memoryOrder_length, bytesOf_length]
    exact memoryOffset_lt _ hk
  rw [storeWord_mem, Memory.get_setBytes _ hm _ _ _ hlen, getElem_memoryOrder, getElem_bytesOf, bytesOf_length,
    memoryOffset_memoryOffset _ hk]

/-! ### Addresses -/

section
variable {s : State} {w : Width} {m : MemRef} {k : Fault}

theorem State.indexTerm_of {index : Reg32} {i : Word} (sc : Scale) (hi : s.readReg index.reg = .ok i) :
    s.indexTerm (some (index, sc)) = .ok (i.toNat * sc.factor : Nat) := by
  simp only [indexTerm, hi, ok_bind, pure_ok]

theorem State.indexTerm_error {index : Reg32} (sc : Scale) (hi : s.readReg index.reg = .error k) :
    s.indexTerm (some (index, sc)) = .error k := by
  simp only [indexTerm, hi, error_bind]

theorem State.resolve_mem_of {b : Word} {i : Int} (hb : s.readReg m.base.reg = .ok b) (hi : s.indexTerm m.index = .ok i) :
    s.resolve (.mem w m) = .ok (.mem (b.toNat + i + m.disp.toInt)) := by
  simp only [resolve, effectiveAddress, hb, hi, ok_bind, pure_ok]

theorem State.resolve_mem_error_of_base (hb : s.readReg m.base.reg = .error k) : s.resolve (.mem w m) = .error k := by
  simp only [resolve, effectiveAddress, hb, error_bind]

theorem State.resolve_mem_error_of_index {b : Word} (hb : s.readReg m.base.reg = .ok b)
    (hi : s.indexTerm m.index = .error k) : s.resolve (.mem w m) = .error k := by
  simp only [resolve, effectiveAddress, hb, hi, ok_bind, error_bind]

end

/-! ### The obligations -/

/-- Settles O24: a read and a write fault exactly as the check they begin with. -/
theorem memoryBoundsCheck : Obligations.MemoryBoundsCheck := by
  intro s a n v hn
  have hfault : ∀ {k}, checkAccess s.cfg.memSize a n = .error k → s.memRead a n = .error k ∧ s.memWrite a n v = .error k :=
    fun hc => ⟨State.memRead_error.2 hc, State.memWrite_error.2 hc⟩
  exact ⟨fun hout => hfault (checkAccess_error.2 (.inl ⟨rfl, hout⟩)),
    fun h0 hlt hover => hfault (checkAccess_error.2 (.inr ⟨rfl, h0, hlt, hover⟩)),
    fun h0 hle => ⟨⟨_, State.memRead_of hn ⟨h0, hle⟩⟩, _, State.memWrite_of hn ⟨h0, hle⟩⟩⟩

/-- Settles O25: the bytes of the read value stand in memory at the offsets of the byte order. -/
theorem memoryReadAssemblesBytes : Obligations.MemoryReadAssemblesBytes := by
  refine ⟨fun s a n k hc => State.memRead_error.2 hc, fun s a n hpos hn hb => ?_⟩
  have hbytes : ∀ e, s.cfg.endian = e → ∀ k < n,
      (s.loadWord a n).extractLsb' (8 * k) 8 = s.mem.get (a + memoryOffset e n k) := by
    rintro _ rfl k hk
    exact s.extract_loadWord a hk hn
  exact ⟨s.loadWord a n, State.memRead_of hpos ⟨by omega, by omega⟩, s.loadWord_lt a n, hbytes .little, hbytes .big⟩

/-- Settles O26: the bytes of the written value stand in memory at the offsets of the byte order. -/
theorem memoryWriteStoresBytes : Obligations.MemoryWriteStoresBytes := by
  refine ⟨fun s a n v k hc => State.memWrite_error.2 hc, fun s a w v hb hm => ?_⟩
  have hin : s.InBounds a w.bytes := ⟨by omega, by omega⟩
  have hbytes : ∀ e, s.cfg.endian = e → ∀ k < w.bytes,
      (s.storeWord a w.bytes v).mem.get (a + memoryOffset e w.bytes k) = v.extractLsb' (8 * k) 8 := by
    rintro _ rfl k hk
    exact s.get_storeWord hm a v hk
  have hread : (s.storeWord a w.bytes v).memRead a w.bytes = .ok (truncTo w v) :=
    (State.memRead_ok w.bytes_pos).2 ⟨hin, (s.loadWord_storeWord hm a w v).symm⟩
  exact ⟨s.storeWord a w.bytes v, State.memWrite_of w.bytes_pos hin, rfl, Memory.wf_setBytes _ hm _ _, hbytes .little,
    hbytes .big, sameMemoryBut_storeWord s a w.bytes v hin.1, hread⟩

/-- Settles O27: the base is read first, then the index, and the sum is one of integers. -/
theorem effectiveAddresses : Obligations.EffectiveAddresses := by
  intro s w base index sc d c b i
  refine ⟨fun hb => ?_, fun hb hi => ?_, rfl,
    fun hb => ⟨State.resolve_mem_error_of_base hb, State.resolve_mem_error_of_base hb⟩,
    fun hb hi => State.resolve_mem_error_of_index hb (State.indexTerm_error sc hi)⟩
  · simpa using State.resolve_mem_of (w := w) (m := ⟨base, none, d⟩) hb rfl
  · simpa using State.resolve_mem_of (w := w) (m := ⟨base, some (index, sc), d⟩) hb (State.indexTerm_of sc hi)

end Sys2Proof.Machine
end

section
/-! The faults of operands, of the carry and of the stack end the instruction that reaches them (20_memory.md R54, R58; 60_exceptions.md
R223). For each body, where its pseudocode can fault, in the order it reads. -/

namespace Sys2Proof.Machine

section
variable {s : State} {dst : Place} {src : Source} {k : Fault}

/-- A fault of an instruction's body is taken. -/
theorem settle_of_error {x : Except Fault State} (h : x = .error k) : settle s x = .next (s.takeFault k) := by rw [h]; rfl

/-! ### Reading operands -/

theorem State.readPlace_of_resolve_error {w : Width} {p : Place} (h : s.resolve p = .error k) : s.readPlace w p = .error k :=
  bind_error.2 (.inl h)

theorem State.readWidened_error (h : s.readPlace dst.width dst = .error k) : s.readWidened dst = .error k :=
  bind_error.2 (.inl h)

/-- ADC and SBB read CF, which may be `undef` (41_alu.md R128, R130). -/
theorem State.carryIn_error {op : AluOp} (hop : op = .adc ∨ op = .sbb) (h : s.flags.CF = .undef) :
    s.carryIn op = .error .unwrittenRead := by
  rcases hop with rfl | rfl <;> exact Content.read_error.2 ⟨h, rfl⟩

/-- The binary template reads its target, then its source, then the carry (41_alu.md R126). -/
theorem State.binaryAlu_error {op : AluOp} :
    s.binaryAlu op dst src = .error k ↔ s.readPlace dst.width dst = .error k ∨
      ∃ g a, s.resolve dst = .ok g ∧ s.readTarget dst.width g = .ok a ∧ (s.readSource dst.width src = .error k ∨
        ∃ b, s.readSource dst.width src = .ok b ∧ s.carryIn op = .error k) := by
  simp only [State.binaryAlu, State.readPlace, bind_error, pure_ok, reduceCtorEq, and_false, exists_false, or_false]
  constructor
  · rintro (hg | ⟨g, hg, ha | ⟨a, ha, hb⟩⟩)
    · exact .inl (.inl hg)
    · exact .inl (.inr ⟨g, hg, ha⟩)
    · exact .inr ⟨g, a, hg, ha, hb⟩
  · rintro ((hg | ⟨g, hg, ha⟩) | ⟨g, a, hg, ha, hb⟩)
    · exact .inl hg
    · exact .inr ⟨g, hg, .inl ha⟩
    · exact .inr ⟨g, hg, .inr ⟨a, ha, hb⟩⟩

/-! ### Instructions that fault on an operand -/

theorem exec_alu_takesFault {op : AluOp} (h : s.binaryAlu op dst src = .error k) :
    exec (op.instr dst src) s = .next (s.takeFault k) := by
  rw [exec_alu]
  exact settle_of_error (bind_error.2 (.inl h))

theorem exec_cmp_takesFault (h : s.binaryAlu .sub dst src = .error k) : exec (.cmp dst src) s = .next (s.takeFault k) :=
  settle_of_error (bind_error.2 (.inl h))

theorem State.stepByOne_error {op : AluOp} (h : s.readPlace dst.width dst = .error k) : s.stepByOne op dst = .error k := by
  rcases bind_error.1 h with hg | ⟨g, hg, ha⟩
  · exact bind_error.2 (.inl hg)
  · exact bind_error.2 (.inr ⟨g, hg, bind_error.2 (.inl ha)⟩)

theorem exec_incDec_takesFault (h : s.readPlace dst.width dst = .error k) :
    exec (.inc dst) s = .next (s.takeFault k) ∧ exec (.dec dst) s = .next (s.takeFault k) :=
  ⟨settle_of_error (State.stepByOne_error h), settle_of_error (State.stepByOne_error h)⟩

theorem exec_mulDiv_takesFault (h : s.readPlace dst.width dst = .error k) :
    exec (.imul dst) s = .next (s.takeFault k) ∧ exec (.idiv dst) s = .next (s.takeFault k) :=
  ⟨settle_of_error (bind_error.2 (.inl (State.readWidened_error h))),
    settle_of_error (bind_error.2 (.inl (State.readWidened_error h)))⟩

/-- MOV computes its target's address, then reads its source, then writes the target (40_data_movement.md R111). -/
theorem exec_mov_takesFault (h : s.resolve dst = .error k ∨ ∃ g, s.resolve dst = .ok g ∧
    (s.readSource dst.width src = .error k ∨
      ∃ v, s.readSource dst.width src = .ok v ∧ s.writeTarget dst.width v g = .error k)) :
    exec (.mov dst src) s = .next (s.takeFault k) := by
  refine settle_of_error (bind_error.2 (h.imp_right ?_))
  rintro ⟨g, hg, hv | ⟨v, hv, hw⟩⟩
  · exact ⟨g, hg, bind_error.2 (.inl hv)⟩
  · exact ⟨g, hg, bind_error.2 (.inr ⟨v, hv, bind_error.2 (.inl hw)⟩)⟩

/-! ### Instructions that fault on the stack -/

theorem exec_push_takesFault (h : s.readSource .w4 src = .error k) : exec (.push src) s = .next (s.takeFault k) :=
  settle_of_error (bind_error.2 (.inl h))

/-- POP with ESP readable computes its target's address, then reads at ESP, then writes the target (40_data_movement.md R113). -/
theorem exec_pop_takesFault {sp : Word} (hsp : s.readReg .esp = .ok sp) (h : s.resolve dst = .error k ∨
    ∃ a, s.resolve dst = .ok (.mem a) ∧ s.InBounds sp.toNat 4 ∧ checkAccess s.cfg.memSize a 4 = .error k) :
    exec (.pop dst) s = .next (s.takeFault k) := by
  refine settle_of_error (bind_error.2 (.inr ⟨sp, hsp, bind_error.2 (h.imp_right ?_)⟩))
  rintro ⟨a, ha, hb, hc⟩
  exact ⟨.mem a, ha, bind_error.2 (.inr ⟨_, State.memRead_of (by decide) hb,
    bind_error.2 (.inl (State.memWrite_error.2 hc))⟩)⟩

theorem exec_enter_takesFault (h : s.readReg .ebp = .error k) : exec .enter s = .next (s.takeFault k) :=
  settle_of_error (bind_error.2 (.inl h))

/-- LEAVE in the mode x86 reads EBP, then the saved EBP at it (44_control_flow.md R199). -/
theorem exec_leave_takesFault (hmode : s.cfg.leaveMode = .x86) (h : s.readReg .ebp = .error k ∨
    ∃ bp, s.readReg .ebp = .ok bp ∧ checkAccess s.cfg.memSize bp.toNat 4 = .error k) :
    exec .leave s = .next (s.takeFault k) := by
  refine settle_of_error (bind_error.2 ?_)
  rw [hmode]
  refine h.imp_right ?_
  rintro ⟨bp, hbp, hc⟩
  exact ⟨bp, hbp, bind_error.2 (.inl (State.memRead_error.2 hc))⟩

/-- An ESP that cannot be read reaches every instruction that pushes. -/
theorem State.pushesTake_of_esp_error (h : s.readReg .esp = .error k) : s.PushesTake k := by
  have hpush : ∀ v, s.push v = .error k := fun v => bind_error.2 (.inl h)
  exact ⟨fun src v hv => settle_of_error (bind_error.2 (.inr ⟨v, hv, bind_error.2 (.inl (hpush v))⟩)),
    fun c => settle_of_error (bind_error.2 (.inl (hpush _))),
    fun bp hbp => settle_of_error (bind_error.2 (.inr ⟨bp, hbp, bind_error.2 (.inl h)⟩))⟩

/-- An ESP that cannot be read reaches every instruction that pops at it. -/
theorem State.popsTake_of_esp_error (h : s.readReg .esp = .error k) : s.PopsTake k := by
  have hpop : s.pop = .error k := bind_error.2 (.inl h)
  refine ⟨fun dst g hg => settle_of_error (bind_error.2 (.inl h)), settle_of_error (bind_error.2 (.inl hpop)), fun hmode => ?_⟩
  refine settle_of_error (bind_error.2 (.inl ?_))
  rw [hmode]
  exact h

end

/-! ### The obligation -/

/-- Settles O48: each clause is the step of a body at which the fault arises. -/
theorem operandAndStackFaultsAreTaken : Obligations.OperandAndStackFaultsAreTaken := by
  refine ⟨fun s dst src op k hg => ?address, fun s dst src op k ha => ?target, fun s dst src op g a k hg hb => ?source,
    fun s dst src g a b hg ha hb hCF => ?carry, fun s dst src a v k hg hv hw => ?write,
    fun s src k hv => exec_push_takesFault hv,
    fun s hsp => ⟨State.pushesTake_of_esp_error hsp, State.popsTake_of_esp_error hsp⟩,
    fun s hbp => ⟨exec_enter_takesFault hbp, fun hmode => exec_leave_takesFault hmode (.inl hbp)⟩,
    fun s sp dst k hsp hg => exec_pop_takesFault hsp (.inl hg), fun s sp dst a k hsp hb hg hc => ?popTarget,
    fun s sp hsp => ?stack, fun s bp hmode hbp => ?leave⟩
  case address =>
    have ha : s.readPlace dst.width dst = .error k := State.readPlace_of_resolve_error hg
    exact ⟨exec_mov_takesFault (.inl hg), exec_alu_takesFault (State.binaryAlu_error.2 (.inl ha)),
      exec_cmp_takesFault (State.binaryAlu_error.2 (.inl ha)), exec_incDec_takesFault ha⟩
  case target =>
    obtain ⟨hinc, hdec⟩ := exec_incDec_takesFault ha
    exact ⟨exec_alu_takesFault (State.binaryAlu_error.2 (.inl ha)), exec_cmp_takesFault (State.binaryAlu_error.2 (.inl ha)),
      hinc, hdec, exec_mulDiv_takesFault ha⟩
  case source =>
    refine ⟨exec_mov_takesFault (.inr ⟨g, hg, .inl hb⟩), fun ha => ?_⟩
    have halu : ∀ op, s.binaryAlu op dst src = .error k := fun _ => State.binaryAlu_error.2 (.inr ⟨g, a, hg, ha, .inl hb⟩)
    exact ⟨exec_alu_takesFault (halu op), exec_cmp_takesFault (halu .sub)⟩
  case carry =>
    have halu : ∀ op, op = .adc ∨ op = .sbb → s.binaryAlu op dst src = .error .unwrittenRead := fun op hop =>
      State.binaryAlu_error.2 (.inr ⟨g, a, hg, ha, .inr ⟨b, hb, State.carryIn_error hop hCF⟩⟩)
    exact ⟨exec_alu_takesFault (halu .adc (.inl rfl)), exec_alu_takesFault (halu .sbb (.inr rfl))⟩
  case write => exact exec_mov_takesFault (.inr ⟨.mem a, hg, .inr ⟨v, hv, hw⟩⟩)
  case popTarget => exact exec_pop_takesFault hsp (.inr ⟨a, hg, ⟨by omega, by omega⟩, hc⟩)
  case stack =>
    exact ⟨fun h => State.pushesTake_of hsp (checkAccess_error.2 (.inl ⟨rfl, by omega⟩)),
      fun _ _ _ => State.pushesTake_of hsp (checkAccess_error.2 (.inr ⟨rfl, by omega, by omega, by omega⟩)),
      fun _ => State.popsTake_of hsp (checkAccess_error.2 (.inl ⟨rfl, by omega⟩)),
      fun _ _ => State.popsTake_of hsp (checkAccess_error.2 (.inr ⟨rfl, by omega, by omega, by omega⟩))⟩
  case leave =>
    exact ⟨fun _ => exec_leave_takesFault hmode (.inr ⟨bp, hbp, checkAccess_error.2 (.inl ⟨rfl, by omega⟩)⟩),
      fun _ _ => exec_leave_takesFault hmode (.inr ⟨bp, hbp, checkAccess_error.2 (.inr ⟨rfl, by omega, by omega, by omega⟩)⟩)⟩

end Sys2Proof.Machine
end

section
/-! The fields of a descriptor and of a slot: the whole is its fields put together (30_encoding.md R73, R75). -/

namespace Sys2Proof

/-- A run of bits is two fields put together when each field is its part of the run. -/
theorem extract_eq_append_iff {n : Nat} (start a b : Nat) {x : BitVec n} {hi : BitVec b} {lo : BitVec a} :
    x.extractLsb' start (b + a) = hi ++ lo ↔ x.extractLsb' (start + a) b = hi ∧ x.extractLsb' start a = lo := by
  rw [← BitVec.extractLsb'_append_extractLsb'_eq_extractLsb' rfl]
  constructor
  · intro h
    have hhi := congrArg (BitVec.extractLsb' a b) h
    have hlo := congrArg (BitVec.extractLsb' 0 a) h
    rw [BitVec.extractLsb'_append_eq_left, BitVec.extractLsb'_append_eq_left] at hhi
    rw [BitVec.extractLsb'_append_eq_right, BitVec.extractLsb'_append_eq_right] at hlo
    exact ⟨hhi, hlo⟩
  · rintro ⟨rfl, rfl⟩; rfl

/-- The fields of every descriptor: shape code, width code and the bits whose meaning depends on the shape. -/
theorem descriptor_eq_iff {d : BitVec 13} {bits : BitVec 9} {c sh : BitVec 2} :
    d = bits ++ c ++ sh ↔ shapeBits d = bits ∧ widthField d = c ∧ shapeField d = sh := by
  have houter : d.extractLsb' 0 13 = bits ++ c ++ sh ↔ d.extractLsb' 2 11 = bits ++ c ∧ shapeField d = sh :=
    extract_eq_append_iff 0 2 11
  have hinner : d.extractLsb' 2 11 = bits ++ c ↔ shapeBits d = bits ∧ widthField d = c := extract_eq_append_iff 2 2 9
  rw [← and_assoc, ← hinner, ← houter, BitVec.extractLsb'_eq_self]

/-- The fields of a shape R descriptor (R78). -/
theorem shapeBits_eq_register_iff {d : BitVec 13} {spare : BitVec 4} {n : BitVec 5} :
    shapeBits d = spare ++ n ↔ registerSpare d = spare ∧ registerField d = n := extract_eq_append_iff 4 5 4

/-- The fields of a shape M descriptor (R79). -/
theorem shapeBits_eq_memory_iff {d : BitVec 13} {high : BitVec 5} {ix : BitVec 1} {base : BitVec 3} :
    shapeBits d = high ++ ix ++ base ↔ indexBits d = high ∧ hasIndexField d = ix ∧ baseField d = base := by
  have houter : shapeBits d = high ++ ix ++ base ↔ d.extractLsb' 7 6 = high ++ ix ∧ baseField d = base :=
    extract_eq_append_iff 4 3 6
  have hinner : d.extractLsb' 7 6 = high ++ ix ↔ indexBits d = high ∧ hasIndexField d = ix := extract_eq_append_iff 7 1 5
  rw [houter, hinner, and_assoc]

/-- The index of a shape M descriptor (R79). -/
theorem indexBits_eq_iff {d : BitVec 13} {sc : BitVec 2} {i : BitVec 3} :
    indexBits d = sc ++ i ↔ scaleField d = sc ∧ indexField d = i := extract_eq_append_iff 8 3 2

/-- The fields of a slot (R73). -/
theorem Slot.eq_fields_iff {s : Slot} {opc : BitVec 6} {d1 d2 : BitVec 13} {v1 v2 : Word} :
    s = ⟨d2 ++ d1 ++ opc, v1, v2⟩ ↔ s.opc = opc ∧ (s.d1 = d1 ∧ s.w1 = v1) ∧ s.d2 = d2 ∧ s.w2 = v2 := by
  have houter : s.w0.extractLsb' 0 32 = d2 ++ d1 ++ opc ↔ s.w0.extractLsb' 6 26 = d2 ++ d1 ∧ s.opc = opc :=
    extract_eq_append_iff 0 6 26
  have hinner : s.w0.extractLsb' 6 26 = d2 ++ d1 ↔ s.d2 = d2 ∧ s.d1 = d1 := extract_eq_append_iff 6 13 13
  have hw0 : s.w0 = d2 ++ d1 ++ opc ↔ s.opc = opc ∧ s.d1 = d1 ∧ s.d2 = d2 := by
    rw [BitVec.extractLsb'_eq_self, hinner] at houter
    tauto
  obtain ⟨w0, w1, w2⟩ := s
  rw [Slot.mk.injEq, hw0]
  tauto

end Sys2Proof
end

section
/-! Operands: decoding a descriptor and its value word is the inverse of encoding the operand (30_encoding.md R75 to R80). -/

namespace Sys2Proof

/-! ### The codes of widths, registers and scales -/

@[simp] theorem widthOfCode_code (w : Width) : widthOfCode w.code = some w := by cases w <;> rfl

theorem widthOfCode_eq_some {c : BitVec 2} {w : Width} (h : widthOfCode c = some w) : c = w.code := by
  revert c; cases w <;> decide

@[simp] theorem regOfNumber_number (r : Reg) : regOfNumber r.number = some r := by cases r <;> rfl

theorem number_of_regOfNumber : ∀ n : BitVec 5, ∀ r ∈ regOfNumber n, r.number = n := by decide

@[simp] theorem reg32OfNumber_number (r : Reg32) : reg32OfNumber r.number = r := by cases r <;> rfl

@[simp] theorem number_reg32OfNumber : ∀ n : BitVec 3, (reg32OfNumber n).number = n := by decide

@[simp] theorem scaleOfCode_code (s : Scale) : scaleOfCode s.code = s := by cases s <;> rfl

@[simp] theorem code_scaleOfCode : ∀ n : BitVec 2, (scaleOfCode n).code = n := by decide

theorem eq_three_of_toNat_ne {c : BitVec 2} (h0 : c.toNat ≠ 0) (h1 : c.toNat ≠ 1) (h2 : c.toNat ≠ 2) : c = 3 := by
  have := c.isLt
  exact BitVec.eq_of_toNat_eq (show c.toNat = 3 by omega)

/-! ### The descriptor of an operand -/

/-- The shape code of an operand (R75). -/
def Operand.shapeCode : Operand → BitVec 2
  | .reg _ => 0
  | .mem _ _ => 1
  | .const _ _ => 2
  | .deref _ _ => 3

/-- Bits 12:4 of an operand's descriptor (R75). -/
def Operand.shapeBits : Operand → BitVec 9
  | .reg r => (0 : BitVec 4) ++ r.number
  | .mem _ ⟨b, some (i, s), _⟩ => s.code ++ i.number ++ (1 : BitVec 1) ++ b.number
  | .mem _ ⟨b, none, _⟩ => (0 : BitVec 5) ++ (0 : BitVec 1) ++ b.number
  | .const _ _ => 0
  | .deref _ _ => 0

theorem Operand.descriptor_eq (o : Operand) : o.descriptor = o.shapeBits ++ o.width.code ++ o.shapeCode := by
  match o with
  | .reg _ => rfl
  | .mem _ ⟨_, some _, _⟩ => rfl
  | .mem _ ⟨_, none, _⟩ => rfl
  | .const _ _ => rfl
  | .deref _ _ => rfl

theorem eq_descriptor_iff {d : BitVec 13} {o : Operand} :
    d = o.descriptor ↔ Sys2Proof.shapeBits d = o.shapeBits ∧ widthField d = o.width.code ∧ shapeField d = o.shapeCode := by
  rw [o.descriptor_eq, descriptor_eq_iff]

/-! ### Decoding an operand -/

theorem decodeRegister_ok_iff {d : BitVec 13} {v : Word} {w : Width} {o : Operand} :
    decodeRegister d v w = .ok o ↔ ∃ r, o = .reg r ∧ shapeBits d = o.shapeBits ∧ o.width = w ∧ v = 0 := by
  constructor
  · intro h
    unfold decodeRegister at h
    split at h
    · cases h
    · next r hr =>
      split at h
      · next hc =>
        obtain ⟨hspare, hv, hw⟩ := hc
        cases h
        exact ⟨r, rfl, shapeBits_eq_register_iff.2 ⟨hspare, (number_of_regOfNumber _ r hr).symm⟩, hw, hv⟩
      · cases h
  · rintro ⟨r, rfl, hbits, hw, rfl⟩
    obtain ⟨hspare, hnum⟩ := shapeBits_eq_register_iff.1 hbits
    change r.width = w at hw
    simp [decodeRegister, hnum, hspare, hw]

theorem decodeMemory_ok_iff {d : BitVec 13} {v : Word} {w : Width} {o : Operand} :
    decodeMemory d v w = .ok o ↔ ∃ m, o = .mem w m ∧ shapeBits d = o.shapeBits ∧ v = m.disp := by
  constructor
  · intro h
    unfold decodeMemory at h
    split at h
    · next hix =>
      cases h
      refine ⟨_, rfl, shapeBits_eq_memory_iff.2 ⟨indexBits_eq_iff.2 ⟨?_, ?_⟩, hix, ?_⟩, rfl⟩
      · exact (code_scaleOfCode _).symm
      · exact (number_reg32OfNumber _).symm
      · exact (number_reg32OfNumber _).symm
    · next hix =>
      have hix : hasIndexField d = 0 := (BitVec.eq_zero_or_eq_one _).resolve_right hix
      split at h
      · next hbits =>
        cases h
        exact ⟨_, rfl, shapeBits_eq_memory_iff.2 ⟨hbits, hix, (number_reg32OfNumber _).symm⟩, rfl⟩
      · cases h
  · rintro ⟨⟨b, index, disp⟩, rfl, hbits, rfl⟩
    cases index with
    | none =>
      obtain ⟨hhigh, hix, hbase⟩ := shapeBits_eq_memory_iff.1 hbits
      simp [decodeMemory, hhigh, hix, hbase]
    | some is =>
      obtain ⟨hhigh, hix, hbase⟩ := shapeBits_eq_memory_iff.1 hbits
      obtain ⟨hscale, hindex⟩ := indexBits_eq_iff.1 hhigh
      simp [decodeMemory, hix, hbase, hscale, hindex]

/-- The decoder of an operand and the encoder agree, in both directions. -/
theorem decodeOperand_ok_iff {d : BitVec 13} {v : Word} {o : Operand} :
    decodeOperand d v = .ok o ↔ d = o.descriptor ∧ v = o.valueWord := by
  rw [eq_descriptor_iff]
  constructor
  · intro h
    unfold decodeOperand at h
    split at h
    · cases h
    · next w hw =>
      have hw := widthOfCode_eq_some hw
      split at h
      · next hs =>
        obtain ⟨r, rfl, hbits, rfl, rfl⟩ := decodeRegister_ok_iff.1 h
        exact ⟨⟨hbits, hw, BitVec.eq_of_toNat_eq hs⟩, rfl⟩
      · next hs =>
        obtain ⟨m, rfl, hbits, rfl⟩ := decodeMemory_ok_iff.1 h
        exact ⟨⟨hbits, hw, BitVec.eq_of_toNat_eq hs⟩, rfl⟩
      · next hs =>
        split at h
        · next hbits => cases h; exact ⟨⟨hbits, hw, BitVec.eq_of_toNat_eq hs⟩, rfl⟩
        · cases h
      · next h0 h1 h2 =>
        have hs := eq_three_of_toNat_ne h0 h1 h2
        split at h
        · next hbits => cases h; exact ⟨⟨hbits, hw, hs⟩, rfl⟩
        · cases h
  · rintro ⟨⟨hbits, hw, hs⟩, rfl⟩
    simp only [decodeOperand, hw, widthOfCode_code, hs]
    cases o with
    | reg r => exact decodeRegister_ok_iff.2 ⟨r, rfl, hbits, rfl, rfl⟩
    | mem w m => exact decodeMemory_ok_iff.2 ⟨m, rfl, hbits, rfl⟩
    | const w v => exact if_pos hbits
    | deref w a => exact if_pos hbits

/-- Width code 3 is illegal in every shape (R77). -/
theorem decodeOperand_badWidthCode {d : BitVec 13} (v : Word) (h : widthField d = 3) :
    decodeOperand d v = .error .badWidthCode := by
  rw [decodeOperand, h]; rfl

end Sys2Proof
end

section
/-! The opcode map: what each row says of the instructions it makes (30_encoding.md R82, R87, R90, R91). -/

namespace Sys2Proof.Machine

/-- What the syntax of an instruction says of it: its opcode, its operands, whether it is well-formed, and whether its constant's
width code is unchecked. -/
structure Describes (opc : BitVec 6) (i : Instr) (ops : List Operand) (wf unchecked : Bool) : Prop where
  opcode : i.opcode = opc
  operands : i.operands = ops
  wellFormed : i.WellFormed = wf
  unchecked : hasUncheckedWidthCode i = unchecked

/-- Every instruction a row makes has one opcode, and the operands and checks of the row's tuples. -/
def RowAgrees (opc : BitVec 6) : OpcodeRow → Prop
  | .nullary i => Describes opc i [] true false
  | .constant mk => ∀ c, Describes opc (mk c) [c.operand] true false
  | .place mk => ∀ p, Describes opc (mk p) [p.operand] true false
  | .stackPlace mk => ∀ p, Describes opc (mk p) [p.operand] (stackWidthOk (.place p)) false
  | .stackSource mk => ∀ src, Describes opc (mk src) [src.operand] (stackWidthOk src) false
  | .binary mk => ∀ d src, Describes opc (mk d src) [d.operand, src.operand] (binaryWf d src) src.isConst

/-- The opcode map read row by row (R91). -/
theorem opcodeRow_agrees {opc : BitVec 6} {row : OpcodeRow} (h : opcodeRow opc = some row) : RowAgrees opc row := by
  obtain ⟨n, hn⟩ := opc
  interval_cases n <;> cases h
  all_goals
    simp only [RowAgrees]
    intros
    exact ⟨rfl, rfl, rfl, rfl⟩

section
open Laws.OpcodeField

/-- The laws of the opcode map, one for each instruction, as one. -/
theorem opcodeField_statement : ∀ i, Statement i
  | .mov a b => mov a b | .int a => int a | .hlt => hlt | .pop a => pop a | .push a => push a | .call a => call a
  | .ret => ret | .enter => enter | .leave => leave | .loop a => loop a | .loope a => loope a | .loopne a => loopne a
  | .jmp a => jmp a | .jo a => jo a | .jno a => jno a | .js a => js a | .jns a => jns a | .je a => je a | .jne a => jne a
  | .jb a => jb a | .jnb a => jnb a | .jbe a => jbe a | .ja a => ja a | .jl a => jl a | .jge a => jge a | .jle a => jle a
  | .jg a => jg a | .jp a => jp a | .jnp a => jnp a | .jcxz a => jcxz a | .jecxz a => jecxz a | .cmp a b => cmp a b
  | .add a b => add a b | .adc a b => adc a b | .sub a b => sub a b | .sbb a b => sbb a b | .idiv a => idiv a
  | .imul a => imul a | .dec a => dec a | .inc a => inc a | .and a b => and a b | .or a b => or a b | .xor a b => xor a b
  | .std => std | .cld => cld | .stc => stc | .clc => clc

end

/-! ### The operands a row accepts -/

@[simp] theorem asPlace_operand (p : Place) : p.operand.asPlace = .ok p := by cases p <;> rfl

theorem asPlace_ok_iff {o : Operand} {p : Place} : o.asPlace = .ok p ↔ o = p.operand := by
  constructor
  · cases o <;> intro h <;> cases h <;> rfl
  · rintro rfl; exact asPlace_operand p

theorem asImm_ok_iff {o : Operand} {c : Imm} : o.asImm = .ok c ↔ o = c.operand := by
  constructor
  · cases o <;> intro h <;> cases h; rfl
  · rintro rfl; rfl

@[simp] theorem asSource_operand (src : Source) : src.operand.asSource = src := by
  match src with
  | .place (.reg _) => rfl
  | .place (.mem _ _) => rfl
  | .place (.deref _ _) => rfl
  | .const _ => rfl

/-- A 4-byte operand is the operand of its source; a constant of another width is not (log 12). -/
theorem operand_asSource {o : Operand} (h : o.width = .w4) : o.asSource.operand = o := by
  cases o with
  | reg r => rfl
  | mem w m => rfl
  | deref w a => rfl
  | const w v => cases h; rfl

theorem width_operand_eq_w4_iff (src : Source) : src.operand.width = .w4 ↔ stackWidthOk src = true := by
  match src with
  | .place (.reg _) => exact beq_iff_eq.symm
  | .place (.mem _ _) => exact beq_iff_eq.symm
  | .place (.deref _ _) => exact beq_iff_eq.symm
  | .const _ => exact iff_of_true rfl rfl

/-- A row makes the instruction of these operands: they pass checks 4 and 5 of R88. -/
def MadeOf (i : Instr) : OpcodeRow → List Operand → Prop
  | .nullary j, ops => ops = [] ∧ i = j
  | .constant mk, ops => ∃ c : Imm, ops = [c.operand] ∧ i = mk c
  | .place mk, ops => ∃ p : Place, ops = [p.operand] ∧ i = mk p
  | .stackPlace mk, ops => ∃ p : Place, ops = [p.operand] ∧ stackWidthOk (.place p) = true ∧ i = mk p
  | .stackSource mk, ops => ∃ src : Source, ops = [src.operand] ∧ stackWidthOk src = true ∧ i = mk src
  | .binary mk, ops => ∃ (d : Place) (o : Operand), ops = [d.operand, o] ∧ binaryWf d o.asSource = true ∧ i = mk d o.asSource

theorem decodeUnary_ok_iff {i : Instr} {row : OpcodeRow} {o : Operand} :
    decodeUnary row o = .ok i ↔ MadeOf i row [o] := by
  cases row with
  | nullary j => simp [decodeUnary, MadeOf]
  | binary mk => simp [decodeUnary, MadeOf]
  | constant mk =>
    simp only [decodeUnary, MadeOf, List.singleton_inj, ← asImm_ok_iff]
    cases o.asImm <;> simp [eq_comm]
  | place mk =>
    simp only [decodeUnary, MadeOf, List.singleton_inj, ← asPlace_ok_iff]
    cases o.asPlace <;> simp [eq_comm]
  | stackPlace mk =>
    simp only [decodeUnary, MadeOf, List.singleton_inj, ← width_operand_eq_w4_iff, ← asPlace_ok_iff]
    cases hp : o.asPlace with
    | error e => simp
    | ok p =>
      obtain rfl := asPlace_ok_iff.1 hp
      by_cases hw : p.operand.width = .w4 <;> simp [hw, Source.operand, eq_comm (a := i)]
  | stackSource mk =>
    simp only [decodeUnary, MadeOf, List.singleton_inj, ← width_operand_eq_w4_iff]
    constructor
    · intro h
      split at h
      · next hw =>
        cases h
        have ho := operand_asSource hw
        exact ⟨_, ho.symm, by rwa [ho], rfl⟩
      · cases h
    · rintro ⟨src, rfl, hw, rfl⟩
      rw [if_pos hw, asSource_operand]

theorem decodeBinary_ok_iff {i : Instr} {mk : Place → Source → Instr} {o1 o2 : Operand} :
    decodeBinary mk o1 o2 = .ok i ↔ MadeOf i (.binary mk) [o1, o2] := by
  simp only [decodeBinary, MadeOf, List.cons.injEq, and_true, binaryWf, Bool.and_eq_true]
  constructor
  · intro h
    split at h
    · cases h
    · next d hd =>
      split at h
      · next ht =>
        split at h
        · next hw => cases h; exact ⟨d, o2, ⟨asPlace_ok_iff.1 hd, rfl⟩, ⟨ht, hw⟩, rfl⟩
        · cases h
      · cases h
  · rintro ⟨d, o, ⟨rfl, rfl⟩, ⟨ht, hw⟩, rfl⟩
    simp [ht, hw]

/-- What a row makes is well-formed, and its operands are the ones it was made of, but for the width of a binary instruction's
constant source. -/
theorem madeOf_cases {opc : BitVec 6} {i : Instr} {row : OpcodeRow} {ops : List Operand} (hrow : RowAgrees opc row)
    (h : MadeOf i row ops) : i.opcode = opc ∧ i.WellFormed = true ∧
      ((hasUncheckedWidthCode i = false ∧ i.operands = ops) ∨
        ∃ mk d w v, row = .binary mk ∧ ops = [d.operand, .const w v] ∧ i = mk d (.const v)) := by
  cases row with
  | nullary j =>
    obtain ⟨rfl, rfl⟩ := h
    exact ⟨hrow.opcode, hrow.wellFormed, .inl ⟨hrow.unchecked, hrow.operands⟩⟩
  | constant mk =>
    obtain ⟨c, rfl, rfl⟩ := h
    exact ⟨(hrow c).opcode, (hrow c).wellFormed, .inl ⟨(hrow c).unchecked, (hrow c).operands⟩⟩
  | place mk =>
    obtain ⟨p, rfl, rfl⟩ := h
    exact ⟨(hrow p).opcode, (hrow p).wellFormed, .inl ⟨(hrow p).unchecked, (hrow p).operands⟩⟩
  | stackPlace mk =>
    obtain ⟨p, rfl, hw, rfl⟩ := h
    exact ⟨(hrow p).opcode, (hrow p).wellFormed.trans hw, .inl ⟨(hrow p).unchecked, (hrow p).operands⟩⟩
  | stackSource mk =>
    obtain ⟨src, rfl, hw, rfl⟩ := h
    exact ⟨(hrow src).opcode, (hrow src).wellFormed.trans hw, .inl ⟨(hrow src).unchecked, (hrow src).operands⟩⟩
  | binary mk =>
    obtain ⟨d, o, rfl, hw, rfl⟩ := h
    obtain ⟨hopcode, hoperands, hwf, hunchecked⟩ := hrow d o.asSource
    refine ⟨hopcode, hwf.trans hw, ?_⟩
    cases o with
    | const w v => exact .inr ⟨mk, d, w, v, rfl, rfl, rfl⟩
    | reg r => exact .inl ⟨hunchecked, hoperands⟩
    | mem w m => exact .inl ⟨hunchecked, hoperands⟩
    | deref w a => exact .inl ⟨hunchecked, hoperands⟩

/-- A well-formed instruction is made of its own operands by the row of its opcode. -/
theorem madeOf_operands {i : Instr} (hwf : i.WellFormed = true) :
    ∃ row, opcodeRow i.opcode = some row ∧ MadeOf i row i.operands := by
  obtain ⟨_, _, _, row, hrow, hmakes⟩ := opcodeField_statement i
  refine ⟨row, hrow, ?_⟩
  have hagrees := opcodeRow_agrees hrow
  cases row with
  | nullary j => cases hmakes; exact ⟨hagrees.operands, rfl⟩
  | constant mk => obtain ⟨c, rfl⟩ := hmakes; exact ⟨c, (hagrees c).operands, rfl⟩
  | place mk => obtain ⟨p, rfl⟩ := hmakes; exact ⟨p, (hagrees p).operands, rfl⟩
  | stackPlace mk =>
    obtain ⟨p, rfl⟩ := hmakes
    exact ⟨p, (hagrees p).operands, (hagrees p).wellFormed.symm.trans hwf, rfl⟩
  | stackSource mk =>
    obtain ⟨src, rfl⟩ := hmakes
    exact ⟨src, (hagrees src).operands, (hagrees src).wellFormed.symm.trans hwf, rfl⟩
  | binary mk =>
    obtain ⟨d, src, rfl⟩ := hmakes
    refine ⟨d, src.operand, (hagrees d src).operands, ?_⟩
    rw [asSource_operand]
    exact ⟨(hagrees d src).wellFormed.symm.trans hwf, rfl⟩

end Sys2Proof.Machine
end

section
/-! Decoding and encoding a slot: a slot decodes to what the row of its opcode makes of the operands it holds (30_encoding.md R81,
R88). -/

namespace Sys2Proof.Machine

/-! ### The operands a slot holds -/

theorem eq_slotOf_nil_iff {s : Slot} : s = slotOf s.opc [] ↔ (s.d1 = 0 ∧ s.w1 = 0) ∧ s.d2 = 0 ∧ s.w2 = 0 :=
  Slot.eq_fields_iff.trans (and_iff_right rfl)

theorem eq_slotOf_one_iff {s : Slot} {o : Operand} :
    s = slotOf s.opc [o] ↔ decodeOperand s.d1 s.w1 = .ok o ∧ s.d2 = 0 ∧ s.w2 = 0 := by
  rw [decodeOperand_ok_iff]
  exact Slot.eq_fields_iff.trans (and_iff_right rfl)

theorem eq_slotOf_two_iff {s : Slot} {o1 o2 : Operand} :
    s = slotOf s.opc [o1, o2] ↔ decodeOperand s.d1 s.w1 = .ok o1 ∧ decodeOperand s.d2 s.w2 = .ok o2 := by
  rw [decodeOperand_ok_iff, decodeOperand_ok_iff]
  exact Slot.eq_fields_iff.trans (and_iff_right rfl)

/-- A slot decodes to the instruction that the row of its opcode makes of the operands it holds. -/
theorem decode_ok_iff {s : Slot} {i : Instr} :
    decode s = .ok i ↔ ∃ row ops, opcodeRow s.opc = some row ∧ MadeOf i row ops ∧ s = slotOf s.opc ops := by
  constructor
  · intro h
    unfold decode at h
    split at h
    · cases h
    · next j hrow =>
      split at h
      · next hz =>
        cases h
        exact ⟨_, [], hrow, ⟨rfl, rfl⟩, eq_slotOf_nil_iff.2 (and_assoc.2 hz)⟩
      · cases h
    · next mk hrow =>
      split at h
      · cases h
      · next o1 h1 =>
        split at h
        · cases h
        · next o2 h2 => exact ⟨_, [o1, o2], hrow, decodeBinary_ok_iff.1 h, eq_slotOf_two_iff.2 ⟨h1, h2⟩⟩
    · next row _ _ hrow =>
      split at h
      · next hz =>
        split at h
        · cases h
        · next o ho => exact ⟨row, [o], hrow, decodeUnary_ok_iff.1 h, eq_slotOf_one_iff.2 ⟨ho, hz⟩⟩
      · cases h
  · rintro ⟨row, ops, hrow, hmakes, hs⟩
    cases row
    case nullary j =>
      obtain ⟨rfl, rfl⟩ := hmakes
      simp only [decode, hrow]
      exact if_pos (and_assoc.1 (eq_slotOf_nil_iff.1 hs))
    case binary mk =>
      obtain ⟨d, o, rfl, hm⟩ := hmakes
      obtain ⟨h1, h2⟩ := eq_slotOf_two_iff.1 hs
      simp only [decode, hrow, h1, h2]
      exact decodeBinary_ok_iff.2 ⟨d, o, rfl, hm⟩
    case constant mk | place mk | stackPlace mk | stackSource mk =>
      obtain ⟨x, rfl, hm⟩ := hmakes
      obtain ⟨ho, hz⟩ := eq_slotOf_one_iff.1 hs
      simp only [decode, hrow, ho, if_pos hz]
      exact decodeUnary_ok_iff.2 ⟨x, rfl, hm⟩

/-! ### The width code of a constant source -/

theorem mask_withSecondWidthCode (s : Slot) (c : BitVec 2) :
    (s.withSecondWidthCode c).w0 &&& 0xFF9FFFFF = s.w0 &&& 0xFF9FFFFF := by
  have hcode : ∀ c : BitVec 2, (c.setWidth 32 <<< 21) &&& 0xFF9FFFFF = (0 : Word) := by decide
  simp only [Slot.withSecondWidthCode, BitVec.and_or_distrib_right, hcode, BitVec.and_assoc]
  exact BitVec.or_zero

/-- A slot that holds a constant in its second position holds it at every width when the width code is changed. -/
theorem withSecondWidthCode_eq_slotOf {s : Slot} {o : Operand} {w : Width} {v : Word}
    (h : s = slotOf s.opc [o, .const w v]) (w' : Width) :
    s.withSecondWidthCode w'.code = slotOf s.opc [o, .const w' v] := by
  obtain ⟨hopc, hd1, hshape, hbits, hwidth⟩ := s.withSecondWidthCode_fields w'.code
  obtain ⟨h1, h2⟩ := eq_slotOf_two_iff.1 h
  obtain ⟨hd2, hw2⟩ := decodeOperand_ok_iff.1 h2
  obtain ⟨hb, _, hsh⟩ := eq_descriptor_iff.1 hd2
  rw [← hopc, eq_slotOf_two_iff, hd1, decodeOperand_ok_iff (o := .const w' v), eq_descriptor_iff]
  exact ⟨h1, ⟨hbits.trans hb, hwidth, hshape.trans hsh⟩, hw2⟩

/-- Code 3 is no width, whatever the second position holds (R77). -/
theorem decode_withSecondWidthCode_three {s : Slot} {mk : Place → Source → Instr} {o : Operand}
    (hrow : opcodeRow s.opc = some (.binary mk)) (h : decodeOperand s.d1 s.w1 = .ok o) :
    decode (s.withSecondWidthCode 3) = .error .badWidthCode := by
  obtain ⟨hopc, hd1, _, _, hwidth⟩ := s.withSecondWidthCode_fields 3
  simp only [decode, hopc, hrow, hd1, Slot.withSecondWidthCode_w1, h, decodeOperand_badWidthCode _ hwidth]

/-! ### The obligations -/

/-- Settles O2: the encoder puts the operands of the instruction in the slot, and its row makes it of them. -/
theorem decodeEncodeAgree : Obligations.DecodeEncodeAgree := by
  intro i hwf
  obtain ⟨row, hrow, hmakes⟩ := madeOf_operands hwf
  have hopc : (encode i).opc = i.opcode := Laws.OpcodeField.opc_encode i
  exact decode_ok_iff.2 ⟨row, i.operands, by rwa [hopc], hmakes, by rw [hopc]; rfl⟩

/-- Settles O3: a slot holds the operands its instruction is made of, and they are the instruction's own but for the width of a
constant source. -/
theorem decodedSlotIsItsEncoding : Obligations.DecodedSlotIsItsEncoding := by
  intro s i h
  obtain ⟨row, ops, hrow, hmakes, hs⟩ := decode_ok_iff.1 h
  obtain ⟨hopc, hwf, ⟨hchecked, hops⟩ | ⟨mk, d, w, v, rfl, rfl, rfl⟩⟩ := madeOf_cases (opcodeRow_agrees hrow) hmakes
  · have henc : encode i = s := by rw [encode, hopc, hops, ← hs]
    rw [henc, hchecked]
    exact ⟨hwf, rfl, rfl, rfl, fun _ => rfl, nofun⟩
  · obtain ⟨_, hops, _, hunchecked⟩ := opcodeRow_agrees hrow d (.const v)
    have hcode := withSecondWidthCode_eq_slotOf hs
    have henc : encode (mk d (.const v)) = s.withSecondWidthCode 2 := by
      rw [encode, hopc, hops]; exact (hcode .w4).symm
    have hdec : ∀ w' : Width, decode (s.withSecondWidthCode w'.code) = .ok (mk d (.const v)) := fun w' => by
      obtain ⟨hopc', _⟩ := s.withSecondWidthCode_fields w'.code
      exact decode_ok_iff.2 ⟨.binary mk, [d.operand, .const w' v], by rwa [hopc'], ⟨d, .const w' v, rfl, rfl, rfl⟩,
        by rw [hopc']; exact hcode w'⟩
    rw [henc, hunchecked]
    exact ⟨hwf, rfl, rfl, mask_withSecondWidthCode s 2, nofun, fun _ => ⟨hdec .w1, hdec .w2, hdec .w4,
      decode_withSecondWidthCode_three hrow (eq_slotOf_two_iff.1 hs).1⟩⟩

/-- Settles O4: a slot holds as many operands as its instruction has, and the encoder leaves the other positions 0. -/
theorem unusedOperandPositionsAreZero : Obligations.UnusedOperandPositionsAreZero := by
  intro s i h
  obtain ⟨row, ops, hrow, hmakes, hs⟩ := decode_ok_iff.1 h
  have hlen : i.operands.length = ops.length := by
    obtain ⟨_, _, ⟨_, hops⟩ | ⟨mk, d, w, v, rfl, rfl, rfl⟩⟩ := madeOf_cases (opcodeRow_agrees hrow) hmakes
    · rw [hops]
    · rw [(opcodeRow_agrees hrow d (.const v)).operands]; rfl
  rw [hlen]
  match ops with
  | [] =>
    obtain ⟨hfirst, hsecond⟩ := eq_slotOf_nil_iff.1 hs
    exact ⟨fun _ => hsecond, fun _ => hfirst⟩
  | [o] => exact ⟨fun _ => (eq_slotOf_one_iff.1 hs).2, fun hlt => absurd hlt (by simp)⟩
  | _ :: _ :: _ => exact ⟨fun hlt => absurd hlt (by simp), fun hlt => absurd hlt (by simp)⟩

/-- Settles O1: the decoder evaluated on each slot. -/
theorem specSlotsDecode : Obligations.SpecSlotsDecode := by
  unfold Obligations.SpecSlotsDecode
  decide

end Sys2Proof.Machine
end

section
/-! The step answers a next state (60_exceptions.md R223, R231). -/

namespace Sys2Proof.Machine

/-- Settles O7: the fetch ends the step, or an instruction runs, and every instruction answers a next state. -/
theorem everyStepAnswersNext : Obligations.EveryStepAnswersNext := by
  intro s
  unfold step
  cases s.fetch with
  | done t => exact ⟨t, rfl⟩
  | run i t => exact exec_total i t

end Sys2Proof.Machine
end

section
/-! MOV and the stack: what each instruction leaves when it completes, and what a push and the pop after it leave together
(40_data_movement.md R111 to R113; 44_control_flow.md R196 to R199). -/

namespace Sys2Proof.Machine

section
variable {s : State}

/-! ### ip at the end of an instruction -/

theorem State.advance_written (s : State) (w : Width) (v : Word) (g : Target) :
    (s.written w v g).advance = { s.written w v g with ip := s.ip + 1 } := by
  cases g <;> rfl

/-- Whether a target can be written does not depend on the registers (20_memory.md R54). -/
theorem State.canWrite_writeReg (r : Reg) (x : Word) {w : Width} {g : Target} (h : s.CanWrite w g) :
    (s.writeReg r x).CanWrite w g := by
  cases g <;> exact h

/-! ### Instructions that complete -/

theorem exec_mov_of {dst : Place} {src : Source} {g : Target} {v : Word} (hg : s.resolve dst = .ok g)
    (hv : s.readSource dst.width src = .ok v) (hw : s.CanWrite dst.width g) :
    exec (.mov dst src) s = .next { s.written dst.width v g with ip := s.ip + 1 } :=
  settle_next.2 <| .inl <| bind_ok.2 ⟨g, hg, bind_ok.2 ⟨v, hv, bind_ok.2 ⟨_, State.writeTarget_of hw,
    congrArg Except.ok (s.advance_written _ v g)⟩⟩⟩

theorem exec_push_of {src : Source} {v sp : Word} (hv : s.readSource .w4 src = .ok v) (hsp : s.readReg .esp = .ok sp)
    (hlo : 4 ≤ sp.toNat) (hhi : sp.toNat ≤ s.cfg.memSize) :
    exec (.push src) s = .next ((s.storeWord (sp.toNat - 4) 4 v).writeReg .esp (sp - 4)).advance :=
  settle_next.2 <| .inl <| bind_ok.2 ⟨v, hv, bind_ok.2 ⟨_, State.push_of hsp hlo hhi, rfl⟩⟩

/-- The target's address comes from the state before ESP moves, and its write comes after that of ESP. -/
theorem exec_pop_of {dst : Place} {g : Target} {sp : Word} (hsp : s.readReg .esp = .ok sp)
    (hhi : sp.toNat + 4 ≤ s.cfg.memSize) (hg : s.resolve dst = .ok g) (hw : s.CanWrite .w4 g) :
    exec (.pop dst) s = .next ((s.writeReg .esp (sp + 4)).written .w4 (s.loadWord sp.toNat 4) g).advance := by
  have hread : s.memRead sp.toNat 4 = .ok (s.loadWord sp.toNat 4) := State.memRead_of (by decide) ⟨by omega, by omega⟩
  refine settle_next.2 <| .inl <| bind_ok.2 ⟨sp, hsp, bind_ok.2 ⟨g, hg, bind_ok.2 ⟨_, hread, ?_⟩⟩⟩
  rw [ofNat_add_four]
  exact bind_ok.2 ⟨_, State.writeTarget_of (State.canWrite_writeReg .esp _ hw), rfl⟩

theorem exec_call_of (c : Imm) {sp : Word} (hsp : s.readReg .esp = .ok sp) (hlo : 4 ≤ sp.toNat)
    (hhi : sp.toNat ≤ s.cfg.memSize) :
    exec (.call c) s = .next (((s.storeWord (sp.toNat - 4) 4 (s.ip + 1)).writeReg .esp (sp - 4)).jumpTo (immValue c)) :=
  settle_next.2 <| .inl <| bind_ok.2 ⟨_, State.push_of hsp hlo hhi, rfl⟩

theorem exec_ret_of {sp : Word} (hsp : s.readReg .esp = .ok sp) (hhi : sp.toNat + 4 ≤ s.cfg.memSize) :
    exec .ret s = .next ((s.writeReg .esp (sp + 4)).jumpTo (s.loadWord sp.toNat 4)) :=
  settle_next.2 <| .inl <| bind_ok.2 ⟨_, State.pop_of hsp hhi, rfl⟩

theorem exec_enter_of {sp bp : Word} (hsp : s.readReg .esp = .ok sp) (hbp : s.readReg .ebp = .ok bp) (hlo : 4 ≤ sp.toNat)
    (hhi : sp.toNat ≤ s.cfg.memSize) :
    exec .enter s = .next
      (((s.storeWord (sp.toNat - 4) 4 bp).writeReg .esp (sp - 4)).writeReg .ebp (sp - 4)).advance := by
  have haddr : ((sp.toNat : Int) - 4).toNat = sp.toNat - 4 := by omega
  have hwrite : s.memWrite ((sp.toNat : Int) - 4) 4 bp = .ok (s.storeWord (sp.toNat - 4) 4 bp) := by
    rw [State.memWrite_of (by decide) ⟨by omega, by omega⟩, haddr]
  refine settle_next.2 <| .inl <| bind_ok.2 ⟨bp, hbp, bind_ok.2 ⟨sp, hsp, bind_ok.2 ⟨_, hwrite, ?_⟩⟩⟩
  rw [ofInt_sub_four, pure_ok]

/-- LEAVE reads the frame's address from EBP or from ESP, as LEAVE_MODE says. -/
theorem exec_leave_of {frame : Word} (hx86 : s.cfg.leaveMode = .x86 → s.readReg .ebp = .ok frame)
    (hpop : s.cfg.leaveMode = .popOnly → s.readReg .esp = .ok frame) (hhi : frame.toNat + 4 ≤ s.cfg.memSize) :
    exec .leave s = .next
      ((s.writeReg .esp (frame + 4)).writeReg .ebp (s.loadWord frame.toNat 4)).advance := by
  have hread : s.memRead frame.toNat 4 = .ok (s.loadWord frame.toNat 4) :=
    State.memRead_of (by decide) ⟨by omega, by omega⟩
  refine settle_next.2 <| .inl <| bind_ok.2 ⟨frame, ?_, bind_ok.2 ⟨_, hread, ?_⟩⟩
  · cases hmode : s.cfg.leaveMode with
    | x86 => exact hx86 hmode
    | popOnly => exact hpop hmode
  · rw [ofNat_add_four, pure_ok]

end

/-! ### Registers and memory around the stack -/

/-- A 4-byte register is read back as written. -/
theorem State.readReg_writeReg_w4 (s : State) {r : Reg} (hr : r.width = .w4) (x : Word) :
    (s.writeReg r x).readReg r = .ok x := by
  rw [State.readReg_writeReg, hr, truncTo_w4]

/-- The 4-byte register of bank 4 is ESP alone (10_state.md R24). -/
theorem Reg.bank_esp_ne {r : Reg} (hr : r.width = .w4) (hne : r ≠ .esp) : Reg.esp.view.bank ≠ r.view.bank := by
  cases r <;> simp_all [Reg.width, Reg.view]

/-- The frame's address, written to ESP and then to EBP, is in both (44_control_flow.md R198). -/
theorem State.readReg_frame (s : State) (x : Word) :
    ((s.writeReg .esp x).writeReg .ebp x).readReg .ebp = .ok x ∧
      ((s.writeReg .esp x).writeReg .ebp x).readReg .esp = .ok x :=
  ⟨State.readReg_writeReg_w4 _ rfl x,
    (State.readReg_writeReg_bank _ _ _ _ (by decide)).trans (s.readReg_writeReg_w4 rfl x)⟩

/-- A pushed word is loaded back where it was stored. -/
theorem State.loadWord_storeWord_four (s : State) (hm : s.mem.wf = true) (a : Nat) (v : Word) :
    (s.storeWord a 4 v).loadWord a 4 = v :=
  (s.loadWord_storeWord hm a .w4 v).trans (truncTo_w4 v)

@[simp] theorem State.loadWord_writeReg (s : State) (r : Reg) (x : Word) (a n : Nat) :
    (s.writeReg r x).loadWord a n = s.loadWord a n := rfl
@[simp] theorem State.loadWord_jumpTo (s : State) (x : Word) (a n : Nat) : (s.jumpTo x).loadWord a n = s.loadWord a n := rfl
@[simp] theorem State.loadWord_advance (s : State) (a n : Nat) : s.advance.loadWord a n = s.loadWord a n := rfl

/-- In memory, 4 below an address that is at least 4 does not wrap. -/
theorem toNat_sub_four {sp : Word} (h : 4 ≤ sp.toNat) : (sp - 4).toNat = sp.toNat - 4 := by bv_omega

/-! ### The obligations -/

/-- Settles O32: no step of MOV's body faults, and the last writes the target. -/
theorem movCompletes : Obligations.MovCompletes := fun _ _ _ _ _ hg hv hw => exec_mov_of hg hv hw

/-- Settles O44: the push fits in memory, so no step of PUSH's body faults. -/
theorem pushCompletes : Obligations.PushCompletes := fun _ _ _ _ hv hsp hlo hhi => exec_push_of hv hsp hlo hhi

/-- Settles O45: the target is written after ESP, so a pop into ESP keeps the popped value. -/
theorem popCompletes : Obligations.PopCompletes := by
  intro s dst g sp hsp hhi hg hw
  rw [exec_pop_of hsp hhi hg hw, State.advance_written, State.writeReg_ip]

/-- Settles O60: the second instruction loads at ESP − 4 the word the first one stored there. -/
theorem stackRoundTrips : Obligations.StackRoundTrips := by
  intro s sp hm hsp hlo hhi
  have hslot : (sp - 4).toNat = sp.toNat - 4 := toNat_sub_four hlo
  have hfits : (sp - 4).toNat + 4 ≤ s.cfg.memSize := by omega
  have hback : ∀ v, (s.storeWord (sp.toNat - 4) 4 v).loadWord (sp - 4).toNat 4 = v := fun v => by
    rw [hslot]; exact s.loadWord_storeWord_four hm _ v
  have hesp : ∀ t : State, (t.writeReg .esp (sp - 4 + 4)).readReg .esp = .ok sp := fun t => by
    rw [t.readReg_writeReg_w4 rfl, BitVec.sub_add_cancel]
  refine ⟨fun src r v hr hne hv => ?pushPop, fun c => ?callRet, fun bp hbp => ?enterLeave⟩
  case pushPop =>
    refine ⟨_, _, exec_push_of hv hsp hlo hhi, exec_pop_of (sp := sp - 4) (g := .reg r) ?moved hfits rfl trivial, ?value,
      ?esp⟩
    case moved => rw [State.readReg_advance, State.readReg_writeReg_w4 _ rfl]
    case value =>
      rw [State.readReg_advance, State.written, State.readReg_writeReg_w4 _ hr, State.loadWord_advance,
        State.loadWord_writeReg, hback]
    case esp =>
      rw [State.readReg_advance, State.written, State.readReg_writeReg_bank _ _ _ _ (Reg.bank_esp_ne hr hne), hesp]
  case callRet =>
    refine ⟨_, _, exec_call_of c hsp hlo hhi, State.jumpTo_ip _ _, exec_ret_of (sp := sp - 4) ?moved hfits, ?ip, ?esp,
      ?flags⟩
    case moved => rw [State.readReg_jumpTo, State.readReg_writeReg_w4 _ rfl]
    case ip => rw [State.jumpTo_ip, State.loadWord_jumpTo, State.loadWord_writeReg, hback]
    case esp => rw [State.readReg_jumpTo, hesp]
    case flags => simp only [State.jumpTo_flags, State.writeReg_flags, State.storeWord_flags]
  case enterLeave =>
    obtain ⟨hebp, hframe⟩ := (s.storeWord (sp.toNat - 4) 4 bp).readReg_frame (sp - 4)
    refine ⟨_, _, exec_enter_of hsp hbp hlo hhi, hebp, hframe,
      exec_leave_of (frame := sp - 4) (fun _ => hebp) (fun _ => hframe) hfits, ?ebp, ?esp⟩
    case ebp =>
      rw [State.readReg_advance, State.readReg_writeReg_w4 _ rfl, State.loadWord_advance, State.loadWord_writeReg,
        State.loadWord_writeReg, hback]
    case esp => rw [State.readReg_advance, State.readReg_writeReg_bank _ _ _ _ (by decide), hesp]

end Sys2Proof.Machine
end

section
/-! The ALU: its result and what its five flags say of it, at every flag width (41_alu.md R121 to R125), and the width and the
operands it is used with (R122). -/

namespace Sys2Proof

theorem Width.bits_le (w : Width) : w.bits ≤ 32 := Nat.mul_le_mul_left 8 w.bytes_le

end Sys2Proof

namespace Sys2Proof.Machine

section
variable {fw : Nat} (a b : BitVec fw)

/-! ### The result -/

theorem bitVec_ofInt_sub (x y : Int) : BitVec.ofInt fw (x - y) = BitVec.ofInt fw x - BitVec.ofInt fw y := by
  rw [sub_eq_add_neg, BitVec.ofInt_add, BitVec.ofInt_neg, ← sub_eq_add_neg]

theorem aluSum_value (c : Nat) : (aluSum a b c).value = a + b + BitVec.ofNat fw c := by
  simp only [aluSum, aluResult, BitVec.ofNat_add, BitVec.ofNat_toNat, BitVec.setWidth_eq]

theorem aluDifference_value (c : Nat) : (aluDifference a b c).value = a - b - BitVec.ofNat fw c := by
  simp only [aluDifference, aluResult, bitVec_ofInt_sub, BitVec.ofInt_natCast, BitVec.ofNat_toNat, BitVec.setWidth_eq]

theorem alu_add_value (c : Bool) : (alu .add a b c).value = a + b := (aluSum_value a b 0).trans (BitVec.add_zero _)

theorem alu_sub_value (c : Bool) : (alu .sub a b c).value = a - b := (aluDifference_value a b 0).trans (BitVec.sub_zero _)

/-- Taken mod 2^FW, the sum of the signed operands is that of the unsigned ones. -/
theorem aluSum_value_eq_ofInt (c : Nat) : (aluSum a b c).value = BitVec.ofInt fw (a.toInt + b.toInt + c) := by
  simp only [aluSum_value, BitVec.ofInt_add, BitVec.ofInt_toInt, BitVec.ofInt_natCast]

theorem aluDifference_value_eq_ofInt (c : Nat) :
    (aluDifference a b c).value = BitVec.ofInt fw (a.toInt - b.toInt - c) := by
  simp only [aluDifference_value, bitVec_ofInt_sub, BitVec.ofInt_toInt, BitVec.ofInt_natCast]

/-! ### CF -/

/-- An integer within 2^FW of 0 is taken mod 2^FW by one borrow at most. -/
theorem emod_of_borrow {x m : Int} (hlo : -m ≤ x) (hhi : x < m) : x % m = x + if x < 0 then m else 0 := by
  split
  · rw [← Int.add_emod_right, Int.emod_eq_of_lt (by omega) (by omega)]
  · rw [Int.emod_eq_of_lt (by omega) hhi, Int.add_zero]

/-- With the carry out, the sum is exact (41_alu.md R123). -/
theorem aluSum_carry {c : Nat} (hc : c ≤ 1) :
    (aluSum a b c).value.toNat + (if (aluSum a b c).CF then 2 ^ fw else 0) = a.toNat + b.toNat + c := by
  have ha := a.isLt
  have hb := b.isLt
  simp only [aluSum, aluResult, BitVec.toNat_ofNat, decide_eq_true_eq]
  split
  case isTrue h => rw [Nat.mod_eq_sub_mod h, Nat.mod_eq_of_lt (by omega), Nat.sub_add_cancel h]
  case isFalse h => rw [Nat.mod_eq_of_lt (Nat.lt_of_not_le h), Nat.add_zero]

/-- With the borrow, the difference is exact (41_alu.md R123). -/
theorem aluDifference_borrow {c : Nat} (hc : c ≤ 1) : ((aluDifference a b c).value.toNat : Int) =
    a.toNat - b.toNat - c + (if (aluDifference a b c).CF then 2 ^ fw else 0) := by
  have ha := a.isLt
  have hb := b.isLt
  have hmod := emod_of_borrow (x := (a.toNat : Int) - b.toNat - c) (m := (2 ^ fw : Nat)) (by omega) (by omega)
  simp only [aluDifference, aluResult, BitVec.toNat_ofInt, decide_eq_true_eq]
  rw [Int.toNat_of_nonneg (Int.emod_nonneg _ (by positivity)), hmod]
  push_cast
  rfl

/-! ### OF -/

/-- An integer is in the signed range when the bits it is cut to still hold it (41_alu.md R124). -/
theorem outsideSigned_eq_false_iff (hfw : 0 < fw) (x : Int) :
    outsideSigned fw x = false ↔ (BitVec.ofInt fw x).toInt = x := by
  simp only [outsideSigned, Bool.or_eq_false_iff, decide_eq_false_iff_not, not_lt, not_le, Nat.cast_pow, Nat.cast_ofNat]
  constructor
  · rintro ⟨hlo, hhi⟩
    exact BitVec.toInt_ofInt_eq_self hfw hlo hhi
  · intro h
    rw [← h]
    exact ⟨BitVec.le_toInt _, BitVec.toInt_lt⟩

theorem aluSum_OF_eq_false_iff (hfw : 0 < fw) (c : Nat) :
    (aluSum a b c).OF = false ↔ (aluSum a b c).value.toInt = a.toInt + b.toInt + c := by
  rw [aluSum_value_eq_ofInt]
  exact outsideSigned_eq_false_iff hfw _

theorem aluDifference_OF_eq_false_iff (hfw : 0 < fw) (c : Nat) :
    (aluDifference a b c).OF = false ↔ (aluDifference a b c).value.toInt = a.toInt - b.toInt - c := by
  rw [aluDifference_value_eq_ofInt]
  exact outsideSigned_eq_false_iff hfw _

/-! ### ZF, SF and PF -/

/-- Every operation takes ZF, SF and PF from its result (41_alu.md R125). -/
theorem alu_eq_aluResult (op : AluOp) (c : Bool) :
    alu op a b c = aluResult (alu op a b c).value (alu op a b c).CF (alu op a b c).OF := by
  cases op <;> rfl

theorem alu_ZF_iff (op : AluOp) (c : Bool) : (alu op a b c).ZF = true ↔ (alu op a b c).value = 0 := by
  rw [alu_eq_aluResult]
  exact beq_iff_eq

theorem alu_SF (op : AluOp) (c : Bool) : (alu op a b c).SF = (alu op a b c).value.msb := by
  rw [alu_eq_aluResult, BitVec.msb_eq_getLsbD_last]
  rfl

theorem alu_PF (op : AluOp) (c : Bool) : (alu op a b c).PF = evenParity (alu op a b c).value := by
  rw [alu_eq_aluResult]
  rfl

/-- A count is even when the exclusive or of what it counts is false. -/
theorem countP_even (p : Nat → Bool) (l : List Nat) : (l.countP p % 2 == 0) = !(l.map p).foldr xor false := by
  induction l with
  | nil => rfl
  | cons i l ih =>
    rw [List.map_cons, List.foldr_cons, List.countP_cons]
    cases p i <;> grind

theorem evenParity_eq_xor (r : BitVec fw) :
    evenParity r = !(r.getLsbD 0 ^^ r.getLsbD 1 ^^ r.getLsbD 2 ^^ r.getLsbD 3 ^^ r.getLsbD 4 ^^ r.getLsbD 5 ^^
      r.getLsbD 6 ^^ r.getLsbD 7) := by
  rw [evenParity, countP_even]
  simp only [List.range, List.range.loop, List.map, List.foldr, Bool.xor_false, Bool.xor_assoc]

/-! ### The order of the operands of a difference -/

/-- The sign of the bits an integer is cut to is wrong exactly when it overflows, so the two together give the integer's own
sign. -/
theorem msb_bne_outsideSigned (hfw : 0 < fw) {x : Int} (hlo : -(2 ^ fw : Nat) ≤ x) (hhi : x < (2 ^ fw : Nat)) :
    ((BitVec.ofInt fw x).msb != outsideSigned fw x) = decide (x < 0) := by
  have hmod := emod_of_borrow hlo hhi
  obtain ⟨n, rfl⟩ : ∃ n, fw = n + 1 := ⟨fw - 1, by omega⟩
  have hhalf : 2 ^ (n + 1) = 2 * 2 ^ n := by omega
  rw [BitVec.msb_eq_decide, BitVec.toNat_ofInt, hmod, outsideSigned, Nat.add_sub_cancel]
  rw [hhalf] at hlo hhi ⊢
  generalize 2 ^ n = m at *
  rw [Bool.eq_iff_iff, ← Bool.decide_or, bne_iff_ne, ne_eq, decide_eq_decide, decide_eq_true_eq]
  split <;> omega

theorem alu_sub_CF (c : Bool) : (alu .sub a b c).CF = decide (a.toNat < b.toNat) :=
  decide_eq_decide.2 (by simp only [AluOp.carry]; omega)

theorem alu_sub_ZF (c : Bool) : (alu .sub a b c).ZF = decide (a = b) := by
  rw [Bool.eq_iff_iff, alu_ZF_iff, decide_eq_true_eq, alu_sub_value]
  exact sub_eq_zero

theorem alu_sub_SF_bne_OF (hfw : 0 < fw) (c : Bool) :
    ((alu .sub a b c).SF != (alu .sub a b c).OF) = decide (a.toInt < b.toInt) := by
  have hloA : -(2 ^ fw : Int) ≤ 2 * a.toInt := BitVec.le_two_mul_toInt
  have hhiA : 2 * a.toInt < 2 ^ fw := BitVec.two_mul_toInt_lt
  have hloB : -(2 ^ fw : Int) ≤ 2 * b.toInt := BitVec.le_two_mul_toInt
  have hhiB : 2 * b.toInt < 2 ^ fw := BitVec.two_mul_toInt_lt
  have hOF : (alu .sub a b c).OF = outsideSigned fw (a.toInt - b.toInt - (0 : Nat)) := rfl
  have hvalue : (alu .sub a b c).value = BitVec.ofInt fw (a.toInt - b.toInt - (0 : Nat)) :=
    aluDifference_value_eq_ofInt a b 0
  rw [alu_SF, hvalue, hOF, msb_bne_outsideSigned hfw (by push_cast; omega) (by push_cast; omega), decide_eq_decide]
  omega

/-! ### Cutting to fewer bits -/

theorem bitVec_setWidth_sub {n : Nat} (h : n ≤ fw) : (a - b).setWidth n = a.setWidth n - b.setWidth n := by
  rw [sub_eq_add_neg, BitVec.setWidth_add _ _ h, BitVec.setWidth_neg_of_le h, ← sub_eq_add_neg]

/-- Cutting the operands to fewer bits cuts the result to them. -/
theorem setWidth_alu_value {n : Nat} (h : n ≤ fw) (op : AluOp) (c : Bool) :
    (alu op a b c).value.setWidth n = (alu op (a.setWidth n) (b.setWidth n) c).value := by
  cases op with
  | add | adc => simp only [alu, aluSum_value, BitVec.setWidth_add _ _ h, BitVec.setWidth_ofNat_of_le h]
  | sub | sbb => simp only [alu, aluDifference_value, bitVec_setWidth_sub _ _ h, BitVec.setWidth_ofNat_of_le h]
  | and => exact BitVec.setWidth_and
  | or => exact BitVec.setWidth_or
  | xor => exact BitVec.setWidth_xor

end

/-! ### The width and the operands of the ALU -/

/-- Widening keeps the bits of the operand's width. -/
theorem setWidth_widenTo32 (e : NarrowExt) (w : Width) (v : Word) :
    (widenTo32 e w v).setWidth w.bits = v.setWidth w.bits := by
  cases e with
  | zero => rw [widenTo32, truncTo, BitVec.setWidth_setWidth_of_le _ w.bits_le, BitVec.setWidth_eq]
  | sign =>
    refine BitVec.eq_of_getLsbD_eq fun i hi => ?_
    simp only [widenTo32, signExtendFrom, BitVec.getLsbD_setWidth, BitVec.getLsbD_signExtend, hi,
      hi.trans_le w.bits_le, decide_true, Bool.true_and, if_true]

theorem toNat_widenTo32_zero (w : Width) (v : Word) : (widenTo32 .zero w v).toNat = v.toNat % 2 ^ w.bits := by
  rw [widenTo32, truncTo, BitVec.toNat_setWidth_of_le w.bits_le, BitVec.toNat_setWidth]

theorem toInt_widenTo32_sign (w : Width) (v : Word) : (widenTo32 .sign w v).toInt = (v.setWidth w.bits).toInt :=
  BitVec.toInt_signExtend_of_le w.bits_le

theorem aluAt_fixed32 {cfg : Config} (h : cfg.flagWidth = .fixed32) (w : Width) (op : AluOp) (t s : Word) (c : Bool) :
    aluAt cfg w op t s c = alu op (widenTo32 cfg.narrowExt w t) (widenTo32 cfg.narrowExt w s) c := by
  simp only [aluAt, h]

theorem aluAt_operand {cfg : Config} (h : cfg.flagWidth = .operand) (w : Width) (op : AluOp) (t s : Word) (c : Bool) :
    aluAt cfg w op t s c = (alu op (t.setWidth w.bits) (s.setWidth w.bits) c).toWord := by
  simp only [aluAt, h]

/-- Under every setting the low bits of the result are those of the operation on the operands' own bits. -/
theorem setWidth_aluAt_value (cfg : Config) (w : Width) (op : AluOp) (t s : Word) (c : Bool) :
    (aluAt cfg w op t s c).value.setWidth w.bits = (alu op (t.setWidth w.bits) (s.setWidth w.bits) c).value := by
  cases h : cfg.flagWidth with
  | fixed32 => rw [aluAt_fixed32 h, setWidth_alu_value _ _ w.bits_le, setWidth_widenTo32, setWidth_widenTo32]
  | operand =>
    rw [aluAt_operand h, AluResult.toWord, BitVec.setWidth_setWidth_of_le _ w.bits_le, BitVec.setWidth_eq]

/-! ### The obligations -/

/-- Settles O28: the carry is what the sum loses mod 2^FW, and OF whether the signed result still holds the exact one. -/
theorem carryAndOverflowAreExact : Obligations.CarryAndOverflowAreExact := by
  intro fw a b c hfw
  refine ⟨aluSum_carry a b c.toNat_le, aluSum_OF_eq_false_iff a b hfw _, aluDifference_borrow a b c.toNat_le,
    aluDifference_OF_eq_false_iff a b hfw _, rfl, rfl, ?bitwise⟩
  rintro op (rfl | rfl | rfl) <;> exact ⟨rfl, rfl⟩

/-- Settles O29: each operation's result, and the flags that every operation takes from its result. -/
theorem resultZeroSignAndParity : Obligations.ResultZeroSignAndParity := by
  intro fw op a b c _
  exact ⟨alu_add_value a b c, aluSum_value a b _, alu_sub_value a b c, aluDifference_value a b _, rfl, rfl, rfl,
    alu_ZF_iff a b op c, alu_SF a b op c, (alu_PF a b op c).trans (evenParity_eq_xor _)⟩

/-- Settles O30: the low bits of the result are the same under every setting. -/
theorem writeBackIgnoresFlagWidth : Obligations.WriteBackIgnoresFlagWidth := by
  intro cfg cfg' w op t s c
  rw [truncTo, truncTo, setWidth_aluAt_value, setWidth_aluAt_value]

/-- Settles O31: by FLAG_WIDTH, and under fixed32 by NARROW_EXT. -/
theorem flagWidthSelectsTheAluWidth : Obligations.FlagWidthSelectsTheAluWidth := by
  intro cfg w op t s c
  refine ⟨fun h => ⟨_, _, aluAt_fixed32 h w op t s c, fun he => ?zero, fun he => ?sign⟩, fun h => ⟨_, rfl, ?operand⟩⟩
  case zero => rw [he]; exact ⟨toNat_widenTo32_zero w t, toNat_widenTo32_zero w s⟩
  case sign => rw [he]; exact ⟨toInt_widenTo32_sign w t, toInt_widenTo32_sign w s⟩
  case operand => rw [aluAt_operand h]; exact ⟨rfl, rfl, rfl, rfl, rfl, rfl⟩

end Sys2Proof.Machine
end

section
/-! The arithmetic and logic instructions: what each leaves when it completes (41_alu.md R126 to R136), and what CMP and the jump
after it, or ADD and the ADC after it, leave together. -/

namespace Sys2Proof.Machine

section
variable {s : State} {dst : Place} {src : Source} {g : Target} {a b : Word}

/-! ### The shared body -/

/-- The state a binary instruction with write-back leaves: the result in the target, the flags of the ALU and ip advanced
(41_alu.md R126). -/
def State.afterAlu (s : State) (w : Width) (g : Target) (r : AluResult 32) : State :=
  { s.written w r.value g with flags := s.flags.fromAlu r, ip := s.ip + 1 }

/-- The carry the template reads is F.CF where the operation uses it; where it does not, any other gives the same result. -/
theorem State.carryIn_ok {op : AluOp} {c : Bool} (hc : op = .adc ∨ op = .sbb → s.flags.CF = .val c) :
    ∃ c', s.carryIn op = .ok c' ∧ ∀ w x y, aluAt s.cfg w op x y c' = aluAt s.cfg w op x y c := by
  cases op with
  | adc => exact ⟨c, Content.read_ok.2 (hc (.inl rfl)), fun _ _ _ => rfl⟩
  | sbb => exact ⟨c, Content.read_ok.2 (hc (.inr rfl)), fun _ _ _ => rfl⟩
  | add | sub | and | or | xor => exact ⟨false, rfl, fun _ _ _ => rfl⟩

theorem exec_alu_of {op : AluOp} {c : Bool} (hg : s.resolve dst = .ok g) (ha : s.readTarget dst.width g = .ok a)
    (hb : s.readSource dst.width src = .ok b) (hc : op = .adc ∨ op = .sbb → s.flags.CF = .val c) :
    exec (op.instr dst src) s = .next (s.afterAlu dst.width g (aluAt s.cfg dst.width op a b c)) := by
  obtain ⟨c', hcarry, halu⟩ := State.carryIn_ok hc
  rw [exec_alu, ← halu]
  exact settle_next.2 <| .inl <| State.binaryWrite_ok.2
    ⟨g, _, State.binaryAlu_ok.2 ⟨a, b, c', hg, ha, hb, hcarry, rfl⟩, State.canWrite_of_readTarget ha, rfl⟩

theorem exec_cmp_of (ha : s.readPlace dst.width dst = .ok a) (hb : s.readSource dst.width src = .ok b) :
    exec (.cmp dst src) s = .next
      { s with flags := s.flags.fromAlu (aluAt s.cfg dst.width .sub a b false), ip := s.ip + 1 } := by
  obtain ⟨g, hg, ha⟩ := bind_ok.1 ha
  exact settle_next.2 <| .inl <| bind_ok.2
    ⟨(g, _), State.binaryAlu_ok.2 ⟨a, b, false, hg, ha, hb, rfl, rfl⟩, rfl⟩

theorem Flags.fromIncDec_eq (f : Flags) (mode : IncDecCF) (r : AluResult 32) :
    f.fromIncDec mode r =
      ⟨if mode = .computed then .val r.CF else f.CF, .val r.ZF, .val r.OF, .val r.SF, .val r.PF, f.DF⟩ := by
  cases mode <;> rfl

theorem settle_stepByOne_of (op : AluOp) (hg : s.resolve dst = .ok g) (ha : s.readTarget dst.width g = .ok a) :
    settle s (s.stepByOne op dst) = .next
      { s.written dst.width (aluAt s.cfg dst.width op a 1 false).value g with
        flags := s.flags.fromIncDec s.cfg.incDecCF (aluAt s.cfg dst.width op a 1 false), ip := s.ip + 1 } :=
  settle_next.2 <| .inl <| State.stepByOne_ok.2 ⟨g, a, hg, ha, State.canWrite_of_readTarget ha, rfl⟩

/-! ### CMP, then a jump -/

theorem exec_jump_of (cond : Cond) {p : Prop} [Decidable p] (c : Imm) (h : s.flags.cond cond = .ok (decide p)) :
    exec (cond.instr c) s = .next { s with ip := if p then immValue c else s.ip + 1 } := by
  rw [exec_jump]
  refine settle_next.2 <| .inl <| State.jumpIf_ok.2 ⟨_, h, ?_⟩
  simp only [branch_eq, decide_eq_true_eq]

/-- The flags of a comparison give the signed order (44_control_flow.md R185 to R188). -/
theorem cond_signed_of_sub (f : Flags) (a b : Word) :
    (f.fromAlu (alu .sub a b false)).cond .l = .ok (decide (a.toInt < b.toInt)) ∧
    (f.fromAlu (alu .sub a b false)).cond .ge = .ok (decide (b.toInt ≤ a.toInt)) ∧
    (f.fromAlu (alu .sub a b false)).cond .le = .ok (decide (a.toInt ≤ b.toInt)) ∧
    (f.fromAlu (alu .sub a b false)).cond .g = .ok (decide (b.toInt < a.toInt)) := by
  have hlt := alu_sub_SF_bne_OF a b (by decide) false
  have hge : ((alu .sub a b false).SF == (alu .sub a b false).OF) = !decide (a.toInt < b.toInt) := by
    rw [← hlt, bne, Bool.not_not]
  have heq : a = b ↔ a.toInt = b.toInt := BitVec.toInt_inj.symm
  simp only [Flags.cond, Flags.fromAlu, Content.read_val, ok_bind, pure_ok, hlt, hge, alu_sub_ZF, heq, Except.ok.injEq,
    ← decide_not, ← Bool.decide_or, ← Bool.decide_and, decide_eq_decide]
  refine ⟨trivial, ?ge, ?le, ?g⟩ <;> omega

/-- The flags of a comparison give the unsigned order and equality (44_control_flow.md R179 to R184). -/
theorem cond_unsigned_of_sub (f : Flags) (a b : Word) :
    (f.fromAlu (alu .sub a b false)).cond .b = .ok (decide (a.toNat < b.toNat)) ∧
    (f.fromAlu (alu .sub a b false)).cond .nb = .ok (decide (b.toNat ≤ a.toNat)) ∧
    (f.fromAlu (alu .sub a b false)).cond .be = .ok (decide (a.toNat ≤ b.toNat)) ∧
    (f.fromAlu (alu .sub a b false)).cond .a = .ok (decide (b.toNat < a.toNat)) ∧
    (f.fromAlu (alu .sub a b false)).cond .e = .ok (decide (a = b)) ∧
    (f.fromAlu (alu .sub a b false)).cond .ne = .ok (decide (¬ a = b)) := by
  have heq : a = b ↔ a.toNat = b.toNat := BitVec.toNat_inj.symm
  simp only [Flags.cond, Flags.fromAlu, Content.read_val, ok_bind, pure_ok, alu_sub_CF, alu_sub_ZF, heq, Except.ok.injEq,
    ← decide_not, ← Bool.decide_or, ← Bool.decide_and, decide_eq_decide]
  refine ⟨trivial, ?nb, ?be, ?a, trivial, trivial⟩ <;> omega

/-- CMP of two 4-byte operands (41_alu.md R131). -/
theorem exec_cmp_w4 (hdst : dst.width = .w4) (ha : s.readPlace .w4 dst = .ok a) (hb : s.readSource .w4 src = .ok b) :
    exec (.cmp dst src) s = .next { s with flags := s.flags.fromAlu (alu .sub a b false), ip := s.ip + 1 } := by
  rw [← hdst] at ha hb
  rw [exec_cmp_of ha hb, hdst, aluAt_w4]

/-! ### ADD, then ADC -/

/-- A binary instruction with write-back on 4-byte operands (41_alu.md R126). -/
theorem exec_alu_w4 {op : AluOp} {c : Bool} (hdst : dst.width = .w4) (hg : s.resolve dst = .ok g)
    (ha : s.readTarget .w4 g = .ok a) (hb : s.readSource .w4 src = .ok b)
    (hc : op = .adc ∨ op = .sbb → s.flags.CF = .val c) :
    exec (op.instr dst src) s = .next (s.afterAlu .w4 g (alu op a b c)) := by
  rw [← hdst] at ha hb
  rw [exec_alu_of hg ha hb hc, hdst, aluAt_w4]

/-- A read sees only the target's write. -/
theorem State.readTarget_afterAlu_eq (s : State) (w : Width) (g k : Target) (r : AluResult 32) :
    (s.afterAlu w g r).readTarget w k = (s.written w r.value g).readTarget w k :=
  State.readTarget_congr rfl rfl rfl w k

/-- The target is read back as the result. -/
theorem State.readTarget_afterAlu (hm : s.mem.wf = true) (hdst : dst.width = .w4) (hg : s.resolve dst = .ok g)
    (ha : s.readTarget .w4 g = .ok a) (r : AluResult 32) : (s.afterAlu .w4 g r).readTarget .w4 g = .ok r.value := by
  have hwidth : ∀ q, g = .reg q → q.width = .w4 := by
    rintro q rfl
    obtain ⟨q', rfl, hq⟩ | ⟨_, _, hq⟩ := State.resolve_ok hg
    · cases hq; exact hdst
    · cases hq
  rw [s.readTarget_afterAlu_eq, s.readTarget_written hm _ _ _ (State.canWrite_of_readTarget ha) hwidth, truncTo_w4]

/-- A place that shares no storage with the target is read as before. -/
theorem State.readTarget_afterAlu_apart {k : Target} {x : Word} (hgk : g.Apart k) (ha : s.readTarget .w4 g = .ok a)
    (hx : s.readTarget .w4 k = .ok x) (r : AluResult 32) : (s.afterAlu .w4 g r).readTarget .w4 k = .ok x := by
  rw [s.readTarget_afterAlu_eq]
  exact s.readTarget_written_apart hgk (State.canWrite_of_readTarget ha) hx

theorem State.wf_afterAlu (hm : s.mem.wf = true) (w : Width) (g : Target) (r : AluResult 32) :
    (s.afterAlu w g r).mem.wf = true := by
  cases g with
  | reg q => exact hm
  | mem x => exact Memory.wf_setBytes _ hm _ _

end

theorem toNat_append_w32 (hi lo : Word) : (hi ++ lo : BitVec 64).toNat = hi.toNat * 2 ^ 32 + lo.toNat := by
  rw [BitVec.toNat_append, ← Nat.shiftLeft_add_eq_or_of_lt lo.isLt, Nat.shiftLeft_eq]

/-- The sum of the high words with the carry of the sum of the low ones, above that sum, is the 64-bit sum (41_alu.md R123). -/
theorem alu_adc_append_alu_add (hi lo hi2 lo2 : Word) :
    ((alu .adc hi hi2 (alu .add lo lo2 false).CF).value ++ (alu .add lo lo2 false).value : BitVec 64) =
      (hi ++ lo : BitVec 64) + (hi2 ++ lo2 : BitVec 64) := by
  have hite : ∀ b : Bool, (if b then 2 ^ 32 else 0) = 2 ^ 32 * b.toNat := fun b => by cases b <;> rfl
  have hlow := aluSum_carry lo lo2 (Nat.zero_le 1)
  have hhigh := aluSum_carry hi hi2 (aluSum lo lo2 0).CF.toNat_le
  rw [hite] at hlow hhigh
  change ((aluSum hi hi2 (aluSum lo lo2 0).CF.toNat).value ++ (aluSum lo lo2 0).value : BitVec 64) = _
  refine BitVec.eq_of_toNat_eq ?_
  simp only [BitVec.toNat_add, toNat_append_w32]
  omega

/-! ### The obligations -/

/-- Settles O33: the ALU's flags are written in the order of the status word's fields. -/
theorem aluInstructionsComplete : Obligations.AluInstructionsComplete :=
  fun _ _ _ _ _ _ _ _ hg ha hb _ hc => exec_alu_of hg ha hb hc

/-- Settles O34: the flags of SUB, with no target written. -/
theorem cmpCompletes : Obligations.CmpCompletes := fun _ _ _ _ _ ha hb => exec_cmp_of ha hb

/-- Settles O35: one body, with ADD or SUB of 1, and CF as INCDEC_CF says. -/
theorem incAndDecComplete : Obligations.IncAndDecComplete := by
  intro s dst g a hg ha _
  have hstep := fun op => settle_stepByOne_of op hg ha
  simp only [Flags.fromIncDec_eq] at hstep
  exact ⟨hstep .add, hstep .sub⟩

/-- Settles O57: the jumps read the signed order from the flags CMP left. -/
theorem compareThenSignedJump : Obligations.CompareThenSignedJump := by
  intro s dst src a b c hdst ha hb
  obtain ⟨hl, hge, hle, hg⟩ := cond_signed_of_sub s.flags a b
  exact ⟨_, exec_cmp_w4 hdst ha hb, exec_jump_of .l c hl, exec_jump_of .ge c hge, exec_jump_of .le c hle,
    exec_jump_of .g c hg⟩

/-- Settles O58: the jumps read the unsigned order and equality from the flags CMP left. -/
theorem compareThenUnsignedJump : Obligations.CompareThenUnsignedJump := by
  intro s dst src a b c hdst ha hb
  obtain ⟨hb', hnb, hbe, ha', he, hne⟩ := cond_unsigned_of_sub s.flags a b
  refine ⟨_, exec_cmp_w4 hdst ha hb, exec_jump_of .b c hb', exec_jump_of .nb c hnb, exec_jump_of .be c hbe,
    exec_jump_of .a c ha', exec_jump_of .e c he, ?notEqual⟩
  case notEqual => rw [← ite_not]; exact exec_jump_of .ne c hne

/-- Settles O59: the ADC reads the CF the ADD left, and neither write reaches the other destination. -/
theorem addThenAdcIsTheSixtyFourBitSum : Obligations.AddThenAdcIsTheSixtyFourBitSum := by
  intro s dl dh sl sh gl gh lo hi lo2 hi2 hm hdl hdh hgl hgh hapart hlo hhi hlo2 hhi2
  refine ⟨_, exec_alu_w4 (op := .add) (c := false) hdl hgl hlo hlo2 (by simp), fun hgh' hhi2' => ?_⟩
  have hlow := State.readTarget_afterAlu hm hdl hgl hlo (alu .add lo lo2 false)
  have hhi' := State.readTarget_afterAlu_apart hapart hlo hhi (alu .add lo lo2 false)
  refine ⟨_, _, _, exec_alu_w4 (op := .adc) hdh hgh' hhi' hhi2' fun _ => rfl,
    State.readTarget_afterAlu_apart hapart.symm hhi' hlow _,
    State.readTarget_afterAlu (State.wf_afterAlu hm _ _ _) hdh hgh' hhi' _, alu_adc_append_alu_add hi lo hi2 lo2⟩

end Sys2Proof.Machine
end

section
/-! IMUL and IDIV: the 64-bit product, the divide path, and what the two instructions leave or take (42_multiply_divide.md R151 to
R154). -/

namespace Sys2Proof.Machine

/-! ### The 64-bit product -/

/-- The product of two signed 32-bit numbers fits a signed 64-bit value (42_multiply_divide.md R151). -/
theorem toInt_mul64 (a b : Word) : (mul64 a b).toInt = a.toInt * b.toInt := by
  have hlo : -2 ^ 62 ≤ a.toInt * b.toInt := BitVec.le_toInt_mul_toInt
  have hhi : a.toInt * b.toInt ≤ 2 ^ 62 := BitVec.toInt_mul_toInt_le
  exact BitVec.toInt_ofInt_eq_self (by decide) (by omega) (by omega)

/-! ### The divide path -/

/-- The remainder of the division truncated toward zero is smaller than the divisor. -/
theorem abs_tmod_lt_abs (a : Int) {b : Int} (hb : b ≠ 0) : |a.tmod b| < |b| := by
  rw [Int.abs_eq_natAbs, Int.abs_eq_natAbs, Int.natAbs_tmod]
  exact Int.ofNat_lt.2 (Nat.mod_lt _ (Int.natAbs_pos.2 hb))

/-- A remainder that is not 0 has the dividend's sign. -/
theorem sign_tmod_of_ne_zero {a b : Int} (h : a.tmod b ≠ 0) : (a.tmod b).sign = a.sign := by
  rw [Int.sign_tmod, if_neg (mt Int.tmod_eq_zero_of_dvd h)]

theorem toInt_ne_zero_of_toNat {d : Word} (hd : d.toNat ≠ 0) : d.toInt ≠ 0 :=
  mt (BitVec.toInt_inj (y := 0)).1 fun h => hd (congrArg BitVec.toNat h)

section
variable {n : DWord} {d : Word}

theorem div64_of_zero (hd : d.toNat = 0) : div64 n d = .divZero := if_pos hd

/-- With a divisor that is not 0, the quotient is out of range, or the quotient and the remainder are those of the division
truncated toward zero (42_multiply_divide.md R153). -/
theorem div64_of_ne_zero (hd : d.toNat ≠ 0) :
    div64 n d = if n.toInt.tdiv d.toInt < -(2 ^ 31) ∨ 2 ^ 31 - 1 < n.toInt.tdiv d.toInt then .divOverflow
      else .ok (BitVec.ofInt 32 (n.toInt.tdiv d.toInt)) (BitVec.ofInt 32 (n.toInt.tmod d.toInt)) := by
  rw [Int.tmod_def, mul_comm]
  exact if_neg hd

theorem div64_eq_divZero_iff : div64 n d = .divZero ↔ d.toNat = 0 := by
  refine ⟨fun h => by_contra fun hd => ?_, div64_of_zero⟩
  rw [div64_of_ne_zero hd] at h
  split at h <;> cases h

/-- The remainder fits a signed 32-bit value, since the divisor does. -/
theorem toInt_ofInt_tmod (m : Int) (hd : d.toInt ≠ 0) : (BitVec.ofInt 32 (m.tmod d.toInt)).toInt = m.tmod d.toInt := by
  have hlo : -2 ^ 31 ≤ d.toInt := d.le_toInt
  have hhi : d.toInt < 2 ^ 31 := d.toInt_lt
  have hdivisor : |d.toInt| ≤ 2 ^ 31 := abs_le.2 ⟨hlo, hhi.le⟩
  obtain ⟨hrlo, hrhi⟩ := abs_lt.1 ((abs_tmod_lt_abs m hd).trans_le hdivisor)
  exact BitVec.toInt_ofInt_eq_self (by decide) hrlo.le hrhi

end

/-! ### The instructions -/

section
variable {s : State} {p : Place} {v lo hi : Word} {k : Fault}

theorem State.readWidened_of (h : s.readPlace p.width p = .ok v) :
    s.readWidened p = .ok (widenTo32 s.cfg.narrowExt p.width v) :=
  bind_ok.2 ⟨v, h, rfl⟩

/-- The state a multiply or a divide leaves when it completes (42_multiply_divide.md R152, R154). -/
theorem State.advance_writePair (s : State) (lo hi : Word) :
    (s.writePair lo hi).advance.readReg .eax = .ok lo ∧ (s.writePair lo hi).advance.readReg .edx = .ok hi ∧
      (s.writePair lo hi).advance.flags = ⟨.undef, .undef, .undef, .undef, .undef, s.flags.DF⟩ ∧
      (s.writePair lo hi).advance.mem = s.mem ∧ (s.writePair lo hi).advance.ip = s.ip + 1 :=
  ⟨s.readReg_eax_writePair lo hi, s.readReg_edx_writePair lo hi, rfl, rfl, rfl⟩

/-- Both read EAX after the operand (42_multiply_divide.md R152, R154). -/
theorem exec_mulDiv_takesFault_eax (hv : s.readPlace p.width p = .ok v) (ha : s.readReg .eax = .error k) :
    exec (.imul p) s = .next (s.takeFault k) ∧ exec (.idiv p) s = .next (s.takeFault k) :=
  ⟨settle_of_error (bind_error.2 (.inr ⟨_, State.readWidened_of hv, bind_error.2 (.inl ha)⟩)),
    settle_of_error (bind_error.2 (.inr ⟨_, State.readWidened_of hv, bind_error.2 (.inl ha)⟩))⟩

/-- IDIV reads EDX last (42_multiply_divide.md R154). -/
theorem exec_idiv_takesFault_edx (hv : s.readPlace p.width p = .ok v) (hlo : s.readReg .eax = .ok lo)
    (hhi : s.readReg .edx = .error k) : exec (.idiv p) s = .next (s.takeFault k) :=
  settle_of_error (bind_error.2 (.inr ⟨_, State.readWidened_of hv,
    bind_error.2 (.inr ⟨lo, hlo, bind_error.2 (.inl hhi)⟩)⟩))

/-- The halves of the exact product, high and low, go to EDX and EAX (42_multiply_divide.md R152). -/
theorem exec_imul_of {a : Word} (hv : s.readPlace p.width p = .ok v) (ha : s.readReg .eax = .ok a) :
    ∃ lo hi, exec (.imul p) s = .next (s.writePair lo hi).advance ∧
      (hi ++ lo : BitVec 64) = mul64 a (widenTo32 s.cfg.narrowExt p.width v) :=
  ⟨_, _, settle_next.2 <| .inl <| bind_ok.2 ⟨_, State.readWidened_of hv, bind_ok.2 ⟨a, ha, rfl⟩⟩,
    BitVec.extractLsb'_append_extractLsb'⟩

/-- How IDIV ends on each answer of the divide path (42_multiply_divide.md R154). -/
def State.endDivide (s : State) : DivResult → Except Fault State
  | .divZero => .error .divideByZero
  | .divOverflow => .error .divideOverflow
  | .ok q r => .ok (s.writePair q r).advance

/-- With its reads answered, IDIV ends as the divide path answers. -/
theorem exec_idiv_of (hv : s.readPlace p.width p = .ok v) (hlo : s.readReg .eax = .ok lo) (hhi : s.readReg .edx = .ok hi) :
    exec (.idiv p) s = settle s (s.endDivide (div64 (hi ++ lo) (widenTo32 s.cfg.narrowExt p.width v))) := by
  change execIdiv p s = _
  simp only [execIdiv, State.readWidened_of hv, hlo, hhi, ok_bind]
  cases div64 (hi ++ lo) (widenTo32 s.cfg.narrowExt p.width v) <;> rfl

end

/-! ### The obligations -/

/-- Settles O36: the halves written are those of a product that 64 bits hold exactly. -/
theorem imulGivesTheExactProduct : Obligations.ImulGivesTheExactProduct := by
  intro s p
  refine ⟨Laws.OpcodeField.opc_encode (.imul p), fun _ h => (exec_mulDiv_takesFault h).1,
    fun _ _ hv ha => (exec_mulDiv_takesFault_eax hv ha).1, fun v a hv ha => ?completes⟩
  case completes =>
    obtain ⟨lo, hi, hexec, hproduct⟩ := exec_imul_of hv ha
    obtain ⟨heax, hedx, hrest⟩ := s.advance_writePair lo hi
    exact ⟨_, lo, hi, hexec, heax, hedx, hproduct ▸ toInt_mul64 _ _, hrest⟩

/-- Settles O37: quotient and remainder are those of the division truncated toward zero. -/
theorem dividePathTruncatesTowardZero : Obligations.DividePathTruncatesTowardZero := by
  intro n d
  refine ⟨div64_eq_divZero_iff.symm, fun hd => ?_⟩
  have hd' : d.toInt ≠ 0 := toInt_ne_zero_of_toNat hd
  refine ⟨n.toInt.tdiv d.toInt, n.toInt.tmod d.toInt, (Int.tdiv_mul_add_tmod _ _).symm, abs_tmod_lt_abs _ hd',
    sign_tmod_of_ne_zero, fun hout => ?overflow, fun ⟨hlo, hhi⟩ => ?completes⟩
  case overflow => rw [div64_of_ne_zero hd, if_pos hout]
  case completes =>
    rw [div64_of_ne_zero hd, if_neg (by omega)]
    exact ⟨_, _, rfl, BitVec.toInt_ofInt_eq_self (by decide) hlo (by omega), toInt_ofInt_tmod _ hd'⟩

/-- Settles O38: the fault of the first read that fails, else the end the divide path's answer gives. -/
theorem idivCompletesOrFaults : Obligations.IdivCompletesOrFaults := by
  intro s p
  refine ⟨Laws.OpcodeField.opc_encode (.idiv p), fun _ h => (exec_mulDiv_takesFault h).2, fun v hv =>
    ⟨fun _ h => (exec_mulDiv_takesFault_eax hv h).2, fun lo hlo =>
      ⟨fun _ h => exec_idiv_takesFault_edx hv hlo h, fun hi hhi => ?ends⟩⟩⟩
  case ends =>
    rw [exec_idiv_of hv hlo hhi]
    refine ⟨fun q r h => ?ok, fun h => ?zero, fun h => ?overflow⟩
    case ok => rw [h]; exact ⟨_, rfl, s.advance_writePair q r⟩
    case zero => rw [h]; rfl
    case overflow => rw [h]; rfl

end Sys2Proof.Machine
end

section
/-! The flag control instructions (43_flag_control.md R161 to R164). -/

namespace Sys2Proof.Machine

/-! ### The states they leave -/

theorem State.advance_setDF (s : State) (b : Bool) :
    (s.setDF b).advance = { s with flags := { s.flags with DF := .val b }, ip := s.ip + 1 } := rfl

theorem State.advance_setCF (s : State) (b : Bool) :
    (s.setCF b).advance = { s with flags := { s.flags with CF := .val b }, ip := s.ip + 1 } := rfl

/-! ### The obligation -/

/-- Settles O39: no body can fault, and the slots are those the encoder gives. -/
theorem flagControlCompletes : Obligations.FlagControlCompletes := by
  intro s
  refine ⟨?std, ?cld, ?stc, ?clc, decodeEncodeAgree .std rfl, decodeEncodeAgree .cld rfl, decodeEncodeAgree .stc rfl,
    decodeEncodeAgree .clc rfl⟩
  case std => exact (settle_ok s _).trans (congrArg _ (s.advance_setDF true))
  case cld => exact (settle_ok s _).trans (congrArg _ (s.advance_setDF false))
  case stc => exact (settle_ok s _).trans (congrArg _ (s.advance_setCF true))
  case clc => exact (settle_ok s _).trans (congrArg _ (s.advance_setCF false))

end Sys2Proof.Machine
end

section
/-! The control-transfer instructions: where each jump, loop, call and return leads, and the reads that stop it (44_control_flow.md
R171 to R199). -/

namespace Sys2Proof.Machine

section
variable {s : State}

/-! ### Reads that fault -/

/-- A read of `undef` ends the body in UnwrittenRead, and so does a fault that follows whatever was read (10_state.md R31). -/
theorem Content.read_bind_unwritten {α β : Type} {x : Content α} {g : α → Except Fault β}
    (h : x = .undef ∨ ∀ a, g a = .error .unwrittenRead) : (x.read >>= g) = .error .unwrittenRead := by
  cases x with
  | undef => rfl
  | val a => exact h.elim (nomatch ·) (· a)

/-- The same for contents read one after the other, one of which is `undef`. -/
theorem Content.read_bind_of_undef_mem {α β : Type} {x : Content α} {xs : List (Content α)} {g : α → Except Fault β}
    (h : .undef ∈ x :: xs) (hg : .undef ∈ xs → ∀ a, g a = .error .unwrittenRead) :
    (x.read >>= g) = .error .unwrittenRead :=
  Content.read_bind_unwritten ((List.mem_cons.1 h).imp Eq.symm hg)

/-! ### The predicates on flags -/

section
variable {f : Flags} {c z o g : Bool}

/-- Every input of a predicate is read, in the order R172 lists them. -/
theorem Flags.cond_of_undef {cond : Cond} (h : .undef ∈ cond.inputs f) : f.cond cond = .error .unwrittenRead := by
  cases cond with
  | o | s | e | b | p => exact Content.read_error.2 ⟨(List.mem_singleton.1 h).symm, rfl⟩
  | no | ns | ne | nb | np => exact Content.read_bind_of_undef_mem h (nomatch ·)
  | be | a | l | ge =>
    exact Content.read_bind_of_undef_mem h fun h _ => Content.read_bind_of_undef_mem h (nomatch ·)
  | le | g =>
    exact Content.read_bind_of_undef_mem h fun h _ => Content.read_bind_of_undef_mem h fun h _ =>
      Content.read_bind_of_undef_mem h (nomatch ·)

theorem Flags.cond_of_CF_ZF (hc : f.CF = .val c) (hz : f.ZF = .val z) :
    f.cond .be = .ok (decide (c = true ∨ z = true)) ∧ f.cond .a = .ok (decide (c = false ∧ z = false)) := by
  simp [Flags.cond, hc, hz]

theorem Flags.cond_of_SF_OF (hg : f.SF = .val g) (ho : f.OF = .val o) :
    f.cond .l = .ok (decide (g ≠ o)) ∧ f.cond .ge = .ok (decide (g = o)) := by
  simp [Flags.cond, hg, ho, bne, beq_eq_decide]

theorem Flags.cond_of_ZF_SF_OF (hz : f.ZF = .val z) (hg : f.SF = .val g) (ho : f.OF = .val o) :
    f.cond .le = .ok (decide (z = true ∨ g ≠ o)) ∧ f.cond .g = .ok (decide (z = false ∧ g = o)) := by
  simp [Flags.cond, hz, hg, ho, bne, beq_eq_decide]

end

/-! ### Jumps -/

theorem exec_jump_takesFault {cond : Cond} {k : Fault} (c : Imm) (h : s.flags.cond cond = .error k) :
    exec (cond.instr c) s = .next (s.takeFault k) := by
  rw [exec_jump]
  exact settle_of_error (bind_error.2 (.inl h))

/-- A predicate that is one flag. -/
theorem exec_jump_of_flag (cond : Cond) {x : Flag} {b : Bool} (c : Imm) (hcond : s.flags.cond cond = x.read)
    (hx : x = .val b) : exec (cond.instr c) s = .next { s with ip := if b then immValue c else s.ip + 1 } := by
  refine exec_jump_of cond c (hcond.trans ?_)
  rw [hx, Content.read_val, Bool.decide_eq_true]

/-- A predicate that is the negation of one flag. -/
theorem exec_jump_of_not_flag (cond : Cond) {x : Flag} {b : Bool} (c : Imm)
    (hcond : s.flags.cond cond = (do return !(← x.read))) (hx : x = .val b) :
    exec (cond.instr c) s = .next { s with ip := if b then s.ip + 1 else immValue c } := by
  rw [← ite_not]
  refine exec_jump_of cond c (hcond.trans ?_)
  rw [hx, Content.read_val, ok_bind, pure_ok, decide_not, Bool.decide_eq_true]

theorem toNat_immValue (c : Imm) : (immValue c).toNat = c.value.toNat % 2 ^ (8 * c.width.bytes) :=
  toNat_widenTo32_zero c.width c.value

/-! ### Jumps on the counter -/

/-- JCXZ and JECXZ read one counter and jump when it is 0 (44_control_flow.md R191, R192). -/
def State.jumpIfZero (s : State) (r : Reg) (c : Imm) : Except Fault State := do
  let v ← s.readReg r
  return s.branch (v == 0) (immValue c)

theorem exec_jecxz (c : Imm) (s : State) : exec (.jecxz c) s = settle s (s.jumpIfZero .ecx c) := by
  simp only [exec, execJecxz, State.condEcxz, State.jumpIfZero, bind_assoc, pure_bind]

theorem exec_jcxz_bits32 (c : Imm) (hw : s.cfg.cxzWidth = .bits32) :
    exec (.jcxz c) s = settle s (s.jumpIfZero .ecx c) := by
  simp only [exec, execJcxz, State.condCxz, hw, State.jumpIfZero, bind_assoc, pure_bind]

theorem exec_jcxz_bits16 (c : Imm) (hw : s.cfg.cxzWidth = .bits16) :
    exec (.jcxz c) s = settle s (s.jumpIfZero .cx c) := by
  simp only [exec, execJcxz, State.condCxz, hw, State.jumpIfZero, bind_assoc, pure_bind]

theorem settle_jumpIfZero_of {r : Reg} {v : Word} (c : Imm) (h : s.readReg r = .ok v) :
    settle s (s.jumpIfZero r c) = .next { s with ip := if v = 0 then immValue c else s.ip + 1 } := by
  simp only [State.jumpIfZero, h, ok_bind, pure_ok, settle_ok, branch_eq, beq_iff_eq]

theorem settle_jumpIfZero_takesFault {r : Reg} {k : Fault} (c : Imm) (h : s.readReg r = .error k) :
    settle s (s.jumpIfZero r c) = .next (s.takeFault k) :=
  settle_of_error (bind_error.2 (.inl h))

/-! ### Loops -/

theorem State.loopWhile_error {gate : Bool} {k : Fault} (c : Imm) (h : s.readReg .ecx = .error k) :
    s.loopWhile gate c = .error k :=
  bind_error.2 (.inl h)

theorem exec_loop_of {v : Word} (c : Imm) (hv : s.readReg .ecx = .ok v) :
    exec (.loop c) s = .next { s.writeReg .ecx (v - 1) with ip := if v ≠ 1 then immValue c else s.ip + 1 } := by
  have hbody := State.loopWhile_of (gate := true) (t := c) hv
  simp only [and_true] at hbody
  exact settle_next.2 (.inl hbody)

theorem exec_loope_of {v : Word} {z : Bool} (c : Imm) (hz : s.flags.ZF = .val z) (hv : s.readReg .ecx = .ok v) :
    exec (.loope c) s = .next
      { s.writeReg .ecx (v - 1) with ip := if v ≠ 1 ∧ z = true then immValue c else s.ip + 1 } :=
  settle_next.2 (.inl (bind_ok.2 ⟨z, Content.read_ok.2 hz, State.loopWhile_of hv⟩))

theorem exec_loopne_of {v : Word} {z : Bool} (c : Imm) (hz : s.flags.ZF = .val z) (hv : s.readReg .ecx = .ok v) :
    exec (.loopne c) s = .next
      { s.writeReg .ecx (v - 1) with ip := if v ≠ 1 ∧ z = false then immValue c else s.ip + 1 } := by
  simp only [← Bool.not_eq_true']
  exact settle_next.2 (.inl (bind_ok.2 ⟨z, Content.read_ok.2 hz, State.loopWhile_of hv⟩))

/-- LOOPE and LOOPNE read ZF, then ECX (44_control_flow.md R194, R195). -/
theorem exec_loopOnZF_takesFault (c : Imm) (h : s.flags.ZF = .undef ∨ s.readReg .ecx = .error .unwrittenRead) :
    exec (.loope c) s = .next (s.takeFault .unwrittenRead) ∧ exec (.loopne c) s = .next (s.takeFault .unwrittenRead) :=
  ⟨settle_of_error (Content.read_bind_unwritten (h.imp_right fun hv _ => State.loopWhile_error c hv)),
    settle_of_error (Content.read_bind_unwritten (h.imp_right fun hv _ => State.loopWhile_error c hv))⟩

end

/-! ### ip after ENTER and LEAVE -/

theorem State.advance_eq (s : State) : s.advance = { s with ip := s.ip + 1 } := rfl

/-! ### Slots of the instructions with a 4-byte target -/

/-- The first descriptor is that of a constant of width 4 (30_encoding.md R73, R75). -/
theorem encode_of_imm_w4 {i : Instr} {v : Word} (h : i.operands = [.const .w4 v]) :
    encode i = ⟨0x280 + i.opcode.setWidth 32, v, 0⟩ := by
  have hw0 : ∀ opc : BitVec 6, (0 : BitVec 13) ++ (Operand.const .w4 v).descriptor ++ opc = 0x280 + opc.setWidth 32 := by
    simp only [Operand.descriptor, Width.code]
    decide
  rw [encode, h, slotOf, hw0, Operand.valueWord]

/-! ### The obligations -/

/-- Settles O41: the predicate reads all its inputs, so its fault is the jump's. -/
theorem jumpOnUndefFlagFaults : Obligations.JumpOnUndefFlagFaults :=
  fun _ _ c h => exec_jump_takesFault c (Flags.cond_of_undef h)

/-- Settles O43: the gate is read before ECX, and the test is on the new ECX, which is 0 where the old one is 1. -/
theorem loopsComplete : Obligations.LoopsComplete := fun _ c _ =>
  ⟨fun _ hx => ⟨exec_loop_of c hx, fun _ hz => ⟨exec_loope_of c hz hx, exec_loopne_of c hz hx⟩⟩,
    fun hx => ⟨settle_of_error (State.loopWhile_error c hx), exec_loopOnZF_takesFault c (.inr hx)⟩,
    fun hz => exec_loopOnZF_takesFault c (.inl hz), encode_of_imm_w4 rfl, encode_of_imm_w4 rfl, encode_of_imm_w4 rfl⟩

/-- Settles O46: the push or the pop fits in memory, and the jump leaves all but ip. -/
theorem callAndRetComplete : Obligations.CallAndRetComplete :=
  fun _ c _ hsp => ⟨exec_call_of c hsp, exec_ret_of hsp⟩

/-- Settles O47: LEAVE_MODE names the register the frame's address is in. -/
theorem enterAndLeaveComplete : Obligations.EnterAndLeaveComplete := by
  intro s sp bp
  refine ⟨fun hsp hbp hlo hhi => ?enter, fun hmode hbp hhi => ?x86, fun hmode hsp hhi => ?popOnly⟩
  case enter => rw [exec_enter_of hsp hbp hlo hhi, State.advance_eq, State.writeReg_ip, State.writeReg_ip, State.storeWord_ip]
  case x86 =>
    rw [exec_leave_of (fun _ => hbp) (fun h => absurd (hmode.symm.trans h) (by decide)) hhi, State.advance_eq,
      State.writeReg_ip, State.writeReg_ip]
  case popOnly =>
    rw [exec_leave_of (fun h => absurd (hmode.symm.trans h) (by decide)) (fun _ => hsp) hhi, State.advance_eq,
      State.writeReg_ip, State.writeReg_ip]

/-- Settles O40: each jump goes by its row of R172, on one flag, on the negation of one, or on a relation of two or three. -/
theorem jumpsComplete : Obligations.JumpsComplete := fun _ t _ _ _ _ _ =>
  ⟨rfl, toNat_immValue t,
    exec_jump_of_flag .o t rfl, exec_jump_of_not_flag .no t rfl, exec_jump_of_flag .s t rfl,
    exec_jump_of_not_flag .ns t rfl, exec_jump_of_flag .e t rfl, exec_jump_of_not_flag .ne t rfl,
    exec_jump_of_flag .b t rfl, exec_jump_of_not_flag .nb t rfl,
    fun hc hz => exec_jump_of .be t (Flags.cond_of_CF_ZF hc hz).1,
    fun hc hz => exec_jump_of .a t (Flags.cond_of_CF_ZF hc hz).2,
    fun hg ho => exec_jump_of .l t (Flags.cond_of_SF_OF hg ho).1,
    fun hg ho => exec_jump_of .ge t (Flags.cond_of_SF_OF hg ho).2,
    fun hz hg ho => exec_jump_of .le t (Flags.cond_of_ZF_SF_OF hz hg ho).1,
    fun hz hg ho => exec_jump_of .g t (Flags.cond_of_ZF_SF_OF hz hg ho).2,
    exec_jump_of_flag .p t rfl, exec_jump_of_not_flag .np t rfl⟩

/-- Settles O42: CXZ_WIDTH names the register JCXZ reads; JECXZ reads ECX. -/
theorem counterJumpsComplete : Obligations.CounterJumpsComplete := fun s c _ =>
  ⟨fun _ hx => (exec_jecxz c s).trans (settle_jumpIfZero_of c hx),
    fun hx => (exec_jecxz c s).trans (settle_jumpIfZero_takesFault c hx),
    fun _ hw hx => (exec_jcxz_bits32 c hw).trans (settle_jumpIfZero_of c hx),
    fun hw hx => (exec_jcxz_bits32 c hw).trans (settle_jumpIfZero_takesFault c hx),
    fun _ hw hx => (exec_jcxz_bits16 c hw).trans (settle_jumpIfZero_of c hx),
    fun hw hx => (exec_jcxz_bits16 c hw).trans (settle_jumpIfZero_takesFault c hx),
    encode_of_imm_w4 rfl, encode_of_imm_w4 rfl⟩

end Sys2Proof.Machine
end

section
/-! INT and HLT: the scan for the string's end, and what each instruction leaves or takes (45_system.md R211, R212). -/

namespace Sys2Proof.Machine

section
variable {s : State}

/-! ### The scan -/

/-- A byte below MEM_SIZE ends the string if it is 0, and is the first of it if not. -/
theorem State.scanString_succ {a : Nat} (fuel : Nat) (h : a < s.cfg.memSize) :
    s.scanString (fuel + 1) a =
      if s.mem.get a = 0 then .ok [] else (do return s.mem.get a :: (← s.scanString fuel (a + 1))) := by
  have hzero : (s.mem.get a).setWidth 32 = 0 ↔ s.mem.get a = 0 := by bv_omega
  have hcut : ((s.mem.get a).setWidth 32).setWidth 8 = s.mem.get a := BitVec.setWidth_setWidth_of_le _ (by decide)
  simp only [scanString, s.memRead_byte a h, ok_bind, pure_ok, hzero, hcut]

/-- Every scan that starts at or above MEM_SIZE faults. -/
theorem State.scanString_outside {a : Nat} (fuel : Nat) (h : s.cfg.memSize ≤ a) :
    s.scanString fuel a = .error .memoryOutOfRange := by
  cases fuel with
  | zero => rfl
  | succ fuel =>
    exact bind_error.2 (.inl (State.memRead_error.2 (checkAccess_error.2 (.inl ⟨rfl, by omega⟩))))

/-- The scan gives the bytes before the first zero byte, where that byte is in memory and in reach of the scan. -/
theorem State.scanString_of_zero_at {a n fuel : Nat} (hne : ∀ k < n, s.mem.get (a + k) ≠ 0) (hz : s.mem.get (a + n) = 0)
    (hin : a + n < s.cfg.memSize) (hfuel : n < fuel) : s.scanString fuel a = .ok (s.mem.getBytes a n) := by
  induction fuel generalizing a n with
  | zero => exact absurd hfuel n.not_lt_zero
  | succ fuel ih =>
    rw [scanString_succ fuel (by omega)]
    cases n with
    | zero => exact if_pos hz
    | succ n =>
      have hshift : ∀ k, a + 1 + k = a + (k + 1) := Nat.succ_add_eq_add_succ a
      have hrest : s.scanString fuel (a + 1) = .ok (s.mem.getBytes (a + 1) n) :=
        ih (fun k hk => hshift k ▸ hne (k + 1) (by omega)) (hshift n ▸ hz) (by omega) (by omega)
      have hfirst : s.mem.get a ≠ 0 := hne 0 n.succ_pos
      rw [if_neg hfirst, hrest, ok_bind, pure_ok, Memory.getBytes]

/-- A scan that meets no zero byte below MEM_SIZE faults. -/
theorem State.scanString_of_no_zero {a : Nat} (fuel : Nat) (hne : ∀ x, a ≤ x → x < s.cfg.memSize → s.mem.get x ≠ 0) :
    s.scanString fuel a = .error .memoryOutOfRange := by
  induction fuel generalizing a with
  | zero => rfl
  | succ fuel ih =>
    by_cases ha : a < s.cfg.memSize
    · rw [scanString_succ fuel ha, if_neg (hne a le_rfl ha), ih fun x hx => hne x (by omega), error_bind]
    · exact scanString_outside _ (by omega)

theorem Memory.getBytes_eq_map_range (m : Memory) (a n : Nat) :
    m.getBytes a n = (List.range n).map fun k => m.get (a + k) :=
  List.ext_getElem (by simp) fun k _ _ => by simp [Memory.getElem_getBytes]

/-! ### The instructions -/

theorem State.advance_emit (s : State) (e : Event) :
    (s.emit e).advance = { s with events := s.events ++ [e], ip := s.ip + 1 } := rfl

section
variable {code : Imm} {a : Word} {k : Fault}

theorem exec_int_print (h1 : immValue code = 1) :
    exec (.int code) s = settle s (do return (s.emit (.print (← s.readReg .eax))).advance) :=
  congrArg (settle s) (if_pos h1)

theorem exec_int_printString (h2 : immValue code = 2) :
    exec (.int code) s = settle s (do
      let a ← s.readReg .eax
      let bytes ← s.scanString (s.cfg.memSize + 1 - a.toNat) a.toNat
      return (s.emit (.printString bytes)).advance) :=
  congrArg (settle s) ((if_neg (by rw [h2]; decide)).trans (if_pos h2))

theorem exec_int_print_of (h1 : immValue code = 1) (ha : s.readReg .eax = .ok a) :
    exec (.int code) s = .next (s.emit (.print a)).advance := by
  rw [exec_int_print h1, ha, ok_bind, pure_ok, settle_ok]

theorem exec_int_printString_of {bytes : List Byte} (h2 : immValue code = 2) (ha : s.readReg .eax = .ok a)
    (hbytes : s.scanString (s.cfg.memSize + 1 - a.toNat) a.toNat = .ok bytes) :
    exec (.int code) s = .next (s.emit (.printString bytes)).advance := by
  rw [exec_int_printString h2, ha, ok_bind, hbytes, ok_bind, pure_ok, settle_ok]

theorem exec_int_takesFault_scan (h2 : immValue code = 2) (ha : s.readReg .eax = .ok a)
    (hscan : s.scanString (s.cfg.memSize + 1 - a.toNat) a.toNat = .error k) :
    exec (.int code) s = .next (s.takeFault k) := by
  rw [exec_int_printString h2, ha, ok_bind, hscan, error_bind, settle_error]

theorem exec_int_takesFault_eax (h : immValue code = 1 ∨ immValue code = 2) (ha : s.readReg .eax = .error k) :
    exec (.int code) s = .next (s.takeFault k) := by
  rcases h with h1 | h2
  · rw [exec_int_print h1, ha, error_bind, settle_error]
  · rw [exec_int_printString h2, ha, error_bind, settle_error]

theorem exec_int_unknown (h1 : immValue code ≠ 1) (h2 : immValue code ≠ 2) :
    exec (.int code) s = .next (s.takeFault .unknownInterrupt) :=
  settle_of_error ((if_neg h1).trans (if_neg h2))

end

end

/-! ### The obligations -/

/-- Settles O49: the string ends at the first zero byte, which the scan reaches if it is in memory. -/
theorem intCompletesOrFaults : Obligations.IntCompletesOrFaults := by
  intro s code v
  refine ⟨fun a h1 ha => ?print, fun a n h2 ha hne hz hin => ?string, fun a h2 ha hne => ?noZero,
    exec_int_takesFault_eax, exec_int_unknown, encode_of_imm_w4 rfl⟩
  case print => rw [exec_int_print_of h1 ha, State.advance_emit]
  case string =>
    rw [exec_int_printString_of h2 ha (State.scanString_of_zero_at hne hz hin (by omega)), State.advance_emit,
      Memory.getBytes_eq_map_range]
  case noZero => exact exec_int_takesFault_scan h2 ha (State.scanString_of_no_zero _ hne)

/-- Settles O50: the body cannot fault, and the slot is the one the encoder gives. -/
theorem hltCompletes : Obligations.HltCompletes := fun s =>
  ⟨settle_ok s _, decodeEncodeAgree .hlt rfl⟩

end Sys2Proof.Machine
end

section
/-! Faults and the steps that execute nothing: a fault is precise, it is raised again by the next step, and a breakpoint pauses one
step of an arrival (60_exceptions.md R223, R224, R226, R231, R233). -/

namespace Sys2Proof.Machine

variable {i : Instr} {s t u : State} {k : Fault}

/-! ### Errors in the channel -/

/-- An instruction that completes emits no Error and leaves the fault mark. -/
theorem Completed.emits_no_error (h : Completed i s t) :
    t.faultMark = s.faultMark ∧ ∃ es, t.events = s.events ++ es ∧ ∀ e ∈ es, e.isError = false := by
  obtain ⟨_, _, _, hmark, ⟨_, _, hes⟩ | ⟨_, _, _, hexit⟩⟩ := h
  · exact ⟨hmark, hes⟩
  · exact ⟨hmark, [.exit], hexit, List.forall_mem_singleton.2 rfl⟩

/-- An instruction that emits an Error has taken the fault the Error reports. -/
theorem exec_eq_takeFault {ip : Word} (h : exec i s = .next t) (he : t.events = s.events ++ [.error k ip]) :
    t = s.takeFault k := by
  rcases exec_cases h with ⟨k', rfl⟩ | hc
  · have hk : [Event.error k' s.ip] = [.error k ip] := List.append_cancel_left he
    cases hk
    rfl
  · obtain ⟨_, es, hes, hno⟩ := hc.emits_no_error
    have hes' : es = [.error k ip] := List.append_cancel_left (hes.symm.trans he)
    have herr := hno (.error k ip) (hes' ▸ List.mem_singleton_self _)
    cases herr

/-! ### The fault depends on the program's view -/

/-- A program sees the same in `a` and `b`, which have emitted the same events since `s` and `u`. -/
def SameEmitted (s u a b : State) : Prop :=
  SameProgramView a b ∧ ∃ es, a.events = s.events ++ es ∧ b.events = u.events ++ es

theorem SameEmitted.emit {a b : State} {e e' : Event} (h : SameEmitted s u a b) (he : e' = e) :
    SameEmitted s u (a.emit e) (b.emit e') := by
  obtain ⟨hview, es, ha, hb⟩ := h
  refine ⟨hview, es ++ [e], ?_, ?_⟩
  · rw [State.emit_events, ha, List.append_assoc]
  · rw [State.emit_events, hb, he, List.append_assoc]

/-- The events an instruction emits depend on the program's view alone, so that view can be kept together with them. -/
theorem unobserved_sameEmitted (s u : State) : Unobserved (SameEmitted s u) where
  reads h := unobserved_hostState.reads h.1
  writeReg r v := .imp_left (unobserved_hostState.writeReg r v)
  setMem m := .imp_left (unobserved_hostState.setMem m)
  jumpTo x := .imp_left (unobserved_hostState.jumpTo x)
  setFlags hg := .imp_left (unobserved_hostState.setFlags hg)
  emit _ h := h.emit rfl
  takeFault k h := h.emit (congrArg (Event.error k) (unobserved_hostState.reads h.1).ip)
  endOfProgram h := h.emit rfl

theorem SameProgramView.setDF (b : Bool) (h : SameProgramView s u) : SameProgramView (s.setDF b) (u.setDF b) := by
  obtain ⟨hcfg, hregs, hip, hflags, hmem⟩ := h
  exact ⟨hcfg, hregs, hip, congrArg (fun f : Flags => { f with DF := .val b }) hflags, hmem⟩

/-- From two states in which a program sees the same, an instruction takes the same fault (60_exceptions.md R244). -/
theorem exec_takesFault_of_sameProgramView (hview : SameProgramView s u) (h : exec i s = .next (s.takeFault k)) :
    exec i u = .next (u.takeFault k) := by
  have hstart : SameEmitted s u s u := ⟨hview, [], (List.append_nil _).symm, (List.append_nil _).symm⟩
  obtain ⟨t, hx, _, es, hs, hu⟩ :=
    exec_related (unobserved_sameEmitted s u) i (fun _ _ _ b => .imp_left (SameProgramView.setDF b)) hstart h
  have hes : es = [.error k s.ip] := (List.append_cancel_left hs).symm
  rw [hx, exec_eq_takeFault hx (hes ▸ hu)]

/-- An instruction run again after its fault takes the fault again. -/
theorem exec_takeFault_again (h : exec i s = .next (s.takeFault k)) :
    exec i (s.takeFault k) = .next ((s.takeFault k).takeFault k) :=
  have hview : SameProgramView s (s.takeFault k) := ⟨rfl, rfl, rfl, rfl, rfl⟩
  exec_takesFault_of_sameProgramView hview h

/-! ### Stepping again -/

/-- The step after a fault takes the fault again: the fetch finds the same slot, and an instruction the same operands. -/
theorem step_takesFault_again (h : step s = .next t) (he : t.events = s.events ++ [.error k s.ip])
    (hbp : s.ip ∉ s.breakpoints) : step t = .next (t.takeFault k) := by
  have hno : ∀ {a : State}, a.ip = s.ip → a.breakpoints = s.breakpoints → a.breakpointHit = false := fun hip hbps =>
    State.breakpointHit_eq_false.2 (.inl (by rwa [hip, hbps]))
  rcases step_cases h with ⟨hip, rfl⟩ | ⟨_, _, rfl⟩ | ⟨_, _, _, rfl⟩ | ⟨slot, e, hip, hn, _, hd, rfl⟩ |
    ⟨slot, i, hip, hn, _, hd, hx⟩
  · cases List.append_cancel_left he
    exact step_badAddress hip
  · cases List.append_cancel_left he
  · simp at he
  · cases List.append_cancel_left he
    exact step_illegal hip hn (hno rfl rfl) hd
  · obtain rfl := exec_eq_takeFault hx he
    exact (step_run (s := State.takeFault k { s with visited := false }) hip hn (hno rfl rfl) hd).trans (exec_takeFault_again hx)

/-! ### The obligations -/

/-- Settles O9: the step takes the fault again, and a fault leaves registers, flags, memory and ip. -/
theorem steppingAfterFaultFaultsAgain : Obligations.SteppingAfterFaultFaultsAgain := fun _ _ _ h he hbp =>
  ⟨_, step_takesFault_again h he hbp, rfl, rfl, rfl, rfl, rfl, rfl, rfl⟩

/-- Settles O8: an instruction takes its fault in the state before it, or completes. -/
theorem faultsArePrecise : Obligations.FaultsArePrecise := fun _ _ _ h =>
  (exec_cases h).imp_right Completed.emits_no_error

/-- Settles O10: the pause sets `visited`, so that the next step does not pause, and that step clears it. -/
theorem breakpointPausesOnceThenRuns : Obligations.BreakpointPausesOnceThenRuns := by
  intro s slot i hip hn hd hbp hv
  have hpause : step s = .next s.pauseAtBreakpoint := step_breakpoint hip hn (State.breakpointHit_eq_true.2 ⟨hbp, hv⟩)
  have hrun := step_run (s := s.pauseAtBreakpoint) hip hn (State.breakpointHit_eq_false.2 (.inr rfl)) hd
  have hback : { s.pauseAtBreakpoint with visited := false } = { s with sched := .paused, pendingTick := false } :=
    congrArg (fun v => { s with visited := v, sched := .paused, pendingTick := false }) hv.symm
  exact ⟨_, hpause, rfl, rfl, rfl, rfl, rfl, hback ▸ hrun⟩

/-- Settles O5: the fetch answers the instruction the slot decodes to. -/
theorem stepRunsDecodedInstruction : Obligations.StepRunsDecodedInstruction := fun _ _ _ hip hn hbp hd =>
  step_run hip hn (State.breakpointHit_eq_false.2 hbp) hd

/-- Settles O6, by the order of the fetch's checks (60_exceptions.md R224). -/
theorem stepsThatExecuteNothing : Obligations.StepsThatExecuteNothing := fun _ =>
  ⟨step_badAddress, fun hip hlen => step_end hip (List.getElem?_eq_none hlen),
    fun hip hlen hbp hv => step_breakpoint hip (List.getElem?_eq_getElem hlen) (State.breakpointHit_eq_true.2 ⟨hbp, hv⟩),
    fun _ _ hip hn hbp hd => step_illegal hip hn (State.breakpointHit_eq_false.2 hbp) hd⟩

end Sys2Proof.Machine
end

section
/-! The host calls: the scheduler, the breakpoint set, and the synchronous run (60_exceptions.md R234 to R238, R246; log 15,
log 17). -/

namespace Sys2Proof.Machine

variable {s t u : State} {n : Nat}

/-! ### The scheduler -/

theorem State.pause_of_running (h : s.sched = .running) : s.pause = { s with sched := .paused, pendingTick := false } := by
  rw [State.pause, if_pos h]

theorem State.pause_of_not_running (h : s.sched ≠ .running) : s.pause = { s with pendingTick := false } := by
  rw [State.pause, if_neg h]

theorem State.reschedule_eq (s : State) :
    s.reschedule = { s with pendingTick := if s.sched = .running then true else s.pendingTick } := by
  unfold State.reschedule
  split <;> rfl

theorem State.tick_of (h : step { s with pendingTick := false } = .next t) : s.tick = .next t.reschedule := by
  rw [State.tick, h]

/-- A tick is a step, and then the next tick is scheduled. -/
theorem State.tick_next (h : s.tick = .next t) :
    ∃ u, step { s with pendingTick := false } = .next u ∧ t = u.reschedule := by
  obtain ⟨u, hu⟩ := everyStepAnswersNext { s with pendingTick := false }
  rw [State.tick_of hu] at h
  cases h
  exact ⟨u, hu, rfl⟩

/-! ### The breakpoint set -/

theorem mem_foldr_insertAddress {a : Word} {l : List Word} : a ∈ l.foldr insertAddress [] ↔ a ∈ l := by
  induction l with
  | nil => simp
  | cons b bs ih => rw [List.foldr_cons, mem_insertAddress, ih, List.mem_cons]

/-- A rising list is one in which every address is below all that follow it. -/
theorem risingAddresses_iff_pairwise {l : List Word} :
    risingAddresses l = true ↔ l.Pairwise fun a b => a.toNat < b.toNat := by
  have htrans : IsTrans Word fun a b => a.toNat < b.toNat := ⟨fun _ _ _ => Nat.lt_trans⟩
  rw [← List.isChain_iff_pairwise]
  induction l using risingAddresses.induct with
  | case1 => simp [risingAddresses]
  | case2 a => simp [risingAddresses]
  | case3 a b bs ih => simp only [risingAddresses, Bool.and_eq_true, decide_eq_true_eq, ih, List.isChain_cons_cons]

theorem pairwise_insertAddress {a : Word} {l : List Word} (h : l.Pairwise fun a b => a.toNat < b.toNat) :
    (insertAddress a l).Pairwise fun a b => a.toNat < b.toNat := by
  induction l with
  | nil => exact List.pairwise_singleton _ _
  | cons b bs ih =>
    obtain ⟨hb, hbs⟩ := List.pairwise_cons.1 h
    simp only [insertAddress]
    split
    · next hlt => exact List.pairwise_cons.2 ⟨List.forall_mem_cons.2 ⟨hlt, fun c hc => hlt.trans (hb c hc)⟩, h⟩
    · split
      · exact h
      · next hlt hne =>
        have hba : b.toNat < a.toNat := by
          have : a.toNat ≠ b.toNat := fun e => hne (BitVec.eq_of_toNat_eq e)
          omega
        refine List.pairwise_cons.2 ⟨fun c hc => ?_, ih hbs⟩
        rcases mem_insertAddress.1 hc with rfl | hc
        · exact hba
        · exact hb c hc

/-- The breakpoint update leaves the canonical form, whatever addresses it is given. -/
theorem risingAddresses_foldr_insertAddress (l : List Word) : risingAddresses (l.foldr insertAddress []) = true := by
  rw [risingAddresses_iff_pairwise]
  induction l with
  | nil => exact .nil
  | cons a l ih => exact pairwise_insertAddress ih

/-! ### The synchronous run -/

theorem State.stepWhileRunning_of_not_running (n : Nat) (h : s.sched ≠ .running) :
    s.stepWhileRunning n = .next (.returned s) := by
  cases n with
  | zero => exact if_neg h
  | succ n => exact if_neg h

theorem State.stepWhileRunning_succ (n : Nat) (h : s.sched = .running) (hu : step s = .next u) :
    s.stepWhileRunning (n + 1) = u.stepWhileRunning n := by
  rw [State.stepWhileRunning, if_pos h, hu]

/-- Steps taken while running use up that much of the budget. -/
theorem StepsWhileRunning.stepWhileRunning_add {m : Nat} (h : StepsWhileRunning m s t) (n : Nat) :
    s.stepWhileRunning (m + n) = t.stepWhileRunning n := by
  induction m generalizing s with
  | zero => rw [show s = t from h, Nat.zero_add]
  | succ m ih =>
    obtain ⟨hr, u, hu, hut⟩ := h
    rw [Nat.succ_add, State.stepWhileRunning_succ _ hr hu, ih hut]

theorem StepsWhileRunning.returned {m : Nat} (h : StepsWhileRunning m s t) (ht : t.sched ≠ .running) (hm : m ≤ n) :
    s.stepWhileRunning n = .next (.returned t) := by
  obtain ⟨j, rfl⟩ := Nat.exists_eq_add_of_le hm
  rw [h.stepWhileRunning_add, State.stepWhileRunning_of_not_running j ht]

theorem StepsWhileRunning.didNotEnd (h : StepsWhileRunning n s t) (ht : t.sched = .running) :
    s.stepWhileRunning n = .next (.didNotEnd t) :=
  (h.stepWhileRunning_add 0).trans (if_pos ht)

/-- A run is still running after `n` steps, or has come to a state that is not running. -/
theorem stepsWhileRunning_cases (n : Nat) (s : State) :
    (∃ t, StepsWhileRunning n s t ∧ t.sched = .running) ∨ ∃ m ≤ n, ∃ t, StepsWhileRunning m s t ∧ t.sched ≠ .running := by
  induction n generalizing s with
  | zero => exact (em (s.sched = .running)).imp (fun h => ⟨s, rfl, h⟩) fun h => ⟨0, Nat.le_refl 0, s, rfl, h⟩
  | succ n ih =>
    by_cases hr : s.sched = .running
    · obtain ⟨u, hu⟩ := everyStepAnswersNext s
      rcases ih u with ⟨t, hut, ht⟩ | ⟨m, hm, t, hut, ht⟩
      · exact .inl ⟨t, ⟨hr, u, hu, hut⟩, ht⟩
      · exact .inr ⟨m + 1, Nat.succ_le_succ hm, t, ⟨hr, u, hu, hut⟩, ht⟩
    · exact .inr ⟨0, Nat.zero_le _, s, rfl, hr⟩

/-- The run returns in the first state that is not running, if the budget reaches it. -/
theorem State.stepWhileRunning_eq_returned :
    s.stepWhileRunning n = .next (.returned t) ↔ t.sched ≠ .running ∧ ∃ m ≤ n, StepsWhileRunning m s t := by
  refine ⟨fun h => ?_, fun ⟨ht, m, hm, hst⟩ => hst.returned ht hm⟩
  rcases stepsWhileRunning_cases n s with ⟨u, hsu, hu⟩ | ⟨m, hm, u, hsu, hu⟩
  · rw [hsu.didNotEnd hu] at h
    cases h
  · rw [hsu.returned hu hm] at h
    cases h
    exact ⟨hu, m, hm, hsu⟩

/-- The budget runs out in a state that is still running. -/
theorem State.stepWhileRunning_eq_didNotEnd :
    s.stepWhileRunning n = .next (.didNotEnd t) ↔ t.sched = .running ∧ StepsWhileRunning n s t := by
  refine ⟨fun h => ?_, fun ⟨ht, hst⟩ => hst.didNotEnd ht⟩
  rcases stepsWhileRunning_cases n s with ⟨u, hsu, hu⟩ | ⟨m, hm, u, hsu, hu⟩
  · rw [hsu.didNotEnd hu] at h
    cases h
    exact ⟨hu, hsu⟩
  · rw [hsu.returned hu hm] at h
    cases h

/-! ### The obligation -/

/-- Settles O21: each call is its pseudocode, and a run is as many steps as are taken while running. -/
theorem schedulerCalls : Obligations.SchedulerCalls := fun _ =>
  ⟨rfl, fun t h => (State.tick_of h).trans (congrArg _ t.reschedule_eq), State.pause_of_running, State.pause_of_not_running, rfl,
    fun _ _ => mem_foldr_insertAddress, fun _ => rfl, fun _ _ => State.stepWhileRunning_eq_returned,
    fun _ _ => State.stepWhileRunning_eq_didNotEnd⟩

end Sys2Proof.Machine
end

section
/-! The host calls keep the invariant of the machine (60_exceptions.md R234 to R238, R246; 70_reset_and_hazards.md R261, R262). -/

namespace Sys2Proof.Machine

variable {s t : State}

/-! ### The scheduler -/

theorem State.Inv.pause (h : s.Inv) : s.pause.Inv := { h with tickWhileRunning := nofun }

theorem State.Inv.halt (h : s.Inv) : s.halt.Inv :=
  { h with
    tickWhileRunning := nofun
    markHasError := fun hm => lastError_isSome_append (h.markHasError hm) _ }

theorem State.Inv.run (h : s.Inv) : s.run.Inv := { h with tickWhileRunning := fun _ => rfl }

theorem State.Inv.setBreakpoints (h : s.Inv) (addrs : List Word) : (s.setBreakpoints addrs).Inv :=
  { h with breakpointForm := risingAddresses_foldr_insertAddress addrs }

theorem State.Inv.reschedule (h : s.Inv) : s.reschedule.Inv := by
  unfold State.reschedule
  split
  · next hr => exact { h with tickWhileRunning := fun _ => hr }
  · exact h

theorem State.Inv.tick (h : s.Inv) (ht : s.tick = .next t) : t.Inv := by
  obtain ⟨u, hu, rfl⟩ := State.tick_next ht
  have hcleared : State.Inv { s with pendingTick := false } := { h with tickWhileRunning := nofun }
  exact (hcleared.step hu).reschedule

/-! ### The synchronous run -/

theorem State.Inv.stepsWhileRunning {n : Nat} (h : s.Inv) (hst : StepsWhileRunning n s t) : t.Inv := by
  induction n generalizing s with
  | zero => exact (show s = t from hst) ▸ h
  | succ n ih =>
    obtain ⟨_, u, hu, hut⟩ := hst
    exact ih (h.step hu) hut

theorem State.Inv.runSync {n : Nat} (h : s.Inv) (hret : s.runSync n = .next (.returned t)) : t.Inv := by
  obtain ⟨_, m, _, hst⟩ := State.stepWhileRunning_eq_returned.1 hret
  have hrunning : State.Inv { s with sched := .running } := { h with tickWhileRunning := fun _ => rfl }
  exact hrunning.stepsWhileRunning hst

/-! ### Reset and boot -/

theorem State.Inv.resetCall (h : s.Inv) : s.resetCall.Inv := { h with markHasError := nofun }

theorem State.Inv.clearMemory (h : s.Inv) : State.Inv { s with mem := [] } := { h with memoryForm := rfl, memoryBounds := rfl }

theorem State.Inv.storeWord {a : Int} {n : Nat} (h : s.Inv) (hb : s.InBounds a n) (v : Word) : (s.storeWord a.toNat n v).Inv := by
  obtain ⟨ha, hend⟩ := hb
  have hlen : a.toNat + (memoryOrder s.cfg.endian (bytesOf n v)).length ≤ s.cfg.memSize := by
    rw [memoryOrder_length, bytesOf_length]
    omega
  exact { h with
    memoryForm := Memory.wf_setBytes _ h.memoryForm _ _
    memoryBounds := Memory.within_setBytes _ _ h.memoryBounds _ _ hlen }

theorem State.Inv.loadDefinitions {ds : List MemDef} (h : s.Inv) (hl : s.loadDefinitions ds = .ok t) : t.Inv := by
  induction ds generalizing s with
  | nil =>
    cases hl
    exact h
  | cons d ds ih =>
    obtain ⟨u, hu, hut⟩ := bind_ok.1 hl
    obtain ⟨hb, rfl⟩ := (State.memWrite_ok d.size.bytes_pos).1 hu
    exact ih (h.storeWord hb _) hut

/-- A start that is refused has paused and changed nothing else; one that is not has paused, reset the machine, cleared memory and
loaded the definitions (70_reset_and_hazards.md R262; log 16). -/
theorem State.bootLoad_cases (s : State) :
    s.bootLoad = .loadError s.pause ∨
      ∃ u, State.loadDefinitions { s.pause.resetCall with mem := [] } s.definitions = .ok u ∧
        s.bootLoad = .loaded { u with started := true } := by
  simp only [State.bootLoad]
  split
  · split
    · next u hu => exact .inr ⟨u, hu, rfl⟩
    · exact .inl rfl
  · exact .inl rfl

theorem State.Inv.bootLoad (h : s.Inv) (hb : s.bootLoad = .loaded t ∨ s.bootLoad = .loadError t) : t.Inv := by
  rcases s.bootLoad_cases with he | ⟨u, hu, he⟩
  · rw [he] at hb
    obtain ⟨⟨⟩⟩ | ⟨⟨⟩⟩ := hb
    exact h.pause
  · rw [he] at hb
    obtain ⟨⟨⟩⟩ | ⟨⟨⟩⟩ := hb
    have hinv : u.Inv := h.pause.resetCall.clearMemory.loadDefinitions hu
    exact { hinv with }

/-! ### The obligation -/

/-- Settles O13, call by call. -/
theorem hostCallsKeepInvariant : Obligations.HostCallsKeepInvariant := fun _ h =>
  ⟨h.pause, h.halt, h.run, h.resetCall, h.setBreakpoints, fun _ => h.tick, fun _ _ => h.runSync, fun _ hb => h.bootLoad (.inl hb),
    fun _ hb => h.bootLoad (.inr hb)⟩

end Sys2Proof.Machine
end

section
/-! Process.start loads the data segment: the memory that the definitions' writes leave, and the boot as a whole
(70_reset_and_hazards.md R262; log 16). -/

namespace Sys2Proof.Machine

/-! ### The memory a data segment leaves -/

/-- The memory one definition's MemWrite leaves in bounds. -/
def Memory.define (e : Endian) (m : Memory) (d : MemDef) : Memory :=
  m.setBytes d.addr (memoryOrder e (bytesOf d.size.bytes (BitVec.ofInt 32 d.value)))

/-- The memory the definitions' MemWrites leave, in order. -/
def Memory.defineAll (e : Endian) (m : Memory) (ds : List MemDef) : Memory := ds.foldl (Memory.define e) m

section
variable {e : Endian} {d : MemDef} {ds : List MemDef} {x : Nat}

theorem Memory.wf_defineAll {m : Memory} (hm : m.wf = true) : (m.defineAll e ds).wf = true := by
  induction ds generalizing m with
  | nil => exact hm
  | cons d ds ih => exact ih (Memory.wf_setBytes m hm _ _)

theorem Memory.getBytes_define {m : Memory} (hm : m.wf = true) :
    (m.define e d).getBytes d.addr d.size.bytes = memoryOrder e (bytesOf d.size.bytes (BitVec.ofInt 32 d.value)) := by
  have h := Memory.getBytes_setBytes m hm d.addr (memoryOrder e (bytesOf d.size.bytes (BitVec.ofInt 32 d.value)))
  rw [memoryOrder_length, bytesOf_length] at h
  exact h

theorem Memory.get_define_other (m : Memory) (hx : ¬ d.Holds x) : (m.define e d).get x = m.get x := by
  refine Memory.get_setBytes_other _ _ _ _ ?_
  rw [memoryOrder_length, bytesOf_length]
  exact (not_and_or.1 hx).imp not_le.1 not_lt.1

theorem Memory.get_defineAll_other (m : Memory) (hx : ∀ d ∈ ds, ¬ d.Holds x) : (m.defineAll e ds).get x = m.get x := by
  induction ds generalizing m with
  | nil => rfl
  | cons d ds ih =>
    obtain ⟨hd, hds⟩ := List.forall_mem_cons.1 hx
    exact (ih _ hds).trans (m.get_define_other hd)

theorem Memory.getBytes_congr {m m' : Memory} {a n : Nat} (h : ∀ k < n, m.get (a + k) = m'.get (a + k)) :
    m.getBytes a n = m'.getBytes a n := by
  rw [Memory.getBytes_eq_map_range, Memory.getBytes_eq_map_range]
  exact List.map_congr_left fun k hk => h k (List.mem_range.1 hk)

/-- Definitions beside `d` leave its bytes. -/
theorem Memory.getBytes_defineAll_other (m : Memory) (hds : ∀ c ∈ ds, ∀ x, d.Holds x → ¬ c.Holds x) :
    (m.defineAll e ds).getBytes d.addr d.size.bytes = m.getBytes d.addr d.size.bytes :=
  Memory.getBytes_congr fun _ hk =>
    m.get_defineAll_other fun c hc => hds c hc _ ⟨Nat.le_add_right _ _, Nat.add_lt_add_left hk _⟩

/-- The bytes of a definition that no later one overlaps, whatever the definitions before it. -/
theorem Memory.getBytes_defineAll {m : Memory} {pre post : List MemDef} (hm : m.wf = true)
    (hpost : ∀ c ∈ post, ∀ x, d.Holds x → ¬ c.Holds x) :
    (m.defineAll e (pre ++ d :: post)).getBytes d.addr d.size.bytes =
      memoryOrder e (bytesOf d.size.bytes (BitVec.ofInt 32 d.value)) := by
  have hsplit : m.defineAll e (pre ++ d :: post) = ((m.defineAll e pre).define e d).defineAll e post := List.foldl_append
  rw [hsplit, Memory.getBytes_defineAll_other _ hpost]
  exact Memory.getBytes_define (Memory.wf_defineAll hm)

end

/-- A value whose bytes stand in memory in the byte order is read, whatever wrote them (20_memory.md R55). -/
theorem State.memRead_of_getBytes {s : State} {a : Nat} {w : Width} {v : Word} (hfit : a + w.bytes ≤ s.cfg.memSize)
    (hbytes : s.mem.getBytes a w.bytes = memoryOrder s.cfg.endian (bytesOf w.bytes v)) :
    s.memRead a w.bytes = .ok (truncTo w v) := by
  rw [State.memRead_of w.bytes_pos ⟨by omega, by omega⟩, Int.toNat_natCast, State.loadWord, hbytes,
    memoryOrder_memoryOrder, wordOf_bytesOf]

/-! ### The boot -/

/-- The definitions that fit are all written. -/
theorem State.loadDefinitions_of {s : State} {ds : List MemDef} (h : ∀ d ∈ ds, d.addr + d.size.bytes ≤ s.cfg.memSize) :
    s.loadDefinitions ds = .ok { s with mem := s.mem.defineAll s.cfg.endian ds } := by
  induction ds generalizing s with
  | nil => rfl
  | cons d ds ih =>
    obtain ⟨hd, hds⟩ := List.forall_mem_cons.1 h
    exact bind_ok.2 ⟨_, State.memWrite_of d.size.bytes_pos ⟨by omega, by omega⟩, ih hds⟩

/-- The state an accepted start leaves before it begins execution. -/
def State.booted (s : State) : State :=
  { s.pause.resetCall with mem := Memory.defineAll s.cfg.endian [] s.definitions, started := true }

theorem all_fits_iff {size : Nat} {ds : List MemDef} :
    ds.all (MemDef.fits size) = true ↔ ∀ d ∈ ds, d.addr + d.size.bytes ≤ size := by
  simp [MemDef.fits]

theorem State.bootLoad_of_fits {s : State} (h : ∀ d ∈ s.definitions, d.addr + d.size.bytes ≤ s.cfg.memSize) :
    s.bootLoad = .loaded s.booted := by
  have hload : State.loadDefinitions { s.pause.resetCall with mem := [] } s.pause.definitions = .ok _ :=
    State.loadDefinitions_of h
  have hfits : s.pause.definitions.all (MemDef.fits s.pause.cfg.memSize) = true := all_fits_iff.2 h
  rw [State.bootLoad, if_pos hfits, hload]
  rfl

theorem State.bootLoad_of_overrun {s : State} (h : ∃ d ∈ s.definitions, s.cfg.memSize < d.addr + d.size.bytes) :
    s.bootLoad = .loadError s.pause := by
  obtain ⟨d, hd, hover⟩ := h
  exact if_neg fun hfits => absurd (all_fits_iff.1 hfits d hd) (not_le.2 hover)

/-! ### The obligation -/

/-- Settles O20: the boot is the reset state with the memory the definitions leave, or the paused state. -/
theorem processStartLoadsTheDataSegment : Obligations.ProcessStartLoadsTheDataSegment := by
  refine fun s => ⟨fun hfit => ?_, State.bootLoad_of_overrun⟩
  refine ⟨s.booted, State.bootLoad_of_fits hfit, rfl, rfl, rfl, rfl, rfl, rfl, rfl,
    fun x hx => Memory.get_defineAll_other [] hx, fun pre d post hsplit hpost => ?_⟩
  have hd : d ∈ s.definitions := hsplit ▸ List.mem_append_cons_self
  refine State.memRead_of_getBytes (hfit d hd) ?_
  rw [State.booted, hsplit]
  exact Memory.getBytes_defineAll rfl hpost

end Sys2Proof.Machine
end
